-- ==== Sys2Proof/Word.lean ====
section
/-! DEFINITION. The word types of the block and the pixel: bytes, the two operand widths, the
transaction descriptor (spec 30_encoding R91) and the four-channel pixel (20_memory R62). -/

namespace Sys2Proof

/-- One port register, one channel of a pixel, one byte of a serialised descriptor (R10, R21). -/
abbrev Byte := BitVec 8

/-- A slot index or a sub-register: one half of a port address (R96). -/
abbrev Nibble := BitVec 4

/-- A 16-bit register or a 16-bit big-endian pair (R26, R29, R33, R36). -/
abbrev Half := BitVec 16

/-- One operand field of a transaction descriptor (R91). -/
abbrev Word := BitVec 32

/-- A transaction descriptor: exactly 72 bits, `op` in 71:64, `a` in 63:32, `b` in 31:0 (R91). -/
abbrev Descriptor := BitVec 72

/-- A pixel `(c0, c1, c2, c3)`, channel 0 first (R62).  In the framebuffer the channels are blue,
green, red, alpha; in the staging image red, green, blue, alpha. -/
structure Pixel where
  c0 : Byte
  c1 : Byte
  c2 : Byte
  c3 : Byte
  deriving DecidableEq, Repr, Inhabited

end Sys2Proof
end

