-- ==== Sys2Proof/Config.lean ====
section
/-! DEFINITION. The configuration of the block (spec 00_scope R8), the interface of an external
device handler (40_port_dispatch R121), and the free values: every draw of 00_scope R12 that no
descriptor carries, each an opaque constant that nothing in Lean can evaluate. -/

namespace Sys2Proof

/-- The handler of a DEVICE slot, `H[s]` (R8, R121).  What a device does is outside the block; the
configuration says which of these three it is. -/
inductive Handler where
  /-- `H_RAW` of 95_test_vectors, section 0: read answers the stored byte, nothing else happens. -/
  | raw
  /-- The reference screen handler of 41_screen_bridge R157, with its index plane. -/
  | refScreen
  /-- Any handler at all that keeps the contract of R121: its answers are free values. -/
  | external
  deriving DecidableEq, Repr

/-- The kind of a slot (20_memory R70). -/
inductive SlotKind where
  /-- No handler: reads give the raw byte. -/
  | none
  /-- Reserved for a device that is not implemented: reads give zero. -/
  | stub
  /-- A registered handler. -/
  | device (h : Handler)
  deriving DecidableEq, Repr

/-- RESIZE_POLICY (R8, R151). -/
inductive ResizePolicy where
  | clamp
  | reject
  deriving DecidableEq, Repr

/-- EVAL_FAIL_POLICY (R8, R211). -/
inductive EvalFailPolicy where
  | skip
  | ignore
  deriving DecidableEq, Repr

/-- PaletteFn (R8, R162): the reference function of R163, or a function nothing is known of but
that it reads the sixteen bytes it is given. -/
inductive PaletteFn where
  | reference
  | external
  deriving DecidableEq, Repr

/-- The parameters of 00_scope R8.  NPORT = 256, NSLOT = 16, SLOTSZ = 16 and COORD_BITS = 32 are
fixed by the types of addresses and operands; every other row is a field.  The configuration is
plain data and no transaction changes it (R261 step 2). -/
structure Config where
  /-- MAXW, MAXH: the staging image's capacity in pixels. -/
  maxW : Nat
  maxH : Nat
  /-- CELL: what the framebuffer's sides are multiples of. -/
  cell : Nat
  /-- BOOT_W, BOOT_H: the framebuffer's size at reset. -/
  bootW : Nat
  bootH : Nat
  /-- SLOT_KIND[0..15], each DEVICE entry with its handler H[s]. -/
  slots : List SlotKind
  /-- SYS_SLOT. -/
  sysSlot : Nibble
  /-- PAL_LO, PAL_HI. -/
  palLo : Nat
  palHi : Nat
  /-- NCOL. -/
  ncol : Nat
  paletteFn : PaletteFn
  /-- SCR_VEC_ADDR, MOUSE_X_ADDR, MOUSE_Y_ADDR, MOUSE_STATE_ADDR. -/
  scrVecAddr : Byte
  mouseXAddr : Byte
  mouseYAddr : Byte
  mouseStateAddr : Byte
  /-- NBTN. -/
  nbtn : Nat
  /-- BtnMask(1), BtnMask(2), ..., BtnMask(NBTN). -/
  btnMask : List Byte
  resizePolicy : ResizePolicy
  evalFailPolicy : EvalFailPolicy
  /-- BENCH. -/
  bench : Bool
  /-- ORIGIN. -/
  origin : Half
  /-- TRACE_EN. -/
  traceEn : Bool
  deriving DecidableEq, Repr

/-- The configuration the model's reset state runs with: the defaults of R8, the reference slot map
CFG_REF of 20_memory R72 and the test configuration CFG_T of 95_test_vectors section 0, with the
boot size 512 x 320 of the source's scenario (R8).  DESIGN CHOICE (log 1), unsafe: it is one
configuration of many; a claim over every state quantifies over the configuration instead. -/
def Config.ref : Config where
  maxW := 1024
  maxH := 1024
  cell := 8
  bootW := 512
  bootH := 320
  slots := [.device .raw, .device .raw, .device .raw, .stub, .stub, .stub, .stub, .none,
    .device .raw, .device .raw, .device .raw, .none, .device .raw, .none, .none, .none]
  sysSlot := 0
  palLo := 8
  palHi := 13
  ncol := 4
  paletteFn := .reference
  scrVecAddr := 0x20
  mouseXAddr := 0x92
  mouseYAddr := 0x94
  mouseStateAddr := 0x96
  nbtn := 8
  btnMask := [0x01, 0x02, 0x04, 0x08, 0x10, 0x20, 0x40, 0x80]
  resizePolicy := .clamp
  evalFailPolicy := .skip
  bench := true
  origin := 0x0100
  traceEn := true

/-- A framebuffer operation a screen handler may issue (R121 (3)): FBWR or RESIZE. -/
inductive FbOp where
  | fbwr (i px : Word)
  | resize (w h : Word)
  deriving DecidableEq, Repr

/-- The three entry points of a handler (R121). -/
inductive HandlerCall where
  /-- `H[s].read(addr)`, with the full address. -/
  | read (addr : Byte)
  /-- `H[s].write(sub, val)`. -/
  | write (sub : Nibble) (val : Byte)
  /-- `H[s].palette(PAL)`. -/
  | palette (pal : List Pixel)
  deriving DecidableEq, Repr

/-- What an entry point of a handler answers (R121): its new internal state, a result, the bytes it
pushes into its own slot and the framebuffer operations it issues.  A push names a sub-register
only, so it cannot leave the handler's slot. -/
structure HandlerAnswer where
  hstate : Nat
  result : Byte
  pushes : List (Nibble × Byte)
  fbOps : List FbOp
  deriving DecidableEq, Repr, Inhabited

/-! Free values (R12).  None has a body: a claim about a state that holds one is true whatever it
is.  DESIGN CHOICE (log 2), safe. -/

/-- Pixel `i` of the framebuffer's contents drawn at its `gen`-th allocation (R43, R152). -/
opaque Config.drawFb : (gen i : Nat) → Pixel

/-- Pixel `j` of the staging image's contents drawn at its `gen`-th creation (R43, R210). -/
opaque Config.drawSt : (gen j : Nat) → Pixel

/-- Entry `k` of the palette cache at reset (R43). -/
opaque Config.drawPal : (k : Nat) → Pixel

/-- The geometry registers at reset: 0 is QW, 1 is QH, 2 is UN, 3 is VN (R43). -/
opaque Config.drawGeo : (k : Nat) → Half

/-- Entry `k` of an uninterpreted PaletteFn of the system slot's sixteen bytes (R162). -/
opaque Config.externalPalette : (sys : List Byte) → (k : Nat) → Pixel

/-- What an external handler answers (R121, U7): a function of the slot, the handler's own state,
the slot's sixteen bytes and the call. -/
opaque Config.externalHandler :
  (slot : Nibble) → (hstate : Nat) → (bytes : List Byte) → (call : HandlerCall) → HandlerAnswer

end Sys2Proof
end

