-- ==== Sys2Proof/Syntax.lean ====
section
/-! DEFINITION. The fifteen transactions of the block (spec 30_encoding R94), one constructor per row
of opcode_table.json, with the operands of R93 at their widths. -/

namespace Sys2Proof

/-- A transaction (R94). -/
inductive Instr where
  /-- `portIn(addr) -> byte` (R122). -/
  | pin (addr : Byte)
  /-- `portOut(addr, val)` (R125). -/
  | pout (addr val : Byte)
  /-- Raw write, the device-side push update (R128). -/
  | push (addr val : Byte)
  /-- Raw read (R129). -/
  | peek (addr : Byte)
  /-- `resize(w, h)`, unsigned pixels (R150). -/
  | resize (w h : Word)
  /-- Write pixel `i` of the framebuffer; `px` is `{c3, c2, c1, c0}` (R154). -/
  | fbwr (i px : Word)
  /-- Convert the framebuffer into the staging image (R156). -/
  | blit
  /-- Host resize notification (R158). -/
  | rnote
  /-- Recompute the display geometry if a resize is pending (R160). -/
  | geom
  /-- `pointerMove(x, y)`, two's complement coordinates (R180). -/
  | pmove (x y : Word)
  /-- `buttonDown(id)` (R184). -/
  | bdown (id : Word)
  /-- `buttonUp(id)` (R185). -/
  | bup (id : Word)
  /-- Load the boot image and run the boot evaluation, with the loader's and the core's answers and
  the number of nested transactions (R200). -/
  | boot (loadFail evalFail : Bool) (n : Word)
  /-- One iteration of the presentation loop, with the core's and the presenter's answers and the
  number of nested transactions (R202). -/
  | frame (evalFail invalid : Bool) (n : Word)
  /-- Host-requested shutdown (R214). -/
  | stop
  deriving DecidableEq, Repr

end Sys2Proof
end

