-- ==== Sys2Proof/WellFormed.lean ====
section
/-! DEFINITION. Which transactions have a descriptor that is not reserved whatever the state
(spec 30_encoding R98).  The operand widths are in the types; what is left to check is that the
answers of a BOOT do not contradict one another. -/

namespace Sys2Proof

/-- R98 (3), BOOT: a load that failed has no evaluation answer. -/
def bootAnswersAgree (loadFail evalFail : Bool) : Bool := !(loadFail && evalFail)

/-- R98 (3), BOOT: a load that failed has no nested transactions. -/
def bootCountAgrees (loadFail : Bool) (n : Word) : Bool := !(loadFail && n != 0)

/-- A well-formed transaction.  The two other clauses of R98 (3) are about FRAME and depend on the
configuration and on SD, so they are checked where FRAME runs. -/
def Instr.wellFormed : Instr → Bool
  | .pin _ => true
  | .pout _ _ => true
  | .push _ _ => true
  | .peek _ => true
  | .resize _ _ => true
  | .fbwr _ _ => true
  | .blit => true
  | .rnote => true
  | .geom => true
  | .pmove _ _ => true
  | .bdown _ => true
  | .bup _ => true
  | .boot loadFail evalFail n => bootAnswersAgree loadFail evalFail && bootCountAgrees loadFail n
  | .frame _ _ _ => true
  | .stop => true

end Sys2Proof
end

