-- ==== Sys2Proof/Decode.lean ====
section
/-! DEFINITION. The decoder of transaction descriptors, total on any bytes and rejecting by name,
and the encoder (spec 30_encoding R91 to R95, R98). -/

namespace Sys2Proof

/-- Why bytes are no transaction (R98). -/
inductive DecodeError where
  /-- Fewer than nine bytes are left. -/
  | truncated
  /-- R98 (1): `op` is 0x0F..0xFF. -/
  | reservedOp
  /-- R98 (2): a must-be-zero bit of the format is 1. -/
  | nonzeroMbz
  /-- R98 (3): the answers contradict one another. -/
  | contradictoryAnswers
  deriving DecidableEq, Repr

/-- What decoding one descriptor gives. -/
inductive DescriptorResult where
  | ok (i : Instr)
  | reject (e : DecodeError)
  deriving DecidableEq, Repr

/-- What decoding a byte stream gives: a transaction and the bytes after it, or a rejection. -/
inductive DecodeResult where
  | ok (i : Instr) (rest : List Byte)
  | reject (e : DecodeError)
  deriving DecidableEq, Repr

/-! The fields of a descriptor (R91). -/

/-- Bits 71:64. -/
def Descriptor.op (td : Descriptor) : Byte := td.extractLsb' 64 8

/-- Bits 63:32. -/
def Descriptor.a (td : Descriptor) : Word := td.extractLsb' 32 32

/-- Bits 31:0. -/
def Descriptor.b (td : Descriptor) : Word := td.extractLsb' 0 32

/-- The descriptor of three fields (R91). -/
def Descriptor.make (op : Byte) (a b : Word) : Descriptor := op ++ a ++ b

/-! The seven formats (R92). -/

/-- Format A: a port address in `a[7:0]`, every other bit must be zero. -/
def decodeA (mk : Byte → Instr) (a b : Word) : DescriptorResult :=
  if a.extractLsb' 8 24 = 0 ∧ b = 0 then .ok (mk (a.extractLsb' 0 8)) else .reject .nonzeroMbz

/-- Format AV: a port address in `a[7:0]`, a byte value in `b[7:0]`. -/
def decodeAV (mk : Byte → Byte → Instr) (a b : Word) : DescriptorResult :=
  if a.extractLsb' 8 24 = 0 ∧ b.extractLsb' 8 24 = 0 then
    .ok (mk (a.extractLsb' 0 8) (b.extractLsb' 0 8))
  else .reject .nonzeroMbz

/-- Format Z: every operand bit must be zero. -/
def decodeZ (i : Instr) (a b : Word) : DescriptorResult :=
  if a = 0 ∧ b = 0 then .ok i else .reject .nonzeroMbz

/-- Format U: a button id in `a`, `b` must be zero. -/
def decodeU (mk : Word → Instr) (a b : Word) : DescriptorResult :=
  if b = 0 then .ok (mk a) else .reject .nonzeroMbz

/-- Format N: two answer bits `a[1]`, `a[0]` and a count in `b`; the other bits of `a` must be zero.
`mk` is given `a[0]`, then `a[1]`. -/
def decodeN (mk : Bool → Bool → Word → Instr) (a b : Word) : DescriptorResult :=
  if a.extractLsb' 2 30 = 0 then
    if (mk (a.getLsbD 0) (a.getLsbD 1) b).wellFormed then .ok (mk (a.getLsbD 0) (a.getLsbD 1) b)
    else .reject .contradictoryAnswers
  else .reject .nonzeroMbz

/-- Decode one descriptor (R94, R95, R98).  Formats UU and SS have no reserved bits. -/
def decodeDescriptor (td : Descriptor) : DescriptorResult :=
  match td.op.toNat with
  | 0x00 => decodeA .pin td.a td.b
  | 0x01 => decodeAV .pout td.a td.b
  | 0x02 => decodeAV .push td.a td.b
  | 0x03 => decodeA .peek td.a td.b
  | 0x04 => .ok (.resize td.a td.b)
  | 0x05 => .ok (.fbwr td.a td.b)
  | 0x06 => decodeZ .blit td.a td.b
  | 0x07 => decodeZ .rnote td.a td.b
  | 0x08 => decodeZ .geom td.a td.b
  | 0x09 => .ok (.pmove td.a td.b)
  | 0x0A => decodeU .bdown td.a td.b
  | 0x0B => decodeU .bup td.a td.b
  | 0x0C => decodeN .boot td.a td.b
  | 0x0D => decodeN .frame td.a td.b
  | 0x0E => decodeZ .stop td.a td.b
  | _ => .reject .reservedOp

/-- A descriptor as its nine bytes, most significant first (R91). -/
def Descriptor.bytes (td : Descriptor) : List Byte :=
  [td.extractLsb' 64 8, td.extractLsb' 56 8, td.extractLsb' 48 8, td.extractLsb' 40 8,
    td.extractLsb' 32 8, td.extractLsb' 24 8, td.extractLsb' 16 8, td.extractLsb' 8 8,
    td.extractLsb' 0 8]

/-- Decode the first nine bytes of a stream (R91, R99: a decoder advances by 9 bytes). -/
def decode : List Byte → DecodeResult
  | b0 :: b1 :: b2 :: b3 :: b4 :: b5 :: b6 :: b7 :: b8 :: rest =>
    match decodeDescriptor (b0 ++ b1 ++ b2 ++ b3 ++ b4 ++ b5 ++ b6 ++ b7 ++ b8) with
    | .ok i => .ok i rest
    | .reject e => .reject e
  | _ => .reject .truncated

/-! The encoder. -/

/-- A port address or a byte value in the low byte of an operand field, zeros above (R92). -/
def byteField (v : Byte) : Word := v.setWidth 32

/-- The operand `a` of format N: answer bits `a[0]` and `a[1]` (R92). -/
def answerField (a0 a1 : Bool) : Word := (BitVec.ofBool a1 ++ BitVec.ofBool a0).setWidth 32

/-- The descriptor of a transaction (R92 to R94). -/
def encode : Instr → Descriptor
  | .pin addr => Descriptor.make 0x00 (byteField addr) 0
  | .pout addr val => Descriptor.make 0x01 (byteField addr) (byteField val)
  | .push addr val => Descriptor.make 0x02 (byteField addr) (byteField val)
  | .peek addr => Descriptor.make 0x03 (byteField addr) 0
  | .resize w h => Descriptor.make 0x04 w h
  | .fbwr i px => Descriptor.make 0x05 i px
  | .blit => Descriptor.make 0x06 0 0
  | .rnote => Descriptor.make 0x07 0 0
  | .geom => Descriptor.make 0x08 0 0
  | .pmove x y => Descriptor.make 0x09 x y
  | .bdown id => Descriptor.make 0x0A id 0
  | .bup id => Descriptor.make 0x0B id 0
  | .boot loadFail evalFail n => Descriptor.make 0x0C (answerField loadFail evalFail) n
  | .frame evalFail invalid n => Descriptor.make 0x0D (answerField evalFail invalid) n
  | .stop => Descriptor.make 0x0E 0 0

/-- The serialised form of a transaction (R91). -/
def encodeBytes (i : Instr) : List Byte := (encode i).bytes

/-! The opcode table's patterns (R95): `fixed` marks the bits a row fixes, `value` gives them. -/

/-- One row of opcode_table.json. -/
structure OpcodeRow where
  mnemonic : String
  fixed : Descriptor
  value : Descriptor
  deriving DecidableEq, Repr

/-- The fifteen rows of opcode_table.json, in its order (R94, R95). -/
def opcodeTable : List OpcodeRow :=
  [⟨"PIN",    0xFF_FFFFFF00_FFFFFFFF, 0x00_00000000_00000000⟩,
   ⟨"POUT",   0xFF_FFFFFF00_FFFFFF00, 0x01_00000000_00000000⟩,
   ⟨"PUSH",   0xFF_FFFFFF00_FFFFFF00, 0x02_00000000_00000000⟩,
   ⟨"PEEK",   0xFF_FFFFFF00_FFFFFFFF, 0x03_00000000_00000000⟩,
   ⟨"RESIZE", 0xFF_00000000_00000000, 0x04_00000000_00000000⟩,
   ⟨"FBWR",   0xFF_00000000_00000000, 0x05_00000000_00000000⟩,
   ⟨"BLIT",   0xFF_FFFFFFFF_FFFFFFFF, 0x06_00000000_00000000⟩,
   ⟨"RNOTE",  0xFF_FFFFFFFF_FFFFFFFF, 0x07_00000000_00000000⟩,
   ⟨"GEOM",   0xFF_FFFFFFFF_FFFFFFFF, 0x08_00000000_00000000⟩,
   ⟨"PMOVE",  0xFF_00000000_00000000, 0x09_00000000_00000000⟩,
   ⟨"BDOWN",  0xFF_00000000_FFFFFFFF, 0x0A_00000000_00000000⟩,
   ⟨"BUP",    0xFF_00000000_FFFFFFFF, 0x0B_00000000_00000000⟩,
   ⟨"BOOT",   0xFF_FFFFFFFC_00000000, 0x0C_00000000_00000000⟩,
   ⟨"FRAME",  0xFF_FFFFFFFC_00000000, 0x0D_00000000_00000000⟩,
   ⟨"STOP",   0xFF_FFFFFFFF_FFFFFFFF, 0x0E_00000000_00000000⟩]

/-- A descriptor matches a row when every bit the row fixes has the row's value (R95). -/
def OpcodeRow.matches (r : OpcodeRow) (td : Descriptor) : Bool := td &&& r.fixed == r.value

/-- The mnemonic of a transaction (R94). -/
def Instr.mnemonic : Instr → String
  | .pin _ => "PIN"
  | .pout _ _ => "POUT"
  | .push _ _ => "PUSH"
  | .peek _ => "PEEK"
  | .resize _ _ => "RESIZE"
  | .fbwr _ _ => "FBWR"
  | .blit => "BLIT"
  | .rnote => "RNOTE"
  | .geom => "GEOM"
  | .pmove _ _ => "PMOVE"
  | .bdown _ => "BDOWN"
  | .bup _ => "BUP"
  | .boot _ _ _ => "BOOT"
  | .frame _ _ _ => "FRAME"
  | .stop => "STOP"

/-- The descriptor whose bits are the low `nbits` bits of `w`, the bits above zero.  opcode_table.json
numbers the bits of a descriptor as R91 does, bit 0 its least significant bit. -/
def tableDescriptor (nbits w : Nat) : Descriptor := BitVec.ofNat 72 (w % 2 ^ nbits)

/-- The transaction the decoder reads from the nine bytes of a table word; none where it rejects. -/
def decodeTableWord (nbits w : Nat) : Option Instr :=
  match decode (tableDescriptor nbits w).bytes with
  | .ok i _ => some i
  | .reject _ => none

end Sys2Proof
end

