-- ==== Sys2Proof/Machine/State.lean ====
section
/-! DEFINITION. The state of the block as plain data (spec 10_state R20 to R43), the phases, the
exception conditions, what an outside observer is handed, and the state after reset. -/

namespace Sys2Proof.Machine

/-- Why the model has no next step.  The block itself never stops on a transaction: R130, R13. -/
inductive Fault where
  /-- Raised by `step` when no descriptor is presented: no agent issues anything, and the block is
  stalled (R216, U9, U16).  Safe: nothing can be proved of a step that is not there. -/
  | noTransaction
  /-- Raised by `step` when one to eight bytes are presented: less than a descriptor (R91, R99).
  Safe, as above. -/
  | truncatedTrace
  deriving DecidableEq, Repr

/-- What the model has no meaning for.  A transaction that the spec calls refused is not one of
these: it has the effect R13 gives it, which is to set REFUSED and change nothing else. -/
inductive Refusal where
  /-- Raised by `exec` for an instruction with no meaning yet; no arm does.  Safe. -/
  | notModelled (mnemonic : String)
  deriving DecidableEq, Repr

/-- The agents that take steps in or on the block (R7). -/
inductive Agent where
  /-- The frame sequencer, with the machine's port accesses and the handlers' steps. -/
  | seq
  /-- The host event source. -/
  | host
  /-- The external instruction-execution core. -/
  | machine
  /-- The external handler of one slot. -/
  | handler (slot : Nibble)
  /-- The external presentation layer. -/
  | presenter
  deriving DecidableEq, Repr

/-- PH, the phase of the frame sequencer (R37). -/
inductive Phase where
  | boot
  | idle
  | exec
  | upload
  | render
  | present
  | stopped
  | fatal
  deriving DecidableEq, Repr

/-- The exception conditions that are raised, with the information recorded (R230).  X6 is a trace
record (R245, `Event.trace`); X7 is invisible to the block (R246). -/
inductive XCond where
  /-- X1 (R231). -/
  | bootLoadFail
  /-- X2 (R232). -/
  | bootEvalFail
  /-- X3, with the vector that was called (R233). -/
  | frameEvalFail (vec : Half)
  /-- X4, with the requested size (R234). -/
  | resizeOverCapacity (w h : Word)
  /-- X5 (R235). -/
  | swapchainInvalidated
  deriving DecidableEq, Repr

/-- Why a transaction was refused (R13). -/
inductive RefuseReason where
  /-- A reserved descriptor (R98). -/
  | reservedDescriptor (e : DecodeError)
  /-- The phase does not admit the transaction (R215). -/
  | notAdmitted
  /-- `boot_not_in_boot_phase` (R200). -/
  | bootNotInBootPhase
  /-- `frame_not_in_idle_phase` (R202). -/
  | frameNotInIdlePhase
  /-- A BOOT or FRAME nested in an evaluation (R99). -/
  | nestedSequencer
  /-- The trace ends before the nested descriptors have been read (R99). -/
  | traceEndsInEvaluation
  /-- `resize_not_cell_multiple` (R150). -/
  | resizeNotCellMultiple
  /-- `fbwr_out_of_range` (R154). -/
  | fbwrOutOfRange
  /-- A handler other than the screen handler issued a framebuffer operation (R121, U17). -/
  | handlerOutsideContract
  deriving DecidableEq, Repr

/-- The content of a diagnostic trace record (R127). -/
inductive TraceRec where
  | read (addr : Byte)
  | write (addr val : Byte)
  deriving DecidableEq, Repr

/-- `FrameOutput(QW, QH, UN, VN, img)`, what one frame hands to the presenter (R208): `img` is the
list of rows, each the list of its pixels in display order. -/
structure FrameOutput where
  qw : Half
  qh : Half
  un : Half
  vn : Half
  img : List (List Pixel)
  deriving DecidableEq, Repr

/-- What leaves the block and is not its state: results (R102), trace records (R127), recorded
conditions (R230), refusals (R13), calls of the machine (R239) and of handlers (R121), phase changes
(R38) and frame outputs (R208). -/
inductive Event where
  | result (b : Byte)
  | trace (r : TraceRec)
  | raised (x : XCond)
  | refusal (r : RefuseReason)
  | evaluate (entry : Half)
  | handler (slot : Nibble) (call : HandlerCall)
  | phase (p : Phase)
  | frame (out : FrameOutput)
  deriving DecidableEq, Repr

/-- One atomic step of a HOST transaction (R14, R180, R184, R185, R158, R214). -/
inductive HostStep where
  /-- PMOVE step 1: read the size, clamp, write PS_X and PS_Y. -/
  | moveTo (x y : Word)
  /-- PMOVE step 2. -/
  | storeXHigh
  /-- PMOVE step 3. -/
  | storeXLow
  /-- PMOVE step 4. -/
  | storeYHigh
  /-- PMOVE step 5. -/
  | storeYLow
  /-- BDOWN: or the mask into PS_BTN. -/
  | press (m : Byte)
  /-- BUP: clear the mask in PS_BTN. -/
  | release (m : Byte)
  /-- BDOWN, BUP: store PS_BTN over the button state register. -/
  | storeButtons
  /-- RNOTE. -/
  | noteResize
  /-- STOP. -/
  | requestStop
  deriving DecidableEq, Repr

/-- The PORT space's contents: addresses strictly rising, no byte equal to `Memory.unlisted`. -/
abbrev Memory := List Host.Cell

/-- A framebuffer's or a staging image's written pixels: indices strictly rising.  An unlisted pixel
is a draw (R12), so no entry can be told from what an unlisted index reads as. -/
abbrev Image := List (Nat × Pixel)

/-- The state.  Fields named in R20 come first; the rest is the model's own. -/
structure State where
  /-- The configuration, an argument of the model (R8); no transaction writes it. -/
  cfg : Config
  /-- RF, the 256 port registers (R21). -/
  rf : Memory
  /-- FB_W and FB_H (R29). -/
  fbW : Half
  fbH : Half
  /-- FB: the pixels written since the current allocation (R30). -/
  fb : Image
  /-- Which allocation of FB this is: its unwritten pixels are `Config.drawFb fbGen`. -/
  fbGen : Nat
  /-- ST: the pixels written since the staging image's creation (R31). -/
  st : Image
  /-- Which creation of ST this is: its unwritten pixels are `Config.drawSt stGen`. -/
  stGen : Nat
  /-- PAL, NCOL pixels (R32). -/
  pal : List Pixel
  /-- PS_X, PS_Y, PS_BTN (R33). -/
  psX : Half
  psY : Half
  psBtn : Byte
  /-- RZ (R34). -/
  rz : Bool
  /-- SD (R35). -/
  sd : Bool
  /-- GEO: QW, QH, UN, VN (R36). -/
  qw : Half
  qh : Half
  un : Half
  vn : Half
  /-- PH (R37). -/
  ph : Phase
  /-- REFUSED, the model's mark (R13, R20). -/
  refused : Bool
  /-- An evaluation is in progress (R204): transactions are nested. -/
  evaluating : Bool
  /-- The internal state of each external handler (R39, R121); an unlisted slot's is 0. -/
  hstate : List (Nat × Nat)
  /-- IDX, the reference screen handler's index plane (R157); an unlisted entry is 0. -/
  idx : List (Nat × Nat)
  /-- The trace still to run: serialised descriptors (R91, R99). -/
  input : List Byte
  /-- The steps of issued HOST transactions that have not taken effect yet, oldest first (R75). -/
  hostTodo : List HostStep
  /-- The interleaving, an input of the model (U18): how many pending HOST steps take effect at each
  coming point where HOST may step; with the list used up, all of them. -/
  sched : List Nat
  /-- What the observer was handed, oldest first. -/
  log : List Event
  deriving DecidableEq, Repr

/-- The state right after reset under a configuration (R43, R261). -/
def State.resetWith (c : Config) : State where
  cfg := c
  rf := []
  fbW := BitVec.ofNat 16 c.bootW
  fbH := BitVec.ofNat 16 c.bootH
  fb := []
  fbGen := 0
  st := []
  stGen := 0
  pal := (List.range c.ncol).map Config.drawPal
  psX := 0
  psY := 0
  psBtn := 0
  rz := true
  sd := false
  qw := Config.drawGeo 0
  qh := Config.drawGeo 1
  un := Config.drawGeo 2
  vn := Config.drawGeo 3
  ph := .boot
  refused := false
  evaluating := false
  hstate := []
  idx := []
  input := []
  hostTodo := []
  sched := []
  log := []

/-- The machine right after reset, with the reference configuration. -/
def State.reset : State := State.resetWith Config.ref

end Sys2Proof.Machine
end

