-- ==== Sys2Proof/Machine/Store.lean ====
section
/-! DEFINITION. Sparse stores: lists of index and value in one canonical form, and the PORT space as
one of them (spec 20_memory R60, R66). -/

namespace Sys2Proof.Machine

variable {α : Type}

/-- Indices strictly rising: sorted, no repeats. -/
abbrev Rising (m : List (Nat × α)) : Prop := m.Pairwise (fun p q => p.1 < q.1)

/-- The entry at an index, if it is listed. -/
def cellGet : List (Nat × α) → Nat → Option α
  | [], _ => none
  | (j, v) :: r, k => if j = k then some v else cellGet r k

/-- List a value at an index, replacing the entry that stands there. -/
def cellPut : List (Nat × α) → Nat → α → List (Nat × α)
  | [], k, v => [(k, v)]
  | (j, w) :: r, k, v =>
    if k < j then (k, v) :: (j, w) :: r
    else if j = k then (k, v) :: r
    else (j, w) :: cellPut r k v

/-- Unlist an index. -/
def cellErase : List (Nat × α) → Nat → List (Nat × α)
  | [], _ => []
  | (j, w) :: r, k => if j = k then r else (j, w) :: cellErase r k

/-- Every entry of the first store written over the second, both rising. -/
def cellOverlay : List (Nat × α) → List (Nat × α) → List (Nat × α)
  | [], old => old
  | (k, v) :: r, old =>
    old.takeWhile (fun c => decide (c.1 < k)) ++
      (k, v) :: cellOverlay r (old.dropWhile (fun c => decide (c.1 ≤ k)))

/-- What a port register that is not listed holds: its reset value (R43). -/
def Memory.unlisted : Byte := 0x00

/-- The byte at an address (R66). -/
def Memory.read (m : Memory) (a : Byte) : Byte := (cellGet m a.toNat).getD Memory.unlisted

/-- Store a byte, keeping the canonical form (R66). -/
def Memory.write (m : Memory) (a v : Byte) : Memory :=
  if v = Memory.unlisted then cellErase m a.toNat else cellPut m a.toNat v

/-- The canonical form of the PORT space. -/
abbrev Memory.wf (m : Memory) : Prop :=
  Rising m ∧ ∀ c ∈ m, c.1 < 256 ∧ c.2 ≠ Memory.unlisted

/-- The canonical form of an image of `size` pixels. -/
abbrev Image.wf (size : Nat) (m : Image) : Prop := Rising m ∧ ∀ c ∈ m, c.1 < size

end Sys2Proof.Machine
end

