-- ==== Sys2Proof/Machine/Operands.lean ====
section
/-! DEFINITION. Operand assembly: the split of a port address, pairs, pixels, coordinates, button ids,
and the lookups of the configuration's tables (spec 30_encoding R93, R96, R97; 20_memory R61, R62,
R69; 42_input_router R182 to R184; 41_screen_bridge R156, R162, R163). -/

namespace Sys2Proof.Machine

/-! Port addresses (R69, R96). -/

/-- Slot index: `addr[7:4]`. -/
def slotOf (addr : Byte) : Nibble := addr.extractLsb' 4 4

/-- Sub-register: `addr[3:0]`. -/
def subOf (addr : Byte) : Nibble := addr.extractLsb' 0 4

/-- The address of a sub-register of a slot: `16 × s + sub` (R22). -/
def portAddr (slot sub : Nibble) : Byte := slot ++ sub

/-- The sixteen addresses of a slot, lowest first (R22). -/
def slotAddrs (slot : Nibble) : List Byte :=
  (List.range 16).map fun sub => portAddr slot (BitVec.ofNat 4 sub)

/-- `{hi, lo}`: a big-endian pair (R61). -/
def pairOf (hi lo : Byte) : Half := hi ++ lo

/-- The byte of a 16-bit value that stands at the lower address (R61). -/
def highByte (v : Half) : Byte := v.extractLsb' 8 8

/-- The byte of a 16-bit value that stands at the higher address (R61). -/
def lowByte (v : Half) : Byte := v.extractLsb' 0 8

/-! Pixels (R62, R93). -/

/-- The pixel carried by a 32-bit number `{c3, c2, c1, c0}`. -/
def pixelOfWord (px : Word) : Pixel where
  c0 := px.extractLsb' 0 8
  c1 := px.extractLsb' 8 8
  c2 := px.extractLsb' 16 8
  c3 := px.extractLsb' 24 8

/-- A pixel as a 32-bit number. -/
def wordOfPixel (p : Pixel) : Word := p.c3 ++ p.c2 ++ p.c1 ++ p.c0

/-- The channel permutation of BLIT: blue, green, red, alpha to red, green, blue, alpha (R156). -/
def permute (p : Pixel) : Pixel where
  c0 := p.c2
  c1 := p.c1
  c2 := p.c0
  c3 := p.c3

/-! Coordinates (R93, R182). -/

/-- `clamp(v, 0, hi)` on mathematical integers. -/
def clampTo (v : Int) (hi : Nat) : Nat :=
  if v < 0 then 0 else if (hi : Int) < v then hi else v.toNat

/-- A host coordinate, two's complement, clamped to a side of the framebuffer. -/
def clampCoord (v : Word) (side : Half) : Half := BitVec.ofNat 16 (clampTo v.toInt side.toNat)

/-! Lookups of the configuration. -/

/-- SLOT_KIND[s] (R70). -/
def slotKind (c : Config) (slot : Nibble) : SlotKind := c.slots.getD slot.toNat .none

/-- The screen slot: the slot of the screen vector pair (R126). -/
def screenSlot (c : Config) : Nibble := slotOf c.scrVecAddr

/-- BtnMask(n) of device button number `n`, counted from 1 (R184). -/
def btnMask (c : Config) (n : Nat) : Byte := c.btnMask.getD (n - 1) 0

/-- Device button number of a host button id (R97, R183). -/
def buttonNumber (id : Word) : Nat := id.toNat + 1

/-- An address is a system palette sub-register (R25, R125 step 3). -/
def isPaletteAddr (c : Config) (addr : Byte) : Bool :=
  slotOf addr == c.sysSlot && decide (c.palLo ≤ (subOf addr).toNat) &&
    decide ((subOf addr).toNat ≤ c.palHi)

/-- Byte `i` of a slot's sixteen. -/
def sysByte (sys : List Byte) (i : Nat) : Byte := sys.getD i 0

/-- One channel of entry `k` of the reference palette: nibble `k` of a 16-bit word counted from the
top, widened by repeating it (R163). -/
def paletteChannel (v : Half) (k : Nat) : Byte := ((v >>> (12 - 4 * k)) &&& 0xF).setWidth 8 * 0x11

/-- Entry `k` of the reference PaletteFn (R163). -/
def referenceColour (sys : List Byte) (k : Nat) : Pixel where
  c0 := paletteChannel (pairOf (sysByte sys 12) (sysByte sys 13)) k
  c1 := paletteChannel (pairOf (sysByte sys 10) (sysByte sys 11)) k
  c2 := paletteChannel (pairOf (sysByte sys 8) (sysByte sys 9)) k
  c3 := 0xFF

/-- PaletteFn of the system slot's sixteen bytes (R162). -/
def paletteOf (c : Config) (sys : List Byte) : List Pixel :=
  match c.paletteFn with
  | .reference => (List.range c.ncol).map (referenceColour sys)
  | .external => (List.range c.ncol).map (Config.externalPalette sys)

/-- The constraints of 00_scope R9 on the parameters, and what the model's widths and tables need:
sides of 16 bits, sixteen slots, a button byte of at most eight buttons (R33), a palette with
an entry 0, the reference PaletteFn only with its four entries (R163). -/
abbrev configOk (c : Config) : Prop :=
  (0 < c.cell ∧ c.maxW % c.cell = 0 ∧ c.maxH % c.cell = 0 ∧
    c.bootW % c.cell = 0 ∧ c.bootH % c.cell = 0 ∧ c.bootW ≤ c.maxW ∧ c.bootH ≤ c.maxH ∧
    c.maxW < 2 ^ 16 ∧ c.maxH < 2 ^ 16 ∧ c.maxW * c.maxH * 4 ≤ 2 ^ 32) ∧
  (c.slots.length = 16 ∧ slotKind c c.sysSlot ≠ .none ∧ slotKind c c.sysSlot ≠ .stub) ∧
  (c.palLo ≤ 8 ∧ 8 ≤ c.palHi ∧ c.palHi ≤ 15) ∧
  (0 < c.ncol ∧ (c.paletteFn = .reference → c.ncol = 4)) ∧
  (c.scrVecAddr ≤ 0xFE ∧ c.mouseXAddr ≤ 0xFE ∧ c.mouseYAddr ≤ 0xFE) ∧
  [c.mouseXAddr, c.mouseXAddr + 1, c.mouseYAddr, c.mouseYAddr + 1, c.mouseStateAddr].Nodup ∧
  (2 ≤ c.nbtn ∧ c.nbtn ≤ 8 ∧ c.btnMask.length = c.nbtn ∧ btnMask c 1 = 0x01 ∧ btnMask c 2 = 0x02)

end Sys2Proof.Machine
end

