-- ==== Sys2Proof/Machine/Flags.lean ====
section
/-! DEFINITION. The flags of the block: RZ, SD, the REFUSED mark and the button bits (spec 10_state
R33 to R35, 00_scope R13, 42_input_router R184, R185). -/

namespace Sys2Proof.Machine

/-- RZ <- 1: RNOTE and a RESIZE that changes the size (R158, R152). -/
def setResizePending (s : State) : State := { s with rz := true }

/-- RZ <- 0: GEOM (R160). -/
def clearResizePending (s : State) : State := { s with rz := false }

/-- SD <- 1: STOP (R214). -/
def setShutdown (s : State) : State := { s with sd := true }

/-- REFUSED <- 1 (R13); nothing clears it. -/
def setRefused (s : State) : State := { s with refused := true }

/-- PS_BTN with a mask's buttons held (R184). -/
def heldWith (btn m : Byte) : Byte := btn ||| m

/-- PS_BTN with a mask's buttons let go (R185). -/
def heldWithout (btn m : Byte) : Byte := btn &&& ~~~m

end Sys2Proof.Machine
end

