-- ==== Sys2Proof/Machine/Ops.lean ====
section
/-! DEFINITION. The named operations over the state: the access primitives of 00_scope R11, raising a
condition (60_exceptions R230), refusing (R13), the vector call and its return (R239, R241), the
framebuffer's resize and write, and the screen bridge's geometry and conversion. -/

namespace Sys2Proof.Machine

/-! What the observer is handed. -/

/-- Hand the observer an event; no state of R20 changes. -/
def emit (e : Event) (s : State) : State := { s with log := s.log ++ [e] }

/-- `trace(rec)`: a diagnostic record, only if TRACE_EN (R127, R245). -/
def trace (r : TraceRec) (s : State) : State := if s.cfg.traceEn then emit (.trace r) s else s

/-- `raise X<n>(info)`: the condition is recorded for the observer; nothing is saved, no control is
transferred, and what else changes is said by the rule that raises it (R230, R243). -/
def raise (x : XCond) (s : State) : State := emit (.raised x) s

/-- `refuse(reason)`: no state changes but the mark (R13). -/
def refuse (r : RefuseReason) (s : State) : State := emit (.refusal r) (setRefused s)

/-- `PH <- phase` (R38). -/
def setPhase (p : Phase) (s : State) : State := emit (.phase p) { s with ph := p }

/-! The port register file (R21, R61, R66). -/

/-- `RF[a]`. -/
def rfRead (s : State) (a : Byte) : Byte := s.rf.read a

/-- `RF[a] <- v`, one atomic event. -/
def rfWrite (s : State) (a v : Byte) : State := { s with rf := s.rf.write a v }

/-- The sixteen raw bytes of a slot, sub-register 0 first (R22). -/
def slotBytes (s : State) (slot : Nibble) : List Byte := (slotAddrs slot).map (rfRead s)

/-! The framebuffer and the staging image (R30, R31). -/

/-- The number of pixels of FB (R30). -/
def fbSize (s : State) : Nat := s.fbW.toNat * s.fbH.toNat

/-- `FB[i]`: the pixel written since the allocation, else a draw (R30, R152). -/
def fbRead (s : State) (i : Nat) : Pixel := (cellGet s.fb i).getD (Config.drawFb s.fbGen i)

/-- `FB[i] <- p`. -/
def fbWrite (s : State) (i : Nat) (p : Pixel) : State := { s with fb := cellPut s.fb i p }

/-- `ST[j]`: the pixel written since the creation, else a draw (R31, R210). -/
def stRead (s : State) (j : Nat) : Pixel := (cellGet s.st j).getD (Config.drawSt s.stGen j)

/-- Index of pixel (x, y) of FB (R30). -/
def fbIndex (s : State) (x y : Nat) : Nat := y * s.fbW.toNat + x

/-- Index of pixel (x, y) of ST: the stride is always the capacity's width (R31). -/
def stIndex (c : Config) (x y : Nat) : Nat := y * c.maxW + x

/-! RESIZE and FBWR (R150 to R154), shared by the transactions and by the screen handler. -/

/-- The size changes: both registers in one step, FB reallocated with unspecified contents, RZ set;
the reference screen handler's index plane is created anew (R152, R157). -/
def reallocate (w h : Nat) (s : State) : State :=
  setResizePending
    { s with
      fbW := BitVec.ofNat 16 w
      fbH := BitVec.ofNat 16 h
      fb := []
      fbGen := s.fbGen + 1
      idx := [] }

/-- RESIZE after the capacity step: refuse a size that is no multiple of CELL, leave everything alone
if the size is the current one, else reallocate (R150, R153). -/
def resizeTo (w h : Nat) (s : State) : State :=
  if w % s.cfg.cell ≠ 0 ∨ h % s.cfg.cell ≠ 0 then refuse .resizeNotCellMultiple s
  else if w = s.fbW.toNat ∧ h = s.fbH.toNat then s
  else reallocate w h s

/-- A request is above the staging image's capacity (R151). -/
abbrev overCapacity (c : Config) (w h : Word) : Prop := c.maxW < w.toNat ∨ c.maxH < h.toNat

/-- RESIZE (R150). -/
def resizeFb (w h : Word) (s : State) : State :=
  match s.cfg.resizePolicy with
  | .clamp =>
    resizeTo (min w.toNat s.cfg.maxW) (min h.toNat s.cfg.maxH)
      (if overCapacity s.cfg w h then raise (.resizeOverCapacity w h) s else s)
  | .reject =>
    if overCapacity s.cfg w h then raise (.resizeOverCapacity w h) s
    else resizeTo w.toNat h.toNat s

/-- FBWR: write one whole pixel, refused outside the framebuffer (R154). -/
def writePixel (i px : Word) (s : State) : State :=
  if fbSize s ≤ i.toNat then refuse .fbwrOutOfRange s
  else fbWrite s i.toNat (pixelOfWord px)

/-! BLIT and GEOM (R156, R160). -/

/-- What BLIT writes: for every pixel (x, y) of FB its permutation, at its index in ST, rows in rising
order and pixels in rising order within a row (R156). -/
def blitCells (s : State) : Image :=
  (List.range s.fbH.toNat).flatMap fun y =>
    (List.range s.fbW.toNat).map fun x =>
      (stIndex s.cfg x y, permute (fbRead s (fbIndex s x y)))

/-- BLIT: the valid region of ST is the permuted framebuffer, the rest is as it was (R156). -/
def convert (s : State) : State := { s with st := cellOverlay (blitCells s) s.st }

/-- GEOM's test, four register writes and clear: one atomic step (R77, R160). -/
def deriveGeometry (s : State) : State :=
  if s.rz then
    clearResizePending { s with qw := s.fbW, qh := s.fbH, un := s.fbW, vn := s.fbH }
  else s

/-- The staging image is created anew: every pixel is a draw (R210). -/
def recreateStaging (s : State) : State := { s with st := [], stGen := s.stGen + 1 }

/-- `FrameOutput(QW, QH, UN, VN, img)` of the current state (R208). -/
def frameOutput (s : State) : FrameOutput where
  qw := s.qw
  qh := s.qh
  un := s.un
  vn := s.vn
  img := (List.range s.vn.toNat).map fun y =>
    (List.range s.un.toNat).map fun x => stRead s (stIndex s.cfg x y)

/-! The vector call (R239 to R241). -/

/-- `evaluate(machineState, entryAddress)` is called: nothing is saved and nothing masked; from here
the transactions of the trace are nested (R204, R239). -/
def callEvaluate (entry : Half) (s : State) : State :=
  emit (.evaluate entry) { s with evaluating := true }

/-- The evaluation returns: nothing is restored, because nothing was saved (R241). -/
def returnEvaluate (s : State) : State := { s with evaluating := false }

/-! The display (R36, R161). -/

/-- U = UN / MAXW, an exact rational. -/
def extentU (s : State) : ℚ := (s.un.toNat : ℚ) / (s.cfg.maxW : ℚ)

/-- V = VN / MAXH, an exact rational. -/
def extentV (s : State) : ℚ := (s.vn.toNat : ℚ) / (s.cfg.maxH : ℚ)

/-- The index in ST the presenter samples for texture coordinates (u, v) (R161). -/
def sampleIndex (c : Config) (u v : ℚ) : Nat :=
  stIndex c (u * (c.maxW : ℚ)).floor.toNat (v * (c.maxH : ℚ)).floor.toNat

end Sys2Proof.Machine
end

