-- ==== Sys2Proof/Machine/Fetch.lean ====
section
/-! DEFINITION. Taking the next descriptor from the trace (spec 30_encoding R91, R98, R99). -/

namespace Sys2Proof.Machine

/-- What stands at the head of the trace. -/
inductive Fetched where
  /-- A transaction, and the state with its nine bytes consumed. -/
  | transaction (i : Instr) (s : State)
  /-- A reserved descriptor, consumed and refused (R98). -/
  | reserved (s : State)
  /-- No whole descriptor. -/
  | stuck (f : Fault)
  deriving DecidableEq, Repr

/-- The state with the nine bytes of a descriptor consumed (R99). -/
def advance (s : State) : State := { s with input := s.input.drop 9 }

/-- Take the descriptor at the head of the trace. -/
def fetch (s : State) : Fetched :=
  match decode s.input with
  | .ok i rest => .transaction i { s with input := rest }
  | .reject .truncated => .stuck (if s.input = [] then .noTransaction else .truncatedTrace)
  | .reject .reservedOp => .reserved (refuse (.reservedDescriptor .reservedOp) (advance s))
  | .reject .nonzeroMbz => .reserved (refuse (.reservedDescriptor .nonzeroMbz) (advance s))
  | .reject .contradictoryAnswers =>
    .reserved (refuse (.reservedDescriptor .contradictoryAnswers) (advance s))

/-- Put a descriptor, given as the opcode table numbers its bits, at the head of the trace. -/
def placeWord (s : State) (nbits w : Nat) : State :=
  { s with input := (tableDescriptor nbits w).bytes ++ s.input }

end Sys2Proof.Machine
end

