-- ==== Sys2Proof/Machine/Host.lean ====
section
/-! DEFINITION. The HOST agent's atomic steps, and the points at which they may take effect between
the steps of SEQ (spec 00_scope R14, 20_memory R68, R74, R75; U18). -/

namespace Sys2Proof.Machine

/-- The effect of one atomic HOST step (R180, R184, R185, R158, R214).  The stores are push writes and
never read the register they write (R186). -/
def hostStep (h : HostStep) (s : State) : State :=
  match h with
  | .moveTo x y => { s with psX := clampCoord x s.fbW, psY := clampCoord y s.fbH }
  | .storeXHigh => rfWrite s s.cfg.mouseXAddr (highByte s.psX)
  | .storeXLow => rfWrite s (s.cfg.mouseXAddr + 1) (lowByte s.psX)
  | .storeYHigh => rfWrite s s.cfg.mouseYAddr (highByte s.psY)
  | .storeYLow => rfWrite s (s.cfg.mouseYAddr + 1) (lowByte s.psY)
  | .press m => { s with psBtn := heldWith s.psBtn m }
  | .release m => { s with psBtn := heldWithout s.psBtn m }
  | .storeButtons => rfWrite s s.cfg.mouseStateAddr s.psBtn
  | .noteResize => setResizePending s
  | .requestStop => setShutdown s

/-- Run the `k` oldest pending HOST steps, fewer if fewer are pending. -/
def runHost : Nat → State → State
  | 0, s => s
  | k + 1, s =>
    match s.hostTodo with
    | [] => s
    | h :: rest => runHost k (hostStep h { s with hostTodo := rest })

/-- A point where HOST may step: with steps pending, the schedule says how many take effect here; with
the schedule used up, all of them. -/
def poll (s : State) : State :=
  match s.hostTodo with
  | [] => s
  | _ :: _ =>
    match s.sched with
    | [] => runHost s.hostTodo.length s
    | k :: ks => runHost k { s with sched := ks }

/-- A HOST transaction is issued: its steps go behind those still pending, and HOST may step
(R75). -/
def issueHost (steps : List HostStep) (s : State) : State :=
  poll { s with hostTodo := s.hostTodo ++ steps }

end Sys2Proof.Machine
end

