-- ==== Sys2Proof/Machine/Admission.lean ====
section
/-! DEFINITION. Who issues a transaction and where it is admitted (spec 30_encoding R94,
43_frame_sequencer R215). -/

namespace Sys2Proof.Machine

/-- The agent that issues a transaction (R94). -/
def issuer : Instr → Agent
  | .pin _ => .seq
  | .pout _ _ => .seq
  | .push _ _ => .seq
  | .peek _ => .seq
  | .resize _ _ => .seq
  | .fbwr _ _ => .seq
  | .blit => .seq
  | .rnote => .host
  | .geom => .seq
  | .pmove _ _ => .host
  | .bdown _ => .host
  | .bup _ => .host
  | .boot _ _ _ => .seq
  | .frame _ _ _ => .seq
  | .stop => .host

/-- The phases at the top level in which a test bench may act: BOOT and IDLE (R215). -/
abbrev benchPhase (s : State) : Prop := s.cfg.bench = true ∧ (s.ph = .boot ∨ s.ph = .idle)

/-- PIN, POUT, PUSH, PEEK, RESIZE, FBWR: nested in an evaluation, or driven by a test bench (R215). -/
abbrev evaluationAdmits (s : State) : Prop :=
  (s.evaluating = true ∧ (s.ph = .boot ∨ s.ph = .exec)) ∨ (s.evaluating = false ∧ benchPhase s)

/-- BLIT, GEOM as transactions of their own: only a test bench issues them (R215, R99). -/
abbrev benchAdmits (s : State) : Prop := s.evaluating = false ∧ benchPhase s

/-- PMOVE, BDOWN, BUP, RNOTE, STOP: at any time until the run has ended (R215). -/
abbrev hostAdmits (s : State) : Prop := s.ph ≠ .stopped ∧ s.ph ≠ .fatal

/-- A transaction where the admission table admits it, refused elsewhere (R13, R215). -/
def admitted (ok : Bool) (run : State → State) (s : State) : State :=
  if ok then run s else refuse .notAdmitted s

end Sys2Proof.Machine
end

