-- ==== Sys2Proof/Machine/InputRouter.lean ====
section
/-! DEFINITION. The input transactions PMOVE, BDOWN, BUP (spec 42_input_router R180 to R188). -/

namespace Sys2Proof.Machine

/-- The five atomic steps of PMOVE, in their order (R180). -/
def moveSteps (x y : Word) : List HostStep :=
  [.moveTo x y, .storeXHigh, .storeXLow, .storeYHigh, .storeYLow]

/-- The steps of BDOWN; none for an id the block does not represent (R183, R184). -/
def pressSteps (c : Config) (id : Word) : List HostStep :=
  if c.nbtn ≤ id.toNat then [] else [.press (btnMask c (buttonNumber id)), .storeButtons]

/-- The steps of BUP; none for an id the block does not represent (R183, R185). -/
def releaseSteps (c : Config) (id : Word) : List HostStep :=
  if c.nbtn ≤ id.toNat then [] else [.release (btnMask c (buttonNumber id)), .storeButtons]

/-- PMOVE (R180). -/
def runPmove (x y : Word) (s : State) : State :=
  admitted (decide (hostAdmits s)) (issueHost (moveSteps x y)) s

/-- BDOWN (R184). -/
def runBdown (id : Word) (s : State) : State :=
  admitted (decide (hostAdmits s)) (issueHost (pressSteps s.cfg id)) s

/-- BUP (R185). -/
def runBup (id : Word) (s : State) : State :=
  admitted (decide (hostAdmits s)) (issueHost (releaseSteps s.cfg id)) s

def execPmove (x y : Word) (s : State) : Host.Outcome State Fault Refusal := .next (runPmove x y s)

def execBdown (id : Word) (s : State) : Host.Outcome State Fault Refusal := .next (runBdown id s)

def execBup (id : Word) (s : State) : Host.Outcome State Fault Refusal := .next (runBup id s)

end Sys2Proof.Machine
end

