-- ==== Sys2Proof/Machine/Handlers.lean ====
section
/-! DEFINITION. Calling a device handler (spec 40_port_dispatch R121) and the palette recompute
(R126). -/

namespace Sys2Proof.Machine

/-- Entry `i` of the reference screen handler's index plane (R157). -/
def idxRead (s : State) (i : Nat) : Nat := (cellGet s.idx i).getD 0

/-- The internal state of a slot's external handler. -/
def hstateRead (s : State) (slot : Nibble) : Nat := (cellGet s.hstate slot.toNat).getD 0

/-- Store the internal state of a slot's external handler. -/
def hstateWrite (slot : Nibble) (v : Nat) (s : State) : State :=
  { s with hstate := if v = 0 then cellErase s.hstate slot.toNat else cellPut s.hstate slot.toNat v }

/-- What the reference screen handler issues on `palette`: FBWR(i, PAL[IDX[i]]) for every i (R157). -/
def rerender (s : State) (pal : List Pixel) : List FbOp :=
  (List.range (fbSize s)).map fun i =>
    .fbwr (BitVec.ofNat 32 i) (wordOfPixel (pal.getD (idxRead s i) default))

/-- What a handler answers (R121): `H_RAW` reads back the stored byte; so does the reference screen
handler, which renders anew on `palette` (R157); an external handler's answer is a free value. -/
def handlerAnswer (h : Handler) (slot : Nibble) (call : HandlerCall) (s : State) : HandlerAnswer :=
  match h, call with
  | .external, _ => Config.externalHandler slot (hstateRead s slot) (slotBytes s slot) call
  | .raw, .read addr => ⟨0, rfRead s addr, [], []⟩
  | .raw, .write _ _ => ⟨0, 0, [], []⟩
  | .raw, .palette _ => ⟨0, 0, [], []⟩
  | .refScreen, .read addr => ⟨0, rfRead s addr, [], []⟩
  | .refScreen, .write _ _ => ⟨0, 0, [], []⟩
  | .refScreen, .palette pal => ⟨0, 0, [], rerender s pal⟩

/-- The slot-local writes of a handler, push writes into its own slot, HOST free to step before each
(R121 (1), R128). -/
def applyPushes (slot : Nibble) : List (Nibble × Byte) → State → State
  | [], s => s
  | (sub, v) :: rest, s => applyPushes slot rest (rfWrite (poll s) (portAddr slot sub) v)

/-- One framebuffer operation of a handler: the screen handler's has its effect, any other handler's
is outside the contract (R121 (3), U17). -/
def handlerFbOp (slot : Nibble) (op : FbOp) (s : State) : State :=
  if slot = screenSlot s.cfg then
    match op with
    | .fbwr i px => writePixel i px s
    | .resize w h => resizeFb w h s
  else refuse .handlerOutsideContract s

/-- The framebuffer operations of a handler, in order. -/
def applyFbOps (slot : Nibble) : List FbOp → State → State
  | [], s => s
  | op :: rest, s => applyFbOps slot rest (handlerFbOp slot op (poll s))

/-- An external handler's new internal state (R121 (2)); the other two keep none here, the reference
screen handler's being the index plane. -/
def keepHandlerState (h : Handler) (slot : Nibble) (v : Nat) (s : State) : State :=
  match h with
  | .raw => s
  | .refScreen => s
  | .external => hstateWrite slot v s

/-- Everything an answer does to the block: the handler's own state, its pushes, its framebuffer
operations (R121). -/
def applyAnswer (h : Handler) (slot : Nibble) (ans : HandlerAnswer) (s : State) : State :=
  applyFbOps slot ans.fbOps (applyPushes slot ans.pushes (keepHandlerState h slot ans.hstate s))

/-- A handler's entry point runs; the byte is what `read` answers (R121). -/
def callHandler (h : Handler) (slot : Nibble) (call : HandlerCall) (s : State) : State × Byte :=
  (applyAnswer h slot (handlerAnswer h slot call s) (emit (.handler slot call) s),
    (handlerAnswer h slot call s).result)

/-- Raw byte reads, one after another, HOST free to step after each (R14, R126). -/
def readBytes : List Byte → State → List Byte × State
  | [], s => ([], s)
  | a :: rest, s =>
    let r := readBytes rest (poll s)
    (rfRead s a :: r.1, r.2)

/-- The screen handler is told of the new palette, if the screen slot has a handler (R126). -/
def tellScreen (pal : List Pixel) (s : State) : State :=
  match slotKind s.cfg (screenSlot s.cfg) with
  | .device h => (callHandler h (screenSlot s.cfg) (.palette pal) s).1
  | .stub => s
  | .none => s

/-- PAL <- PaletteFn of the sixteen bytes read (R126). -/
def refreshPalette (sys : List Byte) (s : State) : State :=
  { s with pal := paletteOf s.cfg sys }

/-- PaletteRecompute (R126). -/
def paletteRecompute (s : State) : State :=
  let r := readBytes (slotAddrs s.cfg.sysSlot) s
  let t := refreshPalette r.1 r.2
  tellScreen t.pal (poll t)

end Sys2Proof.Machine
end

