-- ==== Sys2Proof/Machine/PortDispatch.lean ====
section
/-! DEFINITION. The port transactions PIN, POUT, PUSH, PEEK (spec 40_port_dispatch R120 to R131). -/

namespace Sys2Proof.Machine

/-- PIN (R122): the handler answers, given the full address; a STUB slot reads as zero and leaves a
trace record; a NONE slot reads as the raw byte. -/
def portIn (addr : Byte) (s : State) : State :=
  match slotKind s.cfg (slotOf addr) with
  | .device h =>
    let r := callHandler h (slotOf addr) (.read addr) s
    emit (.result r.2) r.1
  | .stub => emit (.result 0x00) (trace (.read addr) s)
  | .none => emit (.result (rfRead s addr)) s

/-- POUT step 2, domain dispatch (R125): the handler is given the sub-register; a slot without a
device leaves a trace record. -/
def dispatchWrite (addr val : Byte) (s : State) : State :=
  match slotKind s.cfg (slotOf addr) with
  | .device h => (callHandler h (slotOf addr) (.write (subOf addr) val) s).1
  | .stub => trace (.write addr val) s
  | .none => trace (.write addr val) s

/-- POUT (R125): store the byte, dispatch, refresh the palette, in that order; HOST may step before
each of the three. -/
def portOut (addr val : Byte) (s : State) : State :=
  let s1 := rfWrite (poll s) addr val
  let s2 := dispatchWrite addr val (poll s1)
  if isPaletteAddr s2.cfg addr then paletteRecompute (poll s2) else s2

/-- PIN (R122). -/
def runPin (addr : Byte) (s : State) : State :=
  admitted (decide (evaluationAdmits s)) (fun s => portIn addr (poll s)) s

/-- POUT (R125). -/
def runPout (addr val : Byte) (s : State) : State :=
  admitted (decide (evaluationAdmits s)) (portOut addr val) s

/-- PUSH (R128): the raw store and nothing else. -/
def runPush (addr val : Byte) (s : State) : State :=
  admitted (decide (evaluationAdmits s)) (fun s => rfWrite (poll s) addr val) s

/-- PEEK (R129): the raw byte. -/
def runPeek (addr : Byte) (s : State) : State :=
  admitted (decide (evaluationAdmits s)) (fun s => emit (.result (rfRead (poll s) addr)) (poll s)) s

def execPin (addr : Byte) (s : State) : Host.Outcome State Fault Refusal := .next (runPin addr s)

def execPout (addr val : Byte) (s : State) : Host.Outcome State Fault Refusal :=
  .next (runPout addr val s)

def execPush (addr val : Byte) (s : State) : Host.Outcome State Fault Refusal :=
  .next (runPush addr val s)

def execPeek (addr : Byte) (s : State) : Host.Outcome State Fault Refusal := .next (runPeek addr s)

end Sys2Proof.Machine
end

