-- ==== Sys2Proof/Machine/ScreenBridge.lean ====
section
/-! DEFINITION. The screen bridge transactions RESIZE, FBWR, BLIT, RNOTE, GEOM (spec 41_screen_bridge
R150 to R161). -/

namespace Sys2Proof.Machine

/-- RESIZE (R150). -/
def runResize (w h : Word) (s : State) : State :=
  admitted (decide (evaluationAdmits s)) (fun s => resizeFb w h (poll s)) s

/-- FBWR (R154). -/
def runFbwr (i px : Word) (s : State) : State :=
  admitted (decide (evaluationAdmits s)) (fun s => writePixel i px (poll s)) s

/-- BLIT as a transaction of its own (R156). -/
def runBlit (s : State) : State :=
  admitted (decide (benchAdmits s)) (fun s => convert (poll s)) s

/-- RNOTE (R158). -/
def runRnote (s : State) : State :=
  admitted (decide (hostAdmits s)) (issueHost [.noteResize]) s

/-- GEOM as a transaction of its own (R160). -/
def runGeom (s : State) : State :=
  admitted (decide (benchAdmits s)) (fun s => deriveGeometry (poll s)) s

def execResize (w h : Word) (s : State) : Host.Outcome State Fault Refusal :=
  .next (runResize w h s)

def execFbwr (i px : Word) (s : State) : Host.Outcome State Fault Refusal := .next (runFbwr i px s)

def execBlit (s : State) : Host.Outcome State Fault Refusal := .next (runBlit s)

def execRnote (s : State) : Host.Outcome State Fault Refusal := .next (runRnote s)

def execGeom (s : State) : Host.Outcome State Fault Refusal := .next (runGeom s)

end Sys2Proof.Machine
end

