-- ==== Sys2Proof/Machine/Sequencer.lean ====
section
/-! DEFINITION. The sequencer transactions BOOT, FRAME, STOP (spec 43_frame_sequencer R200 to R216). -/

namespace Sys2Proof.Machine

/-- STOP (R214). -/
def runStop (s : State) : State :=
  admitted (decide (hostAdmits s)) (issueHost [.requestStop]) s

/-- A transaction nested in an evaluation (R99, R204).  BLIT and GEOM are refused by their own
admission; BOOT and FRAME do not nest. -/
def runNested (i : Instr) (s : State) : State :=
  match i with
  | .pin addr => runPin addr s
  | .pout addr val => runPout addr val s
  | .push addr val => runPush addr val s
  | .peek addr => runPeek addr s
  | .resize w h => runResize w h s
  | .fbwr i px => runFbwr i px s
  | .blit => runBlit s
  | .rnote => runRnote s
  | .geom => runGeom s
  | .pmove x y => runPmove x y s
  | .bdown id => runBdown id s
  | .bup id => runBup id s
  | .boot _ _ _ => refuse .nestedSequencer s
  | .frame _ _ _ => refuse .nestedSequencer s
  | .stop => runStop s

/-- The next descriptor of the trace, nested (R99). -/
def nestedStep (s : State) : State :=
  match fetch s with
  | .transaction i t => runNested i t
  | .reserved t => t
  | .stuck _ => refuse .traceEndsInEvaluation s

/-- The `n` nested transactions of an evaluation, in the order they take effect (R99, R204). -/
def nestedSteps : Nat → State → State
  | 0, s => s
  | n + 1, s => nestedSteps n (nestedStep s)

/-- One evaluation: the call, the nested transactions, the return (R204, R239, R241).  HOST may step
before the return. -/
def evaluate (entry : Half) (n : Nat) (s : State) : State :=
  returnEvaluate (poll (nestedSteps n (callEvaluate entry s)))

/-- The trace holds `n` more descriptors (R99). -/
abbrev traceHolds (n : Nat) (s : State) : Prop := 9 * n ≤ s.input.length

/-- BOOT once it is admitted (R200, R201). -/
def bootSteps (loadFail evalFail : Bool) (n : Nat) (s : State) : State :=
  if loadFail then setPhase .fatal (raise .bootLoadFail s)
  else if evalFail then setPhase .fatal (raise .bootEvalFail (evaluate s.cfg.origin n s))
  else setPhase .idle (evaluate s.cfg.origin n s)

/-- BOOT (R200). -/
def runBoot (loadFail evalFail : Bool) (n : Word) (s : State) : State :=
  if s.evaluating then refuse .nestedSequencer s
  else if s.ph ≠ .boot then refuse .bootNotInBootPhase s
  else if ¬(Instr.boot loadFail evalFail n).wellFormed then
    refuse (.reservedDescriptor .contradictoryAnswers) s
  else if ¬traceHolds n.toNat s then refuse .traceEndsInEvaluation s
  else bootSteps loadFail evalFail n.toNat (poll s)

/-- T1: the screen vector is read raw, high byte first, and the machine is called (R203).  HOST may
step before each of the two byte reads and after them: the first of these points lies between the
loop top's look at SD (T0) and T1 (R14, R202). -/
def vectorCall (n : Nat) (s : State) : State × Half :=
  let r := poll s
  let hi := rfRead r r.cfg.scrVecAddr
  let t := poll r
  let vec := pairOf hi (rfRead t (t.cfg.scrVecAddr + 1))
  (evaluate vec n (setPhase .exec (poll t)), vec)

/-- T2 to T5: geometry, conversion, output, presentation (R205 to R210).  HOST may step before each
step. -/
def presentFrame (invalid : Bool) (s : State) : State :=
  let t := setPhase .upload (poll (deriveGeometry (poll s)))
  let r := setPhase .render (poll (convert (poll t)))
  let out := frameOutput r
  let p := poll (setPhase .present (poll r))
  if invalid then setPhase .idle (recreateStaging (raise .swapchainInvalidated p))
  else setPhase .idle (emit (.frame out) p)

/-- What follows an evaluation (R202, R211): X3 is raised on failure; under `skip` the frame then
ends, under `ignore` it goes on. -/
def afterEvaluation (evalFail invalid : Bool) (vec : Half) (s : State) : State :=
  if evalFail then
    match s.cfg.evalFailPolicy with
    | .skip => setPhase .idle (raise (.frameEvalFail vec) s)
    | .ignore => presentFrame invalid (raise (.frameEvalFail vec) s)
  else presentFrame invalid s

/-- FRAME's answers contradict one another (R98 (3)): an evaluation that failed under `skip` has no
presenter's answer. -/
abbrev frameAnswersClash (c : Config) (evalFail invalid : Bool) : Prop :=
  evalFail = true ∧ invalid = true ∧ c.evalFailPolicy = .skip

/-- FRAME once it is admitted: SD is looked at before anything else (R202, R212). -/
def frameSteps (evalFail invalid : Bool) (n : Word) (s : State) : State :=
  if s.sd then
    if evalFail ∨ invalid ∨ n ≠ 0 then refuse (.reservedDescriptor .contradictoryAnswers) s
    else setPhase .stopped s
  else if ¬traceHolds n.toNat s then refuse .traceEndsInEvaluation s
  else
    let r := vectorCall n.toNat s
    afterEvaluation evalFail invalid r.2 r.1

/-- FRAME (R202). -/
def runFrame (evalFail invalid : Bool) (n : Word) (s : State) : State :=
  if s.evaluating then refuse .nestedSequencer s
  else if s.ph ≠ .idle then refuse .frameNotInIdlePhase s
  else if frameAnswersClash s.cfg evalFail invalid then
    refuse (.reservedDescriptor .contradictoryAnswers) s
  else frameSteps evalFail invalid n (poll s)

def execStop (s : State) : Host.Outcome State Fault Refusal := .next (runStop s)

def execBoot (loadFail evalFail : Bool) (n : Word) (s : State) :
    Host.Outcome State Fault Refusal := .next (runBoot loadFail evalFail n s)

def execFrame (evalFail invalid : Bool) (n : Word) (s : State) :
    Host.Outcome State Fault Refusal := .next (runFrame evalFail invalid n s)

end Sys2Proof.Machine
end

