-- ==== Sys2Proof/Machine/Dispatch.lean ====
section
/-! DEFINITION. The one dispatch of the fifteen transactions, one arm each (spec 30_encoding R94). -/

namespace Sys2Proof.Machine

def exec (i : Instr) (s : State) : Host.Outcome State Fault Refusal :=
  match i with
  | .pin addr => Sys2Proof.Machine.execPin addr s
  | .pout addr val => Sys2Proof.Machine.execPout addr val s
  | .push addr val => Sys2Proof.Machine.execPush addr val s
  | .peek addr => Sys2Proof.Machine.execPeek addr s
  | .resize w h => Sys2Proof.Machine.execResize w h s
  | .fbwr j px => Sys2Proof.Machine.execFbwr j px s
  | .blit => Sys2Proof.Machine.execBlit s
  | .rnote => Sys2Proof.Machine.execRnote s
  | .geom => Sys2Proof.Machine.execGeom s
  | .pmove x y => Sys2Proof.Machine.execPmove x y s
  | .bdown id => Sys2Proof.Machine.execBdown id s
  | .bup id => Sys2Proof.Machine.execBup id s
  | .boot loadFail evalFail n => Sys2Proof.Machine.execBoot loadFail evalFail n s
  | .frame evalFail invalid n => Sys2Proof.Machine.execFrame evalFail invalid n s
  | .stop => Sys2Proof.Machine.execStop s

end Sys2Proof.Machine
end

