-- ==== Sys2Proof/Machine/Step.lean ====
section
/-! DEFINITION. One step of the machine: take the descriptor at the head of the trace and run its
transaction (spec 30_encoding R91, R98, R99). -/

namespace Sys2Proof.Machine

/-- One step. -/
def step (s : State) : Host.Outcome State Fault Refusal :=
  match fetch s with
  | .transaction i t => exec i t
  | .reserved t => .next t
  | .stuck f => .fault f

/-- The state in which the next step runs the transaction of a table word. -/
def State.withFetchWord (s : State) (nbits w : Nat) : State := placeWord s nbits w

end Sys2Proof.Machine
end

