-- ==== Sys2Proof/Safety.lean ====
section
/-! DEFINITION. The terms that claims about runs use: the state invariants of spec 10_state R41, the
end of a run (43_frame_sequencer R216), a run with no refusal (00_scope R13), and the two hypotheses
on HOST that a claim about one transaction may make. -/

namespace Sys2Proof.Machine

/-- R41 (I1): the framebuffer's sides are multiples of CELL within the capacity. -/
abbrev sizesOk (s : State) : Prop :=
  s.fbW.toNat % s.cfg.cell = 0 ∧ s.fbH.toNat % s.cfg.cell = 0 ∧
    s.fbW.toNat ≤ s.cfg.maxW ∧ s.fbH.toNat ≤ s.cfg.maxH

/-- R41 (I3). -/
abbrev pointerOk (s : State) : Prop :=
  s.psX.toNat ≤ s.cfg.maxW ∧ s.psY.toNat ≤ s.cfg.maxH

/-- R41 (I4), with RZ standing for "since the last GEOM that found RZ = 1 nothing has changed the
size": with RZ = 0 the geometry registers hold the framebuffer's size. -/
abbrev geometryFresh (s : State) : Prop :=
  s.rz = false → s.qw = s.fbW ∧ s.qh = s.fbH ∧ s.un = s.fbW ∧ s.vn = s.fbH

/-- Between transactions PH is BOOT, IDLE, STOPPED or FATAL, and BOOT or EXEC while an evaluation is
in progress (R38, R215). -/
abbrev phaseOk (s : State) : Prop :=
  (s.evaluating = true → s.ph = .boot ∨ s.ph = .exec) ∧
    (s.evaluating = false → s.ph = .boot ∨ s.ph = .idle ∨ s.ph = .stopped ∨ s.ph = .fatal)

/-- The state invariant: a legal configuration, R41 (I1) to (I4), the stores in canonical form and
within their bounds (I2), NCOL palette entries, index plane entries in 0..NCOL-1 (R157), a phase
a transaction may start in. -/
abbrev StateInv (s : State) : Prop :=
  configOk s.cfg ∧ Memory.wf s.rf ∧ sizesOk s ∧ Image.wf (fbSize s) s.fb ∧
    Image.wf (s.cfg.maxW * s.cfg.maxH) s.st ∧ s.pal.length = s.cfg.ncol ∧
    (Rising s.hstate ∧ Rising s.idx ∧ ∀ c ∈ s.idx, c.2 < s.cfg.ncol) ∧ pointerOk s ∧ geometryFresh s ∧ phaseOk s

/-- A run ends in STOPPED or FATAL (R216). -/
abbrev terminal (p : Phase) : Prop := p = .stopped ∨ p = .fatal

/-- No transaction of the run was refused (R13). -/
abbrev clean (s : State) : Prop := s.refused = false

/-- No HOST step is pending: SEQ runs with HOST silent. -/
abbrev quiet (s : State) : Prop := s.hostTodo = []

/-- No HOST step is pending and none is held back: a HOST transaction takes effect at once. -/
abbrev prompt (s : State) : Prop := s.hostTodo = [] ∧ s.sched = []

/-- The transactions other than BOOT and FRAME, which hold nested ones (R99). -/
abbrev simple (i : Instr) : Prop :=
  (∀ l e n, i ≠ .boot l e n) ∧ (∀ e v n, i ≠ .frame e v n)

/-- What a register of a slot holds after the pushes of its handler: the byte pushed to it last, else
what stood there (R121, R128). -/
def afterPushes (pushes : List (Nibble × Byte)) (sub : Nibble) (before : Byte) : Byte :=
  pushes.foldl (fun held p => if p.1 = sub then p.2 else held) before

/-- Transactions run one after another, in order, each by `exec` with its own nine bytes of the trace
consumed (R99); none if one of them does not answer a next state. -/
def execAll : List Instr → State → Option State
  | [], s => some s
  | i :: rest, s =>
    match exec i { s with input := s.input.drop 9 } with
    | .next t => execAll rest t
    | .fault _ => none
    | .refused _ => none

end Sys2Proof.Machine
end

