-- ==== Sys2Proof/Certificates/Slice0/Obligations.lean ====
section
/-! DEFINITION. The statements for the provers, from the numbered rules of spec/. -/

open Sys2Proof Sys2Proof.Machine

/-! Descriptors (30_encoding). -/

/-- Every well-formed transaction, with every operand at every value, is what its own nine bytes
decode to, and the bytes after them are left over. -/
def Obligations.DecodeInvertsEncode : Prop :=
  ∀ (i : Instr) (rest : List Byte), i.wellFormed = true →
    decode (encodeBytes i ++ rest) = .ok i rest

/-- Bytes that decode to a transaction are its encoding, and the transaction is well formed: a
transaction has one descriptor. -/
def Obligations.AcceptedBytesAreTheEncoding : Prop :=
  ∀ (bytes : List Byte) (i : Instr) (rest : List Byte), decode bytes = .ok i rest →
    bytes = encodeBytes i ++ rest ∧ i.wellFormed = true

/-- A descriptor is accepted exactly when it matches a row of the opcode table and is not a BOOT whose
answers contradict one another, and the transaction read is the matching row's.  That the decoder
accepts the FRAMEs that are reserved by the policy or by SD, which FRAME then refuses itself, is the
model's reading (DEDUCED, log 16). -/
def Obligations.DecodeAcceptsTheTableRows : Prop :=
  (∀ td : Descriptor, (∃ i, decodeDescriptor td = .ok i) ↔
    ((∃ r ∈ opcodeTable, r.matches td = true) ∧
      ¬(td.op = 0x0C ∧ td.a.getLsbD 0 = true ∧ (td.a.getLsbD 1 = true ∨ td.b ≠ 0)))) ∧
  (∀ (td : Descriptor) (i : Instr) (r : OpcodeRow), decodeDescriptor td = .ok i →
    r ∈ opcodeTable → r.matches td = true → r.mnemonic = i.mnemonic)

/-- No descriptor matches two rows of the opcode table. -/
def Obligations.OpcodeRowsAreDisjoint : Prop :=
  ∀ (td : Descriptor) (r q : OpcodeRow), r ∈ opcodeTable → q ∈ opcodeTable →
    r.matches td = true → q.matches td = true → r = q

/-- Descriptors that the spec writes out decode to the transactions it says they are. -/
def Obligations.WrittenOutWordsDecode : Prop :=
  decodeTableWord 72 0x00_0000007A_00000000 = some (.pin 0x7A) ∧
  decodeTableWord 72 0x01_00000008_0000000F = some (.pout 0x08 0x0F) ∧
  decodeTableWord 72 0x04_00000100_000000A0 = some (.resize 256 160) ∧
  decodeTableWord 72 0x09_FFFFFFF6_000003E8 = some (.pmove (-10) 1000) ∧
  decodeTableWord 72 0x0A_00000007_00000000 = some (.bdown 7) ∧
  decodeTableWord 72 0x0C_00000002_00000001 = some (.boot false true 1) ∧
  decodeTableWord 72 0x0D_00000001_00000000 = some (.frame true false 0) ∧
  decodeTableWord 72 0x0C_00000003_00000000 = none ∧
  decodeTableWord 72 0x0F_00000000_00000000 = none ∧
  decodeTableWord 72 0x00_0000017A_00000000 = none

/-- A step runs the transaction at the head of the trace, with its nine bytes consumed and nothing
else changed around it. -/
def Obligations.StepRunsTheDecodedTransaction : Prop :=
  ∀ (s : State) (i : Instr) (rest : List Byte), decode s.input = .ok i rest →
    rest = s.input.drop 9 ∧ step s = exec i { s with input := s.input.drop 9 }

/-- A reserved descriptor is consumed and refused: it changes no state and sets REFUSED.  That the
refusal is also handed to the observer is the model's choice (log 5). -/
def Obligations.StepRefusesAReservedDescriptor : Prop :=
  ∀ (s : State) (e : DecodeError), decode s.input = .reject e → e ≠ .truncated →
    step s = .next { s with
      input := s.input.drop 9
      refused := true
      log := s.log ++ [.refusal (.reservedDescriptor e)] }

/-- With no whole descriptor presented there is no step.  The two names of the stop are the model's
choice (log 6). -/
def Obligations.NoStepWithoutADescriptor : Prop :=
  ∀ s : State, s.input.length < 9 →
    step s = .fault (if s.input = [] then .noTransaction else .truncatedTrace)

/-! Reset and invariants (10_state). -/

/-- What reset leaves in the state that has a reset value, whatever the legal configuration; and what
it leaves unspecified is a draw.  How a draw is written is the model's choice (log 2). -/
def Obligations.ResetLeavesTheSpecValues : Prop :=
  ∀ c : Config, configOk c →
    (∀ a, rfRead (State.resetWith c) a = 0x00) ∧
    (State.resetWith c).fbW.toNat = c.bootW ∧ (State.resetWith c).fbH.toNat = c.bootH ∧
    (State.resetWith c).psX = 0 ∧ (State.resetWith c).psY = 0 ∧ (State.resetWith c).psBtn = 0 ∧
    (State.resetWith c).rz = true ∧ (State.resetWith c).sd = false ∧
    (State.resetWith c).ph = .boot ∧ (State.resetWith c).refused = false ∧
    (∀ i, fbRead (State.resetWith c) i = Config.drawFb 0 i) ∧
    (∀ j, stRead (State.resetWith c) j = Config.drawSt 0 j) ∧
    (∀ k, k < c.ncol → (State.resetWith c).pal[k]? = some (Config.drawPal k)) ∧
    (State.resetWith c).qw = Config.drawGeo 0 ∧ (State.resetWith c).qh = Config.drawGeo 1 ∧
    (State.resetWith c).un = Config.drawGeo 2 ∧ (State.resetWith c).vn = Config.drawGeo 3

/-- The state invariant holds after reset under every legal configuration, and the reference
configuration is legal. -/
def Obligations.InvariantHoldsAtReset : Prop :=
  (∀ c : Config, configOk c → StateInv (State.resetWith c)) ∧ configOk Config.ref

/-- Every step keeps the state invariant: the framebuffer's sides stay multiples of CELL within the
capacity, the stores stay in canonical form and in bounds, the pointer stays within the capacity, the
geometry is fresh whenever RZ is clear, and the phase is one a transaction may start in. -/
def Obligations.StepKeepsTheInvariant : Prop :=
  ∀ s t : State, StateInv s → step s = .next t → StateInv t

/-- Every step keeps the configuration, keeps SD and REFUSED once they are set, and only adds to what
the observer was handed. -/
def Obligations.StepKeepsConfigurationAndMarks : Prop :=
  ∀ s t : State, step s = .next t →
    t.cfg = s.cfg ∧ (s.sd = true → t.sd = true) ∧ (s.refused = true → t.refused = true) ∧
      s.log <+: t.log

/-! Port transactions (40_port_dispatch).  `poll s` is the state after the HOST steps that are due
when the transaction begins (log 3); with none pending it is `s`. -/

/-- PIN of a slot without a device answers: on a NONE slot the stored byte, on a STUB slot zero with
a trace record if TRACE_EN; it changes no state. -/
def Obligations.PinOfASlotWithoutADevice : Prop :=
  (∀ (s : State) (a : Byte), evaluationAdmits s → slotKind s.cfg (slotOf a) = .none →
    exec (.pin a) s = .next { poll s with log := s.log ++ [.result (rfRead (poll s) a)] }) ∧
  (∀ (s : State) (a : Byte), evaluationAdmits s → slotKind s.cfg (slotOf a) = .stub →
    exec (.pin a) s = .next { poll s with
      log := s.log ++ (if s.cfg.traceEn then [.trace (.read a)] else []) ++ [.result 0x00] })

/-- PIN of a slot with the test handler or the reference screen handler: the handler is given the full
address, answers the stored byte, and no state changes.  The two handlers are the spec's own. -/
def Obligations.PinOfADeviceThatReadsBack : Prop :=
  ∀ (s : State) (a : Byte) (h : Handler), evaluationAdmits s →
    slotKind s.cfg (slotOf a) = .device h → h ≠ .external →
    exec (.pin a) s = .next { poll s with
      log := s.log ++ [.handler (slotOf a) (.read a), .result (rfRead (poll s) a)] }

/-- PIN of a slot with any other handler answers the handler's byte, given the full address and the
slot's sixteen bytes.  A register of the slot then holds the byte the handler pushed to it last, else
what it held, and the handler's own state becomes what it answers.  No other slot's registers and no
other handler's state change, and the framebuffer only by the screen handler's operations.  All else
is as its framebuffer operations, in order, leave it: FBWR and RESIZE for the screen slot, the mark of a
refusal for any other. -/
def Obligations.PinOfAnExternalDevice : Prop :=
  ∀ (s : State) (a : Byte) (ans : HandlerAnswer), Memory.wf s.rf → Rising s.hstate → quiet s →
    evaluationAdmits s → slotKind s.cfg (slotOf a) = .device .external →
    ans = Config.externalHandler (slotOf a) (hstateRead s (slotOf a)) (slotBytes s (slotOf a))
      (.read a) →
    ∃ t mid, exec (.pin a) s = .next t ∧
      t.log = s.log ++ [.handler (slotOf a) (.read a)] ++ mid ++ [.result ans.result] ∧
      (∀ slot call, .handler slot call ∉ mid) ∧
      t = { s with
        rf := t.rf, fbW := t.fbW, fbH := t.fbH, fb := t.fb, fbGen := t.fbGen, rz := t.rz
        refused := t.refused, hstate := t.hstate, idx := t.idx, log := t.log } ∧
      (∀ b, slotOf b = slotOf a →
        rfRead t b = afterPushes ans.pushes (subOf b) (rfRead s b)) ∧
      (∀ b, slotOf b ≠ slotOf a → rfRead t b = rfRead s b) ∧
      (∀ slot, hstateRead t slot = if slot = slotOf a then ans.hstate else hstateRead s slot) ∧
      (ans.fbOps = [] → mid = [] ∧ t.refused = s.refused) ∧
      (slotOf a ≠ screenSlot s.cfg ∨ ans.fbOps = [] → t.fbW = s.fbW ∧ t.fbH = s.fbH ∧
        t.fb = s.fb ∧ t.fbGen = s.fbGen ∧ t.rz = s.rz ∧ t.idx = s.idx) ∧
      t = { applyFbOps (slotOf a) ans.fbOps s with
        rf := t.rf, hstate := t.hstate, log := t.log }

/-- POUT changes no register outside the addressed slot and, when the palette is refreshed, the screen
slot.  What it stores in the addressed slot is said by the statements below. -/
def Obligations.PoutConfinesHandlersToTheirSlots : Prop :=
  ∀ (s t : State) (a v b : Byte), quiet s → exec (.pout a v) s = .next t → b ≠ a →
    slotOf b ≠ slotOf a → (isPaletteAddr s.cfg a = true → slotOf b ≠ screenSlot s.cfg) →
    rfRead t b = rfRead s b

/-- POUT to a slot without a device stores the byte, leaves a trace record if TRACE_EN, and changes
nothing else. -/
def Obligations.PoutToASlotWithoutADevice : Prop :=
  ∀ (s : State) (a v : Byte), configOk s.cfg → Memory.wf s.rf → quiet s → evaluationAdmits s →
    (slotKind s.cfg (slotOf a) = .none ∨ slotKind s.cfg (slotOf a) = .stub) →
    ∃ t, exec (.pout a v) s = .next t ∧
      t = { s with
        rf := t.rf
        log := s.log ++ (if s.cfg.traceEn then [.trace (.write a v)] else []) } ∧
      ∀ b, rfRead t b = if b = a then v else rfRead s b

/-- POUT outside the palette range, to a slot with the test handler or the reference screen handler:
the byte is stored, the handler is given the sub-register, and nothing else changes.  That these two
handlers do nothing on a write is what the spec says of them. -/
def Obligations.PoutToADeviceThatReadsBack : Prop :=
  ∀ (s : State) (a v : Byte) (h : Handler), Memory.wf s.rf → quiet s → evaluationAdmits s →
    slotKind s.cfg (slotOf a) = .device h → h ≠ .external → isPaletteAddr s.cfg a = false →
    ∃ t, exec (.pout a v) s = .next t ∧
      t = { s with
        rf := t.rf
        log := s.log ++ [.handler (slotOf a) (.write (subOf a) v)] } ∧
      ∀ b, rfRead t b = if b = a then v else rfRead s b

/-- POUT outside the palette range to a slot with any other handler: the byte is stored, then the
handler is called once, with the sub-register, the slot's bytes as the store left them and its own
state, which becomes what it answers.  A register of the slot then holds the byte the handler pushed to
it last, else the stored byte at the address and the old byte elsewhere.  No other slot's registers and
no other handler's state change, and the framebuffer only by the screen handler's operations.  All else
is as its framebuffer operations, in order, leave it: FBWR and RESIZE for the screen slot, the mark of a
refusal for any other. -/
def Obligations.PoutToAnExternalDevice : Prop :=
  ∀ (s : State) (a v : Byte) (ans : HandlerAnswer), Memory.wf s.rf → Rising s.hstate → quiet s →
    evaluationAdmits s → slotKind s.cfg (slotOf a) = .device .external →
    isPaletteAddr s.cfg a = false →
    ans = Config.externalHandler (slotOf a) (hstateRead s (slotOf a))
      (slotBytes (rfWrite s a v) (slotOf a)) (.write (subOf a) v) →
    ∃ t mid, exec (.pout a v) s = .next t ∧
      t.log = s.log ++ [.handler (slotOf a) (.write (subOf a) v)] ++ mid ∧
      (∀ slot call, .handler slot call ∉ mid) ∧
      t = { s with
        rf := t.rf, fbW := t.fbW, fbH := t.fbH, fb := t.fb, fbGen := t.fbGen, rz := t.rz
        refused := t.refused, hstate := t.hstate, idx := t.idx, log := t.log } ∧
      (∀ b, slotOf b = slotOf a →
        rfRead t b = afterPushes ans.pushes (subOf b) (if b = a then v else rfRead s b)) ∧
      (∀ b, slotOf b ≠ slotOf a → rfRead t b = rfRead s b) ∧
      (∀ slot, hstateRead t slot = if slot = slotOf a then ans.hstate else hstateRead s slot) ∧
      (ans.fbOps = [] → mid = [] ∧ t.refused = s.refused) ∧
      (slotOf a ≠ screenSlot s.cfg ∨ ans.fbOps = [] → t.fbW = s.fbW ∧ t.fbH = s.fbH ∧
        t.fb = s.fb ∧ t.fbGen = s.fbGen ∧ t.rz = s.rz ∧ t.idx = s.idx) ∧
      t = { applyFbOps (slotOf a) ans.fbOps s with
        rf := t.rf, hstate := t.hstate, log := t.log }

/-- POUT to a palette sub-register, whatever the handlers: after the store and the dispatch PAL is
PaletteFn of the system slot's bytes as they then stand, and a screen handler is told.

What the registers of the system slot hold afterwards: with the test handler or the reference screen
handler in it, the stored byte at the address and the old bytes elsewhere; with any other handler, the
byte it pushed last on the write, else that.  The one slot may also be the screen slot: what its handler
pushes when it is told of the palette then comes on top, and the bytes it is given are those the palette
was computed from.  A screen handler in a slot of its own is given its slot's bytes and its own state,
and its pushes land in its slot. -/
def Obligations.PoutToAPaletteRegisterRefreshesPal : Prop :=
  (∀ (s : State) (a v : Byte), quiet s → evaluationAdmits s → isPaletteAddr s.cfg a = true →
    ∃ t, exec (.pout a v) s = .next t ∧
      t = { s with
        rf := t.rf, fbW := t.fbW, fbH := t.fbH, fb := t.fb, fbGen := t.fbGen, pal := t.pal
        rz := t.rz, refused := t.refused, hstate := t.hstate, idx := t.idx, log := t.log } ∧
      t.pal = paletteOf s.cfg (slotBytes (dispatchWrite a v (rfWrite s a v)) s.cfg.sysSlot) ∧
      ∀ h, slotKind s.cfg (screenSlot s.cfg) = .device h →
        .handler (screenSlot s.cfg) (.palette t.pal) ∈ t.log) ∧
  (∀ (s : State) (a v : Byte) (h : Handler), Memory.wf s.rf → quiet s → evaluationAdmits s →
    isPaletteAddr s.cfg a = true → slotKind s.cfg s.cfg.sysSlot = .device h → h ≠ .external →
    ∃ t, exec (.pout a v) s = .next t ∧ t.pal = paletteOf s.cfg (slotBytes t s.cfg.sysSlot) ∧
      ∀ b, slotOf b = s.cfg.sysSlot → rfRead t b = if b = a then v else rfRead s b) ∧
  (∀ (s : State) (a v : Byte) (ans : HandlerAnswer), Memory.wf s.rf → Rising s.hstate → quiet s →
    evaluationAdmits s → isPaletteAddr s.cfg a = true →
    slotKind s.cfg s.cfg.sysSlot = .device .external → screenSlot s.cfg ≠ s.cfg.sysSlot →
    ans = Config.externalHandler s.cfg.sysSlot (hstateRead s s.cfg.sysSlot)
      (slotBytes (rfWrite s a v) s.cfg.sysSlot) (.write (subOf a) v) →
    ∃ t, exec (.pout a v) s = .next t ∧ t.pal = paletteOf s.cfg (slotBytes t s.cfg.sysSlot) ∧
      hstateRead t s.cfg.sysSlot = ans.hstate ∧
      ∀ b, slotOf b = s.cfg.sysSlot →
        rfRead t b = afterPushes ans.pushes (subOf b) (if b = a then v else rfRead s b)) ∧
  (∀ (s : State) (a v : Byte) (ans scr : HandlerAnswer) (bytes : List Byte), Memory.wf s.rf →
    Rising s.hstate → quiet s → evaluationAdmits s → isPaletteAddr s.cfg a = true →
    slotKind s.cfg s.cfg.sysSlot = .device .external → screenSlot s.cfg = s.cfg.sysSlot →
    ans = Config.externalHandler s.cfg.sysSlot (hstateRead s s.cfg.sysSlot)
      (slotBytes (rfWrite s a v) s.cfg.sysSlot) (.write (subOf a) v) →
    bytes = (slotAddrs s.cfg.sysSlot).map (fun b =>
      afterPushes ans.pushes (subOf b) (if b = a then v else rfRead s b)) →
    scr = Config.externalHandler s.cfg.sysSlot ans.hstate bytes
      (.palette (paletteOf s.cfg bytes)) →
    ∃ t, exec (.pout a v) s = .next t ∧ t.pal = paletteOf s.cfg bytes ∧
      hstateRead t s.cfg.sysSlot = scr.hstate ∧
      ∀ b, slotOf b = s.cfg.sysSlot →
        rfRead t b = afterPushes scr.pushes (subOf b)
          (afterPushes ans.pushes (subOf b) (if b = a then v else rfRead s b))) ∧
  (∀ (s : State) (a v : Byte), Memory.wf s.rf → Rising s.hstate → quiet s → evaluationAdmits s →
    isPaletteAddr s.cfg a = true → slotKind s.cfg (screenSlot s.cfg) = .device .external →
    screenSlot s.cfg ≠ s.cfg.sysSlot →
    ∃ t scr, exec (.pout a v) s = .next t ∧
      scr = Config.externalHandler (screenSlot s.cfg) (hstateRead s (screenSlot s.cfg))
        (slotBytes s (screenSlot s.cfg)) (.palette t.pal) ∧
      hstateRead t (screenSlot s.cfg) = scr.hstate ∧
      ∀ b, slotOf b = screenSlot s.cfg →
        rfRead t b = afterPushes scr.pushes (subOf b) (rfRead s b))

/-- POUT to a palette sub-register with the test handler in the system slot and in the screen slot:
afterwards PAL is PaletteFn of the sixteen bytes of the system slot, and nothing else has changed but
the stored byte. -/
def Obligations.PaletteFollowsThePaletteWrite : Prop :=
  ∀ (s : State) (a v : Byte), Memory.wf s.rf → quiet s → evaluationAdmits s →
    isPaletteAddr s.cfg a = true → slotKind s.cfg s.cfg.sysSlot = .device .raw →
    slotKind s.cfg (screenSlot s.cfg) = .device .raw →
    ∃ t, exec (.pout a v) s = .next t ∧
      t = { s with
        rf := t.rf
        pal := paletteOf s.cfg (slotBytes t s.cfg.sysSlot)
        log := s.log ++ [.handler s.cfg.sysSlot (.write (subOf a) v),
          .handler (screenSlot s.cfg) (.palette t.pal)] } ∧
      ∀ b, rfRead t b = if b = a then v else rfRead s b

/-- With the reference screen handler, after a POUT to a palette sub-register every framebuffer pixel
shows the palette entry its index names, out of the palette just computed. -/
def Obligations.ReferenceScreenRendersTheNewPalette : Prop :=
  ∀ (s : State) (a v : Byte), StateInv s → quiet s → evaluationAdmits s →
    isPaletteAddr s.cfg a = true → slotKind s.cfg s.cfg.sysSlot = .device .raw →
    slotKind s.cfg (screenSlot s.cfg) = .device .refScreen →
    ∃ t, exec (.pout a v) s = .next t ∧ t.fbW = s.fbW ∧ t.fbH = s.fbH ∧ t.refused = s.refused ∧
      ∀ i, i < fbSize s → t.pal[idxRead s i]? = some (fbRead t i)

/-- For every address of a slot with no handler, POUT followed by PIN answers the byte written. -/
def Obligations.PortInReadsBackPortOut : Prop :=
  ∀ (s : State) (a v : Byte), configOk s.cfg → Memory.wf s.rf → quiet s → evaluationAdmits s →
    slotKind s.cfg (slotOf a) = .none →
    ∃ t u, exec (.pout a v) s = .next t ∧ exec (.pin a) t = .next u ∧
      u.log = t.log ++ [.result v]

/-- A STUB slot's byte is stored but not read back: after POUT, PIN answers zero and PEEK answers the
byte written. -/
def Obligations.StubSlotForgetsOnRead : Prop :=
  ∀ (s : State) (a v : Byte), configOk s.cfg → Memory.wf s.rf → quiet s → evaluationAdmits s →
    slotKind s.cfg (slotOf a) = .stub →
    ∃ t u w, exec (.pout a v) s = .next t ∧ exec (.pin a) t = .next u ∧
      exec (.peek a) t = .next w ∧ u.log.getLast? = some (.result 0x00) ∧
      w.log.getLast? = some (.result v)

/-- PUSH stores its byte and does nothing else: no handler is called, no trace record left, no palette
refreshed, whatever the address. -/
def Obligations.PushStoresOneByteAndNothingElse : Prop :=
  ∀ (s : State) (a v : Byte), Memory.wf s.rf → evaluationAdmits s →
    ∃ t, exec (.push a v) s = .next t ∧ t = { poll s with rf := t.rf } ∧
      ∀ b, rfRead t b = if b = a then v else rfRead (poll s) b

/-- PEEK answers the stored byte, whatever the slot's kind, and changes no state. -/
def Obligations.PeekAnswersTheStoredByte : Prop :=
  ∀ (s : State) (a : Byte), evaluationAdmits s →
    exec (.peek a) s = .next { poll s with log := s.log ++ [.result (rfRead (poll s) a)] }

/-- PAL is refreshed by one event only: a POUT whose address is a system palette sub-register. -/
def Obligations.OnlyAPalettePoutChangesPal : Prop :=
  ∀ (s t : State) (i : Instr), simple i → exec i s = .next t → t.pal ≠ s.pal →
    ∃ a v, i = .pout a v ∧ isPaletteAddr s.cfg a = true

/-! Screen bridge transactions (41_screen_bridge). -/

/-- A RESIZE within the capacity, on the cell grid, to another size: both sides change, the
framebuffer's contents are a new draw, RZ is set, and nothing else changes but the reference screen
handler's index plane, which is all zero.  How a draw is written is the model's choice (log 2). -/
def Obligations.ResizeReallocatesTheFramebuffer : Prop :=
  ∀ (s : State) (w h : Word), configOk s.cfg → evaluationAdmits s → ¬overCapacity s.cfg w h →
    w.toNat % s.cfg.cell = 0 → h.toNat % s.cfg.cell = 0 →
    ¬(w.toNat = s.fbW.toNat ∧ h.toNat = s.fbH.toNat) →
    ∃ t, exec (.resize w h) s = .next t ∧
      t = { poll s with
        fbW := t.fbW, fbH := t.fbH, fb := t.fb, fbGen := t.fbGen, rz := true, idx := t.idx } ∧
      t.fbW.toNat = w.toNat ∧ t.fbH.toNat = h.toNat ∧ t.fbGen = s.fbGen + 1 ∧
      (∀ i, fbRead t i = Config.drawFb (s.fbGen + 1) i) ∧ ∀ i, idxRead t i = 0

/-- A RESIZE above the capacity is recorded as X4 and never fatal: under `clamp` it resizes to the
sides truncated to the capacity if they are on the cell grid and not the current size (and changes
nothing if they are the current size); under `reject` it changes nothing. -/
def Obligations.ResizeOverCapacity : Prop :=
  (∀ (s : State) (w h : Word), configOk s.cfg → evaluationAdmits s → overCapacity s.cfg w h →
    s.cfg.resizePolicy = .clamp → min w.toNat s.cfg.maxW % s.cfg.cell = 0 →
    min h.toNat s.cfg.maxH % s.cfg.cell = 0 →
    ∃ t, exec (.resize w h) s = .next t ∧
      t.fbW.toNat = min w.toNat s.cfg.maxW ∧ t.fbH.toNat = min h.toNat s.cfg.maxH ∧
      t = { poll s with
        fbW := t.fbW, fbH := t.fbH, fb := t.fb, fbGen := t.fbGen, rz := t.rz, idx := t.idx
        log := s.log ++ [.raised (.resizeOverCapacity w h)] } ∧
      if min w.toNat s.cfg.maxW = s.fbW.toNat ∧ min h.toNat s.cfg.maxH = s.fbH.toNat then
        t.rz = (poll s).rz ∧ t.idx = s.idx ∧ ∀ i, fbRead t i = fbRead s i
      else t.rz = true ∧ ∀ i, fbRead t i = Config.drawFb (s.fbGen + 1) i) ∧
  (∀ (s : State) (w h : Word), evaluationAdmits s → overCapacity s.cfg w h →
    s.cfg.resizePolicy = .reject →
    exec (.resize w h) s =
      .next { poll s with log := s.log ++ [.raised (.resizeOverCapacity w h)] })

/-- A RESIZE to the current size changes nothing: not the sides, not one pixel, not RZ. -/
def Obligations.ResizeToTheCurrentSizeChangesNothing : Prop :=
  ∀ (s : State) (w h : Word), sizesOk s → evaluationAdmits s → w.toNat = s.fbW.toNat →
    h.toNat = s.fbH.toNat → exec (.resize w h) s = .next (poll s)

/-- A RESIZE whose size after the capacity step is off the cell grid is refused: REFUSED is set and
nothing else changes; an X4 is recorded first. -/
def Obligations.ResizeOffTheCellGridIsRefused : Prop :=
  (∀ (s : State) (w h : Word), evaluationAdmits s → ¬overCapacity s.cfg w h →
    ¬(w.toNat % s.cfg.cell = 0 ∧ h.toNat % s.cfg.cell = 0) →
    exec (.resize w h) s = .next { poll s with
      refused := true
      log := s.log ++ [.refusal .resizeNotCellMultiple] }) ∧
  (∀ (s : State) (w h : Word), evaluationAdmits s → overCapacity s.cfg w h →
    s.cfg.resizePolicy = .clamp →
    ¬(min w.toNat s.cfg.maxW % s.cfg.cell = 0 ∧ min h.toNat s.cfg.maxH % s.cfg.cell = 0) →
    exec (.resize w h) s = .next { poll s with
      refused := true
      log := s.log ++ [.raised (.resizeOverCapacity w h), .refusal .resizeNotCellMultiple] })

/-- Under either policy no RESIZE leaves the framebuffer larger than the staging image or off the cell
grid, so no BLIT can index outside it. -/
def Obligations.NoResizeExceedsTheCapacity : Prop :=
  ∀ (s t : State) (w h : Word), configOk s.cfg → sizesOk s → exec (.resize w h) s = .next t →
    sizesOk t ∧ ∀ x y, x < t.fbW.toNat → y < t.fbH.toNat →
      stIndex t.cfg x y < t.cfg.maxW * t.cfg.maxH

/-- FBWR writes its pixel, channel 0 from the lowest byte of the operand, and changes nothing else;
outside the framebuffer it is refused. -/
def Obligations.FbwrWritesOnePixel : Prop :=
  (∀ (s : State) (i px : Word), evaluationAdmits s → i.toNat < fbSize s →
    ∃ t, exec (.fbwr i px) s = .next t ∧ t = { poll s with fb := t.fb } ∧
      (fbRead t i.toNat).c0 = px.extractLsb' 0 8 ∧ (fbRead t i.toNat).c1 = px.extractLsb' 8 8 ∧
      (fbRead t i.toNat).c2 = px.extractLsb' 16 8 ∧ (fbRead t i.toNat).c3 = px.extractLsb' 24 8 ∧
      ∀ j, j ≠ i.toNat → fbRead t j = fbRead s j) ∧
  (∀ (s : State) (i px : Word), evaluationAdmits s → fbSize s ≤ i.toNat →
    exec (.fbwr i px) s = .next { poll s with
      refused := true
      log := s.log ++ [.refusal .fbwrOutOfRange] })

/-- BLIT writes exactly the valid region: destination channel 0 is source channel 2, channel 1 is
channel 1, channel 2 is channel 0, channel 3 is channel 3, at the fixed stride; every other pixel of
the staging image, and everything else, is unchanged. -/
def Obligations.BlitPermutesTheValidRegion : Prop :=
  ∀ s : State, benchAdmits s → s.fbW.toNat ≤ s.cfg.maxW → Rising s.st →
    ∃ t, exec .blit s = .next t ∧ t = { poll s with st := t.st } ∧
      (∀ x y, x < s.fbW.toNat → y < s.fbH.toNat →
        (stRead t (y * s.cfg.maxW + x)).c0 = (fbRead s (y * s.fbW.toNat + x)).c2 ∧
        (stRead t (y * s.cfg.maxW + x)).c1 = (fbRead s (y * s.fbW.toNat + x)).c1 ∧
        (stRead t (y * s.cfg.maxW + x)).c2 = (fbRead s (y * s.fbW.toNat + x)).c0 ∧
        (stRead t (y * s.cfg.maxW + x)).c3 = (fbRead s (y * s.fbW.toNat + x)).c3) ∧
      ∀ j, (∀ x y, x < s.fbW.toNat → y < s.fbH.toNat → j ≠ y * s.cfg.maxW + x) →
        stRead t j = stRead s j

/-- GEOM with RZ set loads the quad size and the extents with the framebuffer's size and clears RZ;
with RZ clear it does nothing. -/
def Obligations.GeomConsumesThePendingResize : Prop :=
  ∀ s : State, benchAdmits s →
    exec .geom s = .next (if (poll s).rz then
      { poll s with qw := s.fbW, qh := s.fbH, un := s.fbW, vn := s.fbH, rz := false }
      else poll s)

/-- Texture coordinates within the extents sample the valid region and nothing else. -/
def Obligations.SamplesLieInTheValidRegion : Prop :=
  ∀ (s : State) (u v : ℚ), 0 ≤ u → u < extentU s → 0 ≤ v → v < extentV s →
    ∃ x y, x < s.un.toNat ∧ y < s.vn.toNat ∧ sampleIndex s.cfg u v = y * s.cfg.maxW + x

/-- RNOTE sets RZ and changes nothing else, in any phase before the end of the run. -/
def Obligations.RnoteSetsTheResizeFlag : Prop :=
  ∀ s : State, prompt s → hostAdmits s → exec .rnote s = .next { s with rz := true }

/-! Input transactions (42_input_router). -/

/-- PMOVE clamps each coordinate as a signed number to the current framebuffer's side, both ends
included, keeps it in PS and stores it as a big-endian pair; it changes nothing else. -/
def Obligations.PmoveClampsAndStores : Prop :=
  ∀ (s : State) (x y : Word), configOk s.cfg → Memory.wf s.rf → prompt s → hostAdmits s →
    ∃ t, exec (.pmove x y) s = .next t ∧
      t = { s with rf := t.rf, psX := t.psX, psY := t.psY } ∧
      (t.psX.toNat : Int) = max 0 (min x.toInt s.fbW.toNat) ∧
      (t.psY.toNat : Int) = max 0 (min y.toInt s.fbH.toNat) ∧
      pairOf (rfRead t s.cfg.mouseXAddr) (rfRead t (s.cfg.mouseXAddr + 1)) = t.psX ∧
      pairOf (rfRead t s.cfg.mouseYAddr) (rfRead t (s.cfg.mouseYAddr + 1)) = t.psY ∧
      ∀ b, b ∉ [s.cfg.mouseXAddr, s.cfg.mouseXAddr + 1, s.cfg.mouseYAddr, s.cfg.mouseYAddr + 1] →
        rfRead t b = rfRead s b

/-- A PMOVE of which two of the five steps have taken effect: RF holds the new high byte of x beside
the old low byte and the old y.  If HOST takes no step at its next chance either, SEQ finds the mixture:
a PEEK answers the old low byte of x, and another the new high byte.  How the model holds the other
steps back is its choice (log 3). -/
def Obligations.TornPmoveShowsAMixture : Prop :=
  ∀ (s : State) (x y : Word) (later : List Nat), configOk s.cfg → Memory.wf s.rf → quiet s →
    s.sched = 2 :: later → hostAdmits s →
    ∃ t, exec (.pmove x y) s = .next t ∧ t.psX = clampCoord x s.fbW ∧ t.psY = clampCoord y s.fbH ∧
      t.hostTodo = [.storeXLow, .storeYHigh, .storeYLow] ∧ t.sched = later ∧
      rfRead t s.cfg.mouseXAddr = highByte t.psX ∧
      (∀ b, b ≠ s.cfg.mouseXAddr → rfRead t b = rfRead s b) ∧
      ∀ more, later = 0 :: more → evaluationAdmits s →
        exec (.peek (s.cfg.mouseXAddr + 1)) t = .next { t with
          sched := more
          log := s.log ++ [.result (rfRead s (s.cfg.mouseXAddr + 1))] } ∧
        exec (.peek s.cfg.mouseXAddr) t = .next { t with
          sched := more
          log := s.log ++ [.result (highByte t.psX)] }

/-- BDOWN holds and BUP lets go the button's mask in PS_BTN, then stores PS_BTN over the button state
register; nothing else changes. -/
def Obligations.ButtonsAreHeldAndReleased : Prop :=
  (∀ (s : State) (id : Word), Memory.wf s.rf → prompt s → hostAdmits s → id.toNat < s.cfg.nbtn →
    ∃ t, exec (.bdown id) s = .next t ∧
      t = { s with rf := t.rf, psBtn := s.psBtn ||| btnMask s.cfg (id.toNat + 1) } ∧
      ∀ b, rfRead t b = if b = s.cfg.mouseStateAddr then t.psBtn else rfRead s b) ∧
  (∀ (s : State) (id : Word), Memory.wf s.rf → prompt s → hostAdmits s → id.toNat < s.cfg.nbtn →
    ∃ t, exec (.bup id) s = .next t ∧
      t = { s with rf := t.rf, psBtn := s.psBtn &&& ~~~(btnMask s.cfg (id.toNat + 1)) } ∧
      ∀ b, rfRead t b = if b = s.cfg.mouseStateAddr then t.psBtn else rfRead s b)

/-- A button id the block does not represent has no effect at all. -/
def Obligations.OtherButtonIdsAreIgnored : Prop :=
  ∀ (s : State) (id : Word), prompt s → hostAdmits s → s.cfg.nbtn ≤ id.toNat →
    exec (.bdown id) s = .next s ∧ exec (.bup id) s = .next s

/-- The source's pointer scenario, under every legal configuration with a 512 x 320 framebuffer at
reset in which a test bench drives the parts (BENCH = 1) and 256 x 160 is on the cell grid: PMOVE(-10, 1000)
stores (0, 320); after RESIZE(256, 160), PMOVE(300, 50) stores (256, 50). -/
def Obligations.PointerScenario : Prop :=
  ∀ c : Config, configOk c → c.bench = true → c.bootW = 512 → c.bootH = 320 →
    256 % c.cell = 0 → 160 % c.cell = 0 →
    ∃ t u v, exec (.pmove (-10) 1000) (State.resetWith c) = .next t ∧
      (pairOf (rfRead t c.mouseXAddr) (rfRead t (c.mouseXAddr + 1)),
        pairOf (rfRead t c.mouseYAddr) (rfRead t (c.mouseYAddr + 1))) = (0, 320) ∧
      exec (.resize 256 160) t = .next u ∧ exec (.pmove 300 50) u = .next v ∧
      (pairOf (rfRead v c.mouseXAddr) (rfRead v (c.mouseXAddr + 1)),
        pairOf (rfRead v c.mouseYAddr) (rfRead v (c.mouseYAddr + 1))) = (256, 50)

/-- HOST's transactions write PS, RZ, SD and the five pointer registers, and nothing else of the
block; a refused one sets REFUSED. -/
def Obligations.HostTransactionsLeaveSequencerStateAlone : Prop :=
  ∀ (s t : State) (i : Instr), quiet s → issuer i = .host → exec i s = .next t →
    t = { s with
      rf := t.rf, psX := t.psX, psY := t.psY, psBtn := t.psBtn, rz := t.rz, sd := t.sd
      refused := t.refused, hostTodo := t.hostTodo, sched := t.sched, log := t.log } ∧
    ∀ b, b ∉ [s.cfg.mouseXAddr, s.cfg.mouseXAddr + 1, s.cfg.mouseYAddr, s.cfg.mouseYAddr + 1,
      s.cfg.mouseStateAddr] → rfRead t b = rfRead s b

/-- With HOST silent, SEQ's transactions other than BOOT and FRAME never write PS or SD, clear RZ only
by GEOM, and leave the phase, the trace and HOST's own steps alone. -/
def Obligations.SequencerTransactionsLeavePointerStateAlone : Prop :=
  ∀ (s t : State) (i : Instr), quiet s → simple i → issuer i = .seq → exec i s = .next t →
    t.psX = s.psX ∧ t.psY = s.psY ∧ t.psBtn = s.psBtn ∧ t.sd = s.sd ∧ t.ph = s.ph ∧
      t.evaluating = s.evaluating ∧ t.input = s.input ∧ t.hostTodo = [] ∧ t.sched = s.sched ∧
      (s.rz = true → i ≠ .geom → t.rz = true)

/-! Sequencer transactions (43_frame_sequencer, 60_exceptions). -/

/-- BOOT with both answers ok: the machine is called at ORIGIN, the nested transactions are taken from
the trace, PH becomes IDLE; no conversion and no geometry happens.  With nothing nested nothing else
changes.  The nested transactions take effect in the order of the trace, each as `exec` says of it
while the evaluation is in progress, and after them nothing but the HOST steps that are due. -/
def Obligations.BootReachesIdle : Prop :=
  (∀ (s : State) (n : Word), s.evaluating = false → s.ph = .boot → traceHolds n.toNat s →
    ∃ t, exec (.boot false false n) s = .next t ∧ t.ph = .idle ∧ t.evaluating = false ∧
      t.input = s.input.drop (9 * n.toNat) ∧ (s.log ++ [.evaluate s.cfg.origin]) <+: t.log ∧
      t.log.getLast? = some (.phase .idle) ∧ t.st = s.st ∧ t.stGen = s.stGen ∧
      (t.qw, t.qh, t.un, t.vn) = (s.qw, s.qh, s.un, s.vn)) ∧
  (∀ s : State, quiet s → s.evaluating = false → s.ph = .boot →
    exec (.boot false false 0) s = .next { s with
      ph := .idle
      log := s.log ++ [.evaluate s.cfg.origin, .phase .idle] }) ∧
  (∀ (s : State) (nested : List Instr) (rest : List Byte), s.evaluating = false → s.ph = .boot →
    (∀ i ∈ nested, simple i) → nested.length < 2 ^ 32 →
    s.input = nested.flatMap encodeBytes ++ rest →
    ∃ u t, execAll nested { poll s with
          evaluating := true
          log := s.log ++ [.evaluate s.cfg.origin] } = some u ∧
      exec (.boot false false (BitVec.ofNat 32 nested.length)) s = .next t ∧
      t = { poll u with
        ph := .idle, evaluating := false, input := rest, log := u.log ++ [.phase .idle] })

/-- The loader answers failed: X1, PH becomes FATAL, no evaluation is started, nothing else changes. -/
def Obligations.BootLoadFailureIsFatal : Prop :=
  ∀ s : State, s.evaluating = false → s.ph = .boot →
    exec (.boot true false 0) s = .next { poll s with
      ph := .fatal
      log := s.log ++ [.raised .bootLoadFail, .phase .fatal] }

/-- The boot evaluation fails, whatever was nested in it: X2, PH becomes FATAL.  The nested
transactions have taken effect before that, in the order of the trace. -/
def Obligations.BootEvaluationFailureIsFatal : Prop :=
  (∀ (s : State) (n : Word), s.evaluating = false → s.ph = .boot → traceHolds n.toNat s →
    ∃ t mid, exec (.boot false true n) s = .next t ∧ t.ph = .fatal ∧ t.evaluating = false ∧
      t.log = s.log ++ [.evaluate s.cfg.origin] ++ mid ++ [.raised .bootEvalFail, .phase .fatal]) ∧
  (∀ (s : State) (nested : List Instr) (rest : List Byte), s.evaluating = false → s.ph = .boot →
    (∀ i ∈ nested, simple i) → nested.length < 2 ^ 32 →
    s.input = nested.flatMap encodeBytes ++ rest →
    ∃ u t, execAll nested { poll s with
          evaluating := true
          log := s.log ++ [.evaluate s.cfg.origin] } = some u ∧
      exec (.boot false true (BitVec.ofNat 32 nested.length)) s = .next t ∧
      t = { poll u with
        ph := .fatal, evaluating := false, input := rest
        log := u.log ++ [.raised .bootEvalFail, .phase .fatal] })

/-- A BOOT in any phase but BOOT, a FRAME in any phase but IDLE, a BOOT or FRAME whose answers
contradict one another, and one whose nested descriptors the trace does not hold are refused: REFUSED
is set and nothing else changes.  That the refusal is also handed to the observer, that a trace too
short refuses before anything takes effect, and where the answers are checked are the model's (log 5,
log 8, log 16). -/
def Obligations.SequencerTransactionsOutOfPlaceAreRefused : Prop :=
  (∀ (s : State) (l e : Bool) (n : Word), s.evaluating = false → s.ph ≠ .boot →
    exec (.boot l e n) s = .next { s with
      refused := true
      log := s.log ++ [.refusal .bootNotInBootPhase] }) ∧
  (∀ (s : State) (e v : Bool) (n : Word), s.evaluating = false → s.ph ≠ .idle →
    exec (.frame e v n) s = .next { s with
      refused := true
      log := s.log ++ [.refusal .frameNotInIdlePhase] }) ∧
  (∀ (s : State) (n : Word), s.evaluating = false → s.ph = .idle → s.cfg.evalFailPolicy = .skip →
    exec (.frame true true n) s = .next { s with
      refused := true
      log := s.log ++ [.refusal (.reservedDescriptor .contradictoryAnswers)] }) ∧
  (∀ (s : State) (e v : Bool) (n : Word), quiet s → s.evaluating = false → s.ph = .idle →
    s.sd = true → (e = true ∨ v = true ∨ n ≠ 0) →
    exec (.frame e v n) s = .next { s with
      refused := true
      log := s.log ++ [.refusal (.reservedDescriptor .contradictoryAnswers)] }) ∧
  (∀ (s : State) (l e : Bool) (n : Word), s.evaluating = false → s.ph = .boot →
    l = true ∧ (e = true ∨ n ≠ 0) →
    exec (.boot l e n) s = .next { s with
      refused := true
      log := s.log ++ [.refusal (.reservedDescriptor .contradictoryAnswers)] }) ∧
  (∀ (s : State) (e : Bool) (n : Word), s.evaluating = false → s.ph = .boot →
    ¬traceHolds n.toNat s →
    exec (.boot false e n) s = .next { s with
      refused := true
      log := s.log ++ [.refusal .traceEndsInEvaluation] }) ∧
  (∀ (s : State) (e v : Bool) (n : Word), s.evaluating = false → s.ph = .idle →
    (poll s).sd = false → ¬frameAnswersClash s.cfg e v → ¬traceHolds n.toNat s →
    exec (.frame e v n) s = .next { poll s with
      refused := true
      log := s.log ++ [.refusal .traceEndsInEvaluation] })

/-- At the loop top SD = 1 ends the run: no vector is read, no evaluation is started, PH becomes
STOPPED, nothing else changes. -/
def Obligations.FrameStopsAtTheLoopTop : Prop :=
  ∀ s : State, s.evaluating = false → s.ph = .idle → (poll s).sd = true →
    exec (.frame false false 0) s = .next { poll s with
      ph := .stopped
      log := s.log ++ [.phase .stopped] }

/-- A frame with HOST silent and nothing nested: the machine is called at the screen vector, read big
endian; the geometry is the framebuffer's size and RZ is clear; the valid region of the staging image
is the permuted framebuffer; one frame output leaves, of the state so reached; PH is IDLE again; the
rest is unchanged.  With transactions nested, each takes effect as `exec` says of it, in the order of
the trace, after the call and before the geometry, and it is the state they leave that is presented. -/
def Obligations.FramePresentsThePermutedFramebuffer : Prop :=
  (∀ s : State, quiet s → s.evaluating = false → s.ph = .idle → s.sd = false →
    s.fbW.toNat ≤ s.cfg.maxW → Rising s.st → geometryFresh s →
    ∃ t, exec (.frame false false 0) s = .next t ∧
      t = { s with
        st := t.st, qw := s.fbW, qh := s.fbH, un := s.fbW, vn := s.fbH, rz := false
        log := s.log ++ [.phase .exec,
          .evaluate (pairOf (rfRead s s.cfg.scrVecAddr) (rfRead s (s.cfg.scrVecAddr + 1))),
          .phase .upload, .phase .render, .phase .present, .frame (frameOutput t),
          .phase .idle] } ∧
      (∀ x y, x < s.fbW.toNat → y < s.fbH.toNat →
        stRead t (stIndex s.cfg x y) = permute (fbRead s (fbIndex s x y))) ∧
      ∀ j, (∀ x y, x < s.fbW.toNat → y < s.fbH.toNat → j ≠ stIndex s.cfg x y) →
        stRead t j = stRead s j) ∧
  (∀ (s : State) (nested : List Instr) (rest : List Byte), StateInv s → prompt s →
    s.evaluating = false → s.ph = .idle → s.sd = false → (∀ i ∈ nested, simple i) →
    nested.length < 2 ^ 32 → s.input = nested.flatMap encodeBytes ++ rest →
    ∃ u t, execAll nested { s with
          ph := .exec
          evaluating := true
          log := s.log ++ [.phase .exec,
            .evaluate (pairOf (rfRead s s.cfg.scrVecAddr) (rfRead s (s.cfg.scrVecAddr + 1)))] } =
        some u ∧
      exec (.frame false false (BitVec.ofNat 32 nested.length)) s = .next t ∧
      t = { u with
        st := t.st, qw := u.fbW, qh := u.fbH, un := u.fbW, vn := u.fbH, rz := false
        ph := .idle, evaluating := false, input := rest
        log := u.log ++ [.phase .upload, .phase .render, .phase .present, .frame (frameOutput t),
          .phase .idle] } ∧
      (∀ x y, x < u.fbW.toNat → y < u.fbH.toNat →
        stRead t (stIndex u.cfg x y) = permute (fbRead u (fbIndex u x y))) ∧
      ∀ j, (∀ x y, x < u.fbW.toNat → y < u.fbH.toNat → j ≠ stIndex u.cfg x y) →
        stRead t j = stRead u j)

/-- Whatever a step runs, from any state that meets the invariant, and however HOST interleaves: a
frame output that leaves the block has the framebuffer's size as its quad size and its extents, and
its image is exactly the permuted framebuffer; no pixel outside the valid region is in it. -/
def Obligations.EveryFrameOutputIsThePermutedFramebuffer : Prop :=
  ∀ (s t : State) (out : FrameOutput), StateInv s → step s = .next t →
    .frame out ∈ t.log.drop s.log.length →
    out.qw = t.fbW ∧ out.qh = t.fbH ∧ out.un = t.fbW ∧ out.vn = t.fbH ∧
      out.img = (List.range t.fbH.toNat).map fun y =>
        (List.range t.fbW.toNat).map fun x => permute (fbRead t (fbIndex t x y))

/-- A frame whose evaluation fails under `skip`, whatever is nested in it and however HOST
interleaves: X3 with the vector that was called, PH back to IDLE; no geometry, no conversion, no frame
output, and a pending resize stays pending.  Everything the evaluation did before it failed stays done:
the nested transactions have taken effect in the order of the trace, and after them nothing but the HOST
steps that are due. -/
def Obligations.FailedEvaluationSkipsTheFrame : Prop :=
  (∀ (s : State) (n : Word), s.evaluating = false → s.ph = .idle → (poll s).sd = false →
    s.cfg.evalFailPolicy = .skip → traceHolds n.toNat s →
    ∃ t vec mid, exec (.frame true false n) s = .next t ∧ t.ph = .idle ∧ t.evaluating = false ∧
      t.log = s.log ++ [.phase .exec, .evaluate vec] ++ mid ++
        [.raised (.frameEvalFail vec), .phase .idle] ∧
      (∀ out, .frame out ∉ mid) ∧ (s.rz = true → t.rz = true) ∧
      t.st = s.st ∧ t.stGen = s.stGen ∧
      (t.qw, t.qh, t.un, t.vn) = (s.qw, s.qh, s.un, s.vn)) ∧
  (∀ (s : State) (nested : List Instr) (rest : List Byte) (vec : Half), quiet s →
    s.evaluating = false → s.ph = .idle → s.sd = false → s.cfg.evalFailPolicy = .skip →
    (∀ i ∈ nested, simple i) → nested.length < 2 ^ 32 →
    s.input = nested.flatMap encodeBytes ++ rest →
    vec = pairOf (rfRead s s.cfg.scrVecAddr) (rfRead s (s.cfg.scrVecAddr + 1)) →
    ∃ u t, execAll nested { s with
          ph := .exec
          evaluating := true
          log := s.log ++ [.phase .exec, .evaluate vec] } = some u ∧
      exec (.frame true false (BitVec.ofNat 32 nested.length)) s = .next t ∧
      t = { poll u with
        ph := .idle, evaluating := false, input := rest
        log := u.log ++ [.raised (.frameEvalFail vec), .phase .idle] })

/-- Under `ignore` a failed evaluation has no effect but the record of X3, with the vector that was
called, right after the evaluation: the frame ends in the state it would have ended in, and hands the
observer everything it would have handed, its output or the record of X5 included.  That X3 is recorded
there is the model's reading (DEDUCED, log 12). -/
def Obligations.FailedEvaluationIgnored : Prop :=
  ∀ (s : State) (v : Bool) (n : Word), s.evaluating = false → s.ph = .idle →
    (poll s).sd = false → s.cfg.evalFailPolicy = .ignore → traceHolds n.toNat s →
    ∃ t u vec mid out, exec (.frame true v n) s = .next t ∧ exec (.frame false v n) s = .next u ∧
      t = { u with log := t.log } ∧
      u.log = s.log ++ [.phase .exec, .evaluate vec] ++ mid ++
        [.phase .upload, .phase .render, .phase .present,
          if v then .raised .swapchainInvalidated else .frame out, .phase .idle] ∧
      t.log = s.log ++ [.phase .exec, .evaluate vec] ++ mid ++ [.raised (.frameEvalFail vec)] ++
        [.phase .upload, .phase .render, .phase .present,
          if v then .raised .swapchainInvalidated else .frame out, .phase .idle]

/-- The presenter answers invalidated, with HOST silent and nothing nested: X5, the frame is dropped
without an output, the staging image is a new draw, PH is IDLE again, RZ is not set, and RF, FB, PAL
and PS are as they were; the geometry is the framebuffer's.  With transactions nested, it is the state
they leave, in the order of the trace, that is kept so. -/
def Obligations.InvalidationDropsTheFrame : Prop :=
  (∀ s : State, quiet s → s.evaluating = false → s.ph = .idle → s.sd = false → geometryFresh s →
    ∃ t, exec (.frame false true 0) s = .next t ∧
      t = { s with
        st := t.st, stGen := t.stGen, qw := s.fbW, qh := s.fbH, un := s.fbW, vn := s.fbH
        rz := false
        log := s.log ++ [.phase .exec,
          .evaluate (pairOf (rfRead s s.cfg.scrVecAddr) (rfRead s (s.cfg.scrVecAddr + 1))),
          .phase .upload, .phase .render, .phase .present, .raised .swapchainInvalidated,
          .phase .idle] } ∧
      ∀ j, stRead t j = Config.drawSt (s.stGen + 1) j) ∧
  (∀ (s : State) (nested : List Instr) (rest : List Byte), prompt s → s.evaluating = false →
    s.ph = .idle → s.sd = false → geometryFresh s → (∀ i ∈ nested, simple i) →
    nested.length < 2 ^ 32 → s.input = nested.flatMap encodeBytes ++ rest →
    ∃ u t, execAll nested { s with
          ph := .exec
          evaluating := true
          log := s.log ++ [.phase .exec,
            .evaluate (pairOf (rfRead s s.cfg.scrVecAddr) (rfRead s (s.cfg.scrVecAddr + 1)))] } =
        some u ∧
      exec (.frame false true (BitVec.ofNat 32 nested.length)) s = .next t ∧
      t = { u with
        st := t.st, stGen := t.stGen, qw := u.fbW, qh := u.fbH, un := u.fbW, vn := u.fbH
        rz := false, ph := .idle, evaluating := false, input := rest
        log := u.log ++ [.phase .upload, .phase .render, .phase .present,
          .raised .swapchainInvalidated, .phase .idle] } ∧
      ∀ j, stRead t j = Config.drawSt (s.stGen + 1) j)

/-- PH becomes STOPPED only by a FRAME that begins in IDLE with SD = 1: shutdown is observed at the
loop top and nowhere else. -/
def Obligations.OnlyALoopTopStopsTheRun : Prop :=
  ∀ s t : State, step s = .next t → s.ph ≠ .stopped → t.ph = .stopped →
    ∃ rest, decode s.input = .ok (.frame false false 0) rest ∧ s.evaluating = false ∧
      s.ph = .idle ∧ (poll { s with input := rest }).sd = true

/-- STOPPED and FATAL have no successor, and nothing is admitted there: a step consumes its descriptor,
sets REFUSED and changes nothing else. -/
def Obligations.TerminalPhasesAdmitNothing : Prop :=
  ∀ s t : State, terminal s.ph → step s = .next t →
    t = { s with input := s.input.drop 9, refused := true, log := t.log }

/-- STOP sets SD and changes nothing else, in any phase before the end of the run. -/
def Obligations.StopSetsTheShutdownFlag : Prop :=
  ∀ s : State, prompt s → hostAdmits s → exec .stop s = .next { s with sd := true }

/-- At the top level without BENCH the transactions that SEQ issues inside an evaluation, and BLIT and
GEOM, are refused. -/
def Obligations.TopLevelAdmitsNoComponentTransaction : Prop :=
  ∀ (s : State) (i : Instr), s.evaluating = false → s.cfg.bench = false → simple i →
    issuer i = .seq →
    exec i s = .next { s with refused := true, log := s.log ++ [.refusal .notAdmitted] }

/-- BLIT, GEOM, BOOT and FRAME do not nest: read as a nested descriptor each is consumed and refused,
and so is a reserved descriptor; REFUSED is set and nothing else changes.  Every nested descriptor does
what `exec` says of its transaction while an evaluation is in progress.  That a refusal does not end
the evaluation and is handed to the observer is the model's choice (log 5, log 8). -/
def Obligations.SequencerTransactionsDoNotNest : Prop :=
  (∀ (s : State) (i : Instr) (rest : List Byte), s.evaluating = true →
    decode s.input = .ok i rest →
    exec i { s with input := rest } = .next (nestedStep s) ∧
    (i = .blit ∨ i = .geom → nestedStep s = { s with
      input := rest
      refused := true
      log := s.log ++ [.refusal .notAdmitted] }) ∧
    ((∃ l e n, i = .boot l e n) ∨ (∃ e v n, i = .frame e v n) → nestedStep s = { s with
      input := rest
      refused := true
      log := s.log ++ [.refusal .nestedSequencer] })) ∧
  (∀ (s : State) (e : DecodeError), decode s.input = .reject e → e ≠ .truncated →
    nestedStep s = { s with
      input := s.input.drop 9
      refused := true
      log := s.log ++ [.refusal (.reservedDescriptor e)] })

/-- A STOP that takes effect during a frame's evaluation does not shorten that frame: it runs whole,
with its output, and SD is left set for the next loop top. -/
def Obligations.StopInsideAFrameDoesNotShortenIt : Prop :=
  ∀ (s : State) (rest : List Byte), prompt s → s.evaluating = false → s.ph = .idle →
    s.sd = false → s.input = encodeBytes .stop ++ rest →
    ∃ t out, exec (.frame false false 1) s = .next t ∧ t.ph = .idle ∧ t.sd = true ∧
      t.input = rest ∧ .frame out ∈ t.log.drop s.log.length
end

