-- ==== Sys2Proof/Laws/State.lean ====
section
/-! SUPPORT. One lemma for each field and each update of the state, so that no later proof unfolds a
record update; and, for the points where HOST may step, one for each field that HOST never writes. -/

namespace Sys2Proof.Machine

/-! `emit`. -/
@[simp] theorem emit_cfg (e : Event) (s : State) : (emit e s).cfg = s.cfg := rfl
@[simp] theorem emit_rf (e : Event) (s : State) : (emit e s).rf = s.rf := rfl
@[simp] theorem emit_fbW (e : Event) (s : State) : (emit e s).fbW = s.fbW := rfl
@[simp] theorem emit_fbH (e : Event) (s : State) : (emit e s).fbH = s.fbH := rfl
@[simp] theorem emit_fb (e : Event) (s : State) : (emit e s).fb = s.fb := rfl
@[simp] theorem emit_fbGen (e : Event) (s : State) : (emit e s).fbGen = s.fbGen := rfl
@[simp] theorem emit_st (e : Event) (s : State) : (emit e s).st = s.st := rfl
@[simp] theorem emit_stGen (e : Event) (s : State) : (emit e s).stGen = s.stGen := rfl
@[simp] theorem emit_pal (e : Event) (s : State) : (emit e s).pal = s.pal := rfl
@[simp] theorem emit_psX (e : Event) (s : State) : (emit e s).psX = s.psX := rfl
@[simp] theorem emit_psY (e : Event) (s : State) : (emit e s).psY = s.psY := rfl
@[simp] theorem emit_psBtn (e : Event) (s : State) : (emit e s).psBtn = s.psBtn := rfl
@[simp] theorem emit_rz (e : Event) (s : State) : (emit e s).rz = s.rz := rfl
@[simp] theorem emit_sd (e : Event) (s : State) : (emit e s).sd = s.sd := rfl
@[simp] theorem emit_qw (e : Event) (s : State) : (emit e s).qw = s.qw := rfl
@[simp] theorem emit_qh (e : Event) (s : State) : (emit e s).qh = s.qh := rfl
@[simp] theorem emit_un (e : Event) (s : State) : (emit e s).un = s.un := rfl
@[simp] theorem emit_vn (e : Event) (s : State) : (emit e s).vn = s.vn := rfl
@[simp] theorem emit_ph (e : Event) (s : State) : (emit e s).ph = s.ph := rfl
@[simp] theorem emit_refused (e : Event) (s : State) : (emit e s).refused = s.refused := rfl
@[simp] theorem emit_evaluating (e : Event) (s : State) :
    (emit e s).evaluating = s.evaluating := rfl
@[simp] theorem emit_hstate (e : Event) (s : State) : (emit e s).hstate = s.hstate := rfl
@[simp] theorem emit_idx (e : Event) (s : State) : (emit e s).idx = s.idx := rfl
@[simp] theorem emit_input (e : Event) (s : State) : (emit e s).input = s.input := rfl
@[simp] theorem emit_hostTodo (e : Event) (s : State) : (emit e s).hostTodo = s.hostTodo := rfl
@[simp] theorem emit_sched (e : Event) (s : State) : (emit e s).sched = s.sched := rfl
@[simp] theorem emit_log (e : Event) (s : State) : (emit e s).log = s.log ++ [e] := rfl

/-! `raise`. -/
@[simp] theorem raise_cfg (x : XCond) (s : State) : (raise x s).cfg = s.cfg := rfl
@[simp] theorem raise_rf (x : XCond) (s : State) : (raise x s).rf = s.rf := rfl
@[simp] theorem raise_fbW (x : XCond) (s : State) : (raise x s).fbW = s.fbW := rfl
@[simp] theorem raise_fbH (x : XCond) (s : State) : (raise x s).fbH = s.fbH := rfl
@[simp] theorem raise_fb (x : XCond) (s : State) : (raise x s).fb = s.fb := rfl
@[simp] theorem raise_fbGen (x : XCond) (s : State) : (raise x s).fbGen = s.fbGen := rfl
@[simp] theorem raise_st (x : XCond) (s : State) : (raise x s).st = s.st := rfl
@[simp] theorem raise_stGen (x : XCond) (s : State) : (raise x s).stGen = s.stGen := rfl
@[simp] theorem raise_pal (x : XCond) (s : State) : (raise x s).pal = s.pal := rfl
@[simp] theorem raise_psX (x : XCond) (s : State) : (raise x s).psX = s.psX := rfl
@[simp] theorem raise_psY (x : XCond) (s : State) : (raise x s).psY = s.psY := rfl
@[simp] theorem raise_psBtn (x : XCond) (s : State) : (raise x s).psBtn = s.psBtn := rfl
@[simp] theorem raise_rz (x : XCond) (s : State) : (raise x s).rz = s.rz := rfl
@[simp] theorem raise_sd (x : XCond) (s : State) : (raise x s).sd = s.sd := rfl
@[simp] theorem raise_qw (x : XCond) (s : State) : (raise x s).qw = s.qw := rfl
@[simp] theorem raise_qh (x : XCond) (s : State) : (raise x s).qh = s.qh := rfl
@[simp] theorem raise_un (x : XCond) (s : State) : (raise x s).un = s.un := rfl
@[simp] theorem raise_vn (x : XCond) (s : State) : (raise x s).vn = s.vn := rfl
@[simp] theorem raise_ph (x : XCond) (s : State) : (raise x s).ph = s.ph := rfl
@[simp] theorem raise_refused (x : XCond) (s : State) : (raise x s).refused = s.refused := rfl
@[simp] theorem raise_evaluating (x : XCond) (s : State) :
    (raise x s).evaluating = s.evaluating := rfl
@[simp] theorem raise_hstate (x : XCond) (s : State) : (raise x s).hstate = s.hstate := rfl
@[simp] theorem raise_idx (x : XCond) (s : State) : (raise x s).idx = s.idx := rfl
@[simp] theorem raise_input (x : XCond) (s : State) : (raise x s).input = s.input := rfl
@[simp] theorem raise_hostTodo (x : XCond) (s : State) : (raise x s).hostTodo = s.hostTodo := rfl
@[simp] theorem raise_sched (x : XCond) (s : State) : (raise x s).sched = s.sched := rfl
@[simp] theorem raise_log (x : XCond) (s : State) : (raise x s).log = s.log ++ [.raised x] := rfl

/-! `setPhase`. -/
@[simp] theorem setPhase_cfg (p : Phase) (s : State) : (setPhase p s).cfg = s.cfg := rfl
@[simp] theorem setPhase_rf (p : Phase) (s : State) : (setPhase p s).rf = s.rf := rfl
@[simp] theorem setPhase_fbW (p : Phase) (s : State) : (setPhase p s).fbW = s.fbW := rfl
@[simp] theorem setPhase_fbH (p : Phase) (s : State) : (setPhase p s).fbH = s.fbH := rfl
@[simp] theorem setPhase_fb (p : Phase) (s : State) : (setPhase p s).fb = s.fb := rfl
@[simp] theorem setPhase_fbGen (p : Phase) (s : State) : (setPhase p s).fbGen = s.fbGen := rfl
@[simp] theorem setPhase_st (p : Phase) (s : State) : (setPhase p s).st = s.st := rfl
@[simp] theorem setPhase_stGen (p : Phase) (s : State) : (setPhase p s).stGen = s.stGen := rfl
@[simp] theorem setPhase_pal (p : Phase) (s : State) : (setPhase p s).pal = s.pal := rfl
@[simp] theorem setPhase_psX (p : Phase) (s : State) : (setPhase p s).psX = s.psX := rfl
@[simp] theorem setPhase_psY (p : Phase) (s : State) : (setPhase p s).psY = s.psY := rfl
@[simp] theorem setPhase_psBtn (p : Phase) (s : State) : (setPhase p s).psBtn = s.psBtn := rfl
@[simp] theorem setPhase_rz (p : Phase) (s : State) : (setPhase p s).rz = s.rz := rfl
@[simp] theorem setPhase_sd (p : Phase) (s : State) : (setPhase p s).sd = s.sd := rfl
@[simp] theorem setPhase_qw (p : Phase) (s : State) : (setPhase p s).qw = s.qw := rfl
@[simp] theorem setPhase_qh (p : Phase) (s : State) : (setPhase p s).qh = s.qh := rfl
@[simp] theorem setPhase_un (p : Phase) (s : State) : (setPhase p s).un = s.un := rfl
@[simp] theorem setPhase_vn (p : Phase) (s : State) : (setPhase p s).vn = s.vn := rfl
@[simp] theorem setPhase_ph (p : Phase) (s : State) : (setPhase p s).ph = p := rfl
@[simp] theorem setPhase_refused (p : Phase) (s : State) : (setPhase p s).refused = s.refused := rfl
@[simp] theorem setPhase_evaluating (p : Phase) (s : State) :
    (setPhase p s).evaluating = s.evaluating := rfl
@[simp] theorem setPhase_hstate (p : Phase) (s : State) : (setPhase p s).hstate = s.hstate := rfl
@[simp] theorem setPhase_idx (p : Phase) (s : State) : (setPhase p s).idx = s.idx := rfl
@[simp] theorem setPhase_input (p : Phase) (s : State) : (setPhase p s).input = s.input := rfl
@[simp] theorem setPhase_hostTodo (p : Phase) (s : State) :
    (setPhase p s).hostTodo = s.hostTodo := rfl
@[simp] theorem setPhase_sched (p : Phase) (s : State) : (setPhase p s).sched = s.sched := rfl
@[simp] theorem setPhase_log (p : Phase) (s : State) :
    (setPhase p s).log = s.log ++ [.phase p] := rfl

/-! `setRefused`. -/
@[simp] theorem setRefused_cfg (s : State) : (setRefused s).cfg = s.cfg := rfl
@[simp] theorem setRefused_rf (s : State) : (setRefused s).rf = s.rf := rfl
@[simp] theorem setRefused_fbW (s : State) : (setRefused s).fbW = s.fbW := rfl
@[simp] theorem setRefused_fbH (s : State) : (setRefused s).fbH = s.fbH := rfl
@[simp] theorem setRefused_fb (s : State) : (setRefused s).fb = s.fb := rfl
@[simp] theorem setRefused_fbGen (s : State) : (setRefused s).fbGen = s.fbGen := rfl
@[simp] theorem setRefused_st (s : State) : (setRefused s).st = s.st := rfl
@[simp] theorem setRefused_stGen (s : State) : (setRefused s).stGen = s.stGen := rfl
@[simp] theorem setRefused_pal (s : State) : (setRefused s).pal = s.pal := rfl
@[simp] theorem setRefused_psX (s : State) : (setRefused s).psX = s.psX := rfl
@[simp] theorem setRefused_psY (s : State) : (setRefused s).psY = s.psY := rfl
@[simp] theorem setRefused_psBtn (s : State) : (setRefused s).psBtn = s.psBtn := rfl
@[simp] theorem setRefused_rz (s : State) : (setRefused s).rz = s.rz := rfl
@[simp] theorem setRefused_sd (s : State) : (setRefused s).sd = s.sd := rfl
@[simp] theorem setRefused_qw (s : State) : (setRefused s).qw = s.qw := rfl
@[simp] theorem setRefused_qh (s : State) : (setRefused s).qh = s.qh := rfl
@[simp] theorem setRefused_un (s : State) : (setRefused s).un = s.un := rfl
@[simp] theorem setRefused_vn (s : State) : (setRefused s).vn = s.vn := rfl
@[simp] theorem setRefused_ph (s : State) : (setRefused s).ph = s.ph := rfl
@[simp] theorem setRefused_refused (s : State) : (setRefused s).refused = true := rfl
@[simp] theorem setRefused_evaluating (s : State) : (setRefused s).evaluating = s.evaluating := rfl
@[simp] theorem setRefused_hstate (s : State) : (setRefused s).hstate = s.hstate := rfl
@[simp] theorem setRefused_idx (s : State) : (setRefused s).idx = s.idx := rfl
@[simp] theorem setRefused_input (s : State) : (setRefused s).input = s.input := rfl
@[simp] theorem setRefused_hostTodo (s : State) : (setRefused s).hostTodo = s.hostTodo := rfl
@[simp] theorem setRefused_sched (s : State) : (setRefused s).sched = s.sched := rfl
@[simp] theorem setRefused_log (s : State) : (setRefused s).log = s.log := rfl

/-! `refuse`. -/
@[simp] theorem refuse_cfg (r : RefuseReason) (s : State) : (refuse r s).cfg = s.cfg := rfl
@[simp] theorem refuse_rf (r : RefuseReason) (s : State) : (refuse r s).rf = s.rf := rfl
@[simp] theorem refuse_fbW (r : RefuseReason) (s : State) : (refuse r s).fbW = s.fbW := rfl
@[simp] theorem refuse_fbH (r : RefuseReason) (s : State) : (refuse r s).fbH = s.fbH := rfl
@[simp] theorem refuse_fb (r : RefuseReason) (s : State) : (refuse r s).fb = s.fb := rfl
@[simp] theorem refuse_fbGen (r : RefuseReason) (s : State) : (refuse r s).fbGen = s.fbGen := rfl
@[simp] theorem refuse_st (r : RefuseReason) (s : State) : (refuse r s).st = s.st := rfl
@[simp] theorem refuse_stGen (r : RefuseReason) (s : State) : (refuse r s).stGen = s.stGen := rfl
@[simp] theorem refuse_pal (r : RefuseReason) (s : State) : (refuse r s).pal = s.pal := rfl
@[simp] theorem refuse_psX (r : RefuseReason) (s : State) : (refuse r s).psX = s.psX := rfl
@[simp] theorem refuse_psY (r : RefuseReason) (s : State) : (refuse r s).psY = s.psY := rfl
@[simp] theorem refuse_psBtn (r : RefuseReason) (s : State) : (refuse r s).psBtn = s.psBtn := rfl
@[simp] theorem refuse_rz (r : RefuseReason) (s : State) : (refuse r s).rz = s.rz := rfl
@[simp] theorem refuse_sd (r : RefuseReason) (s : State) : (refuse r s).sd = s.sd := rfl
@[simp] theorem refuse_qw (r : RefuseReason) (s : State) : (refuse r s).qw = s.qw := rfl
@[simp] theorem refuse_qh (r : RefuseReason) (s : State) : (refuse r s).qh = s.qh := rfl
@[simp] theorem refuse_un (r : RefuseReason) (s : State) : (refuse r s).un = s.un := rfl
@[simp] theorem refuse_vn (r : RefuseReason) (s : State) : (refuse r s).vn = s.vn := rfl
@[simp] theorem refuse_ph (r : RefuseReason) (s : State) : (refuse r s).ph = s.ph := rfl
@[simp] theorem refuse_refused (r : RefuseReason) (s : State) : (refuse r s).refused = true := rfl
@[simp] theorem refuse_evaluating (r : RefuseReason) (s : State) :
    (refuse r s).evaluating = s.evaluating := rfl
@[simp] theorem refuse_hstate (r : RefuseReason) (s : State) : (refuse r s).hstate = s.hstate := rfl
@[simp] theorem refuse_idx (r : RefuseReason) (s : State) : (refuse r s).idx = s.idx := rfl
@[simp] theorem refuse_input (r : RefuseReason) (s : State) : (refuse r s).input = s.input := rfl
@[simp] theorem refuse_hostTodo (r : RefuseReason) (s : State) :
    (refuse r s).hostTodo = s.hostTodo := rfl
@[simp] theorem refuse_sched (r : RefuseReason) (s : State) : (refuse r s).sched = s.sched := rfl
@[simp] theorem refuse_log (r : RefuseReason) (s : State) :
    (refuse r s).log = s.log ++ [.refusal r] := rfl

/-! `setResizePending`. -/
@[simp] theorem setResizePending_cfg (s : State) : (setResizePending s).cfg = s.cfg := rfl
@[simp] theorem setResizePending_rf (s : State) : (setResizePending s).rf = s.rf := rfl
@[simp] theorem setResizePending_fbW (s : State) : (setResizePending s).fbW = s.fbW := rfl
@[simp] theorem setResizePending_fbH (s : State) : (setResizePending s).fbH = s.fbH := rfl
@[simp] theorem setResizePending_fb (s : State) : (setResizePending s).fb = s.fb := rfl
@[simp] theorem setResizePending_fbGen (s : State) : (setResizePending s).fbGen = s.fbGen := rfl
@[simp] theorem setResizePending_st (s : State) : (setResizePending s).st = s.st := rfl
@[simp] theorem setResizePending_stGen (s : State) : (setResizePending s).stGen = s.stGen := rfl
@[simp] theorem setResizePending_pal (s : State) : (setResizePending s).pal = s.pal := rfl
@[simp] theorem setResizePending_psX (s : State) : (setResizePending s).psX = s.psX := rfl
@[simp] theorem setResizePending_psY (s : State) : (setResizePending s).psY = s.psY := rfl
@[simp] theorem setResizePending_psBtn (s : State) : (setResizePending s).psBtn = s.psBtn := rfl
@[simp] theorem setResizePending_rz (s : State) : (setResizePending s).rz = true := rfl
@[simp] theorem setResizePending_sd (s : State) : (setResizePending s).sd = s.sd := rfl
@[simp] theorem setResizePending_qw (s : State) : (setResizePending s).qw = s.qw := rfl
@[simp] theorem setResizePending_qh (s : State) : (setResizePending s).qh = s.qh := rfl
@[simp] theorem setResizePending_un (s : State) : (setResizePending s).un = s.un := rfl
@[simp] theorem setResizePending_vn (s : State) : (setResizePending s).vn = s.vn := rfl
@[simp] theorem setResizePending_ph (s : State) : (setResizePending s).ph = s.ph := rfl
@[simp] theorem setResizePending_refused (s : State) :
    (setResizePending s).refused = s.refused := rfl
@[simp] theorem setResizePending_evaluating (s : State) :
    (setResizePending s).evaluating = s.evaluating := rfl
@[simp] theorem setResizePending_hstate (s : State) : (setResizePending s).hstate = s.hstate := rfl
@[simp] theorem setResizePending_idx (s : State) : (setResizePending s).idx = s.idx := rfl
@[simp] theorem setResizePending_input (s : State) : (setResizePending s).input = s.input := rfl
@[simp] theorem setResizePending_hostTodo (s : State) :
    (setResizePending s).hostTodo = s.hostTodo := rfl
@[simp] theorem setResizePending_sched (s : State) : (setResizePending s).sched = s.sched := rfl
@[simp] theorem setResizePending_log (s : State) : (setResizePending s).log = s.log := rfl

/-! `clearResizePending`. -/
@[simp] theorem clearResizePending_cfg (s : State) : (clearResizePending s).cfg = s.cfg := rfl
@[simp] theorem clearResizePending_rf (s : State) : (clearResizePending s).rf = s.rf := rfl
@[simp] theorem clearResizePending_fbW (s : State) : (clearResizePending s).fbW = s.fbW := rfl
@[simp] theorem clearResizePending_fbH (s : State) : (clearResizePending s).fbH = s.fbH := rfl
@[simp] theorem clearResizePending_fb (s : State) : (clearResizePending s).fb = s.fb := rfl
@[simp] theorem clearResizePending_fbGen (s : State) : (clearResizePending s).fbGen = s.fbGen := rfl
@[simp] theorem clearResizePending_st (s : State) : (clearResizePending s).st = s.st := rfl
@[simp] theorem clearResizePending_stGen (s : State) : (clearResizePending s).stGen = s.stGen := rfl
@[simp] theorem clearResizePending_pal (s : State) : (clearResizePending s).pal = s.pal := rfl
@[simp] theorem clearResizePending_psX (s : State) : (clearResizePending s).psX = s.psX := rfl
@[simp] theorem clearResizePending_psY (s : State) : (clearResizePending s).psY = s.psY := rfl
@[simp] theorem clearResizePending_psBtn (s : State) : (clearResizePending s).psBtn = s.psBtn := rfl
@[simp] theorem clearResizePending_rz (s : State) : (clearResizePending s).rz = false := rfl
@[simp] theorem clearResizePending_sd (s : State) : (clearResizePending s).sd = s.sd := rfl
@[simp] theorem clearResizePending_qw (s : State) : (clearResizePending s).qw = s.qw := rfl
@[simp] theorem clearResizePending_qh (s : State) : (clearResizePending s).qh = s.qh := rfl
@[simp] theorem clearResizePending_un (s : State) : (clearResizePending s).un = s.un := rfl
@[simp] theorem clearResizePending_vn (s : State) : (clearResizePending s).vn = s.vn := rfl
@[simp] theorem clearResizePending_ph (s : State) : (clearResizePending s).ph = s.ph := rfl
@[simp] theorem clearResizePending_refused (s : State) :
    (clearResizePending s).refused = s.refused := rfl
@[simp] theorem clearResizePending_evaluating (s : State) :
    (clearResizePending s).evaluating = s.evaluating := rfl
@[simp] theorem clearResizePending_hstate (s : State) :
    (clearResizePending s).hstate = s.hstate := rfl
@[simp] theorem clearResizePending_idx (s : State) : (clearResizePending s).idx = s.idx := rfl
@[simp] theorem clearResizePending_input (s : State) : (clearResizePending s).input = s.input := rfl
@[simp] theorem clearResizePending_hostTodo (s : State) :
    (clearResizePending s).hostTodo = s.hostTodo := rfl
@[simp] theorem clearResizePending_sched (s : State) : (clearResizePending s).sched = s.sched := rfl
@[simp] theorem clearResizePending_log (s : State) : (clearResizePending s).log = s.log := rfl

/-! `setShutdown`. -/
@[simp] theorem setShutdown_cfg (s : State) : (setShutdown s).cfg = s.cfg := rfl
@[simp] theorem setShutdown_rf (s : State) : (setShutdown s).rf = s.rf := rfl
@[simp] theorem setShutdown_fbW (s : State) : (setShutdown s).fbW = s.fbW := rfl
@[simp] theorem setShutdown_fbH (s : State) : (setShutdown s).fbH = s.fbH := rfl
@[simp] theorem setShutdown_fb (s : State) : (setShutdown s).fb = s.fb := rfl
@[simp] theorem setShutdown_fbGen (s : State) : (setShutdown s).fbGen = s.fbGen := rfl
@[simp] theorem setShutdown_st (s : State) : (setShutdown s).st = s.st := rfl
@[simp] theorem setShutdown_stGen (s : State) : (setShutdown s).stGen = s.stGen := rfl
@[simp] theorem setShutdown_pal (s : State) : (setShutdown s).pal = s.pal := rfl
@[simp] theorem setShutdown_psX (s : State) : (setShutdown s).psX = s.psX := rfl
@[simp] theorem setShutdown_psY (s : State) : (setShutdown s).psY = s.psY := rfl
@[simp] theorem setShutdown_psBtn (s : State) : (setShutdown s).psBtn = s.psBtn := rfl
@[simp] theorem setShutdown_rz (s : State) : (setShutdown s).rz = s.rz := rfl
@[simp] theorem setShutdown_sd (s : State) : (setShutdown s).sd = true := rfl
@[simp] theorem setShutdown_qw (s : State) : (setShutdown s).qw = s.qw := rfl
@[simp] theorem setShutdown_qh (s : State) : (setShutdown s).qh = s.qh := rfl
@[simp] theorem setShutdown_un (s : State) : (setShutdown s).un = s.un := rfl
@[simp] theorem setShutdown_vn (s : State) : (setShutdown s).vn = s.vn := rfl
@[simp] theorem setShutdown_ph (s : State) : (setShutdown s).ph = s.ph := rfl
@[simp] theorem setShutdown_refused (s : State) : (setShutdown s).refused = s.refused := rfl
@[simp] theorem setShutdown_evaluating (s : State) :
    (setShutdown s).evaluating = s.evaluating := rfl
@[simp] theorem setShutdown_hstate (s : State) : (setShutdown s).hstate = s.hstate := rfl
@[simp] theorem setShutdown_idx (s : State) : (setShutdown s).idx = s.idx := rfl
@[simp] theorem setShutdown_input (s : State) : (setShutdown s).input = s.input := rfl
@[simp] theorem setShutdown_hostTodo (s : State) : (setShutdown s).hostTodo = s.hostTodo := rfl
@[simp] theorem setShutdown_sched (s : State) : (setShutdown s).sched = s.sched := rfl
@[simp] theorem setShutdown_log (s : State) : (setShutdown s).log = s.log := rfl

/-! `rfWrite`. -/
@[simp] theorem rfWrite_cfg (s : State) (a v : Byte) : (rfWrite s a v).cfg = s.cfg := rfl
@[simp] theorem rfWrite_rf (s : State) (a v : Byte) : (rfWrite s a v).rf = s.rf.write a v := rfl
@[simp] theorem rfWrite_fbW (s : State) (a v : Byte) : (rfWrite s a v).fbW = s.fbW := rfl
@[simp] theorem rfWrite_fbH (s : State) (a v : Byte) : (rfWrite s a v).fbH = s.fbH := rfl
@[simp] theorem rfWrite_fb (s : State) (a v : Byte) : (rfWrite s a v).fb = s.fb := rfl
@[simp] theorem rfWrite_fbGen (s : State) (a v : Byte) : (rfWrite s a v).fbGen = s.fbGen := rfl
@[simp] theorem rfWrite_st (s : State) (a v : Byte) : (rfWrite s a v).st = s.st := rfl
@[simp] theorem rfWrite_stGen (s : State) (a v : Byte) : (rfWrite s a v).stGen = s.stGen := rfl
@[simp] theorem rfWrite_pal (s : State) (a v : Byte) : (rfWrite s a v).pal = s.pal := rfl
@[simp] theorem rfWrite_psX (s : State) (a v : Byte) : (rfWrite s a v).psX = s.psX := rfl
@[simp] theorem rfWrite_psY (s : State) (a v : Byte) : (rfWrite s a v).psY = s.psY := rfl
@[simp] theorem rfWrite_psBtn (s : State) (a v : Byte) : (rfWrite s a v).psBtn = s.psBtn := rfl
@[simp] theorem rfWrite_rz (s : State) (a v : Byte) : (rfWrite s a v).rz = s.rz := rfl
@[simp] theorem rfWrite_sd (s : State) (a v : Byte) : (rfWrite s a v).sd = s.sd := rfl
@[simp] theorem rfWrite_qw (s : State) (a v : Byte) : (rfWrite s a v).qw = s.qw := rfl
@[simp] theorem rfWrite_qh (s : State) (a v : Byte) : (rfWrite s a v).qh = s.qh := rfl
@[simp] theorem rfWrite_un (s : State) (a v : Byte) : (rfWrite s a v).un = s.un := rfl
@[simp] theorem rfWrite_vn (s : State) (a v : Byte) : (rfWrite s a v).vn = s.vn := rfl
@[simp] theorem rfWrite_ph (s : State) (a v : Byte) : (rfWrite s a v).ph = s.ph := rfl
@[simp] theorem rfWrite_refused (s : State) (a v : Byte) :
    (rfWrite s a v).refused = s.refused := rfl
@[simp] theorem rfWrite_evaluating (s : State) (a v : Byte) :
    (rfWrite s a v).evaluating = s.evaluating := rfl
@[simp] theorem rfWrite_hstate (s : State) (a v : Byte) : (rfWrite s a v).hstate = s.hstate := rfl
@[simp] theorem rfWrite_idx (s : State) (a v : Byte) : (rfWrite s a v).idx = s.idx := rfl
@[simp] theorem rfWrite_input (s : State) (a v : Byte) : (rfWrite s a v).input = s.input := rfl
@[simp] theorem rfWrite_hostTodo (s : State) (a v : Byte) :
    (rfWrite s a v).hostTodo = s.hostTodo := rfl
@[simp] theorem rfWrite_sched (s : State) (a v : Byte) : (rfWrite s a v).sched = s.sched := rfl
@[simp] theorem rfWrite_log (s : State) (a v : Byte) : (rfWrite s a v).log = s.log := rfl

/-! `fbWrite`. -/
@[simp] theorem fbWrite_cfg (s : State) (i : Nat) (p : Pixel) : (fbWrite s i p).cfg = s.cfg := rfl
@[simp] theorem fbWrite_rf (s : State) (i : Nat) (p : Pixel) : (fbWrite s i p).rf = s.rf := rfl
@[simp] theorem fbWrite_fbW (s : State) (i : Nat) (p : Pixel) : (fbWrite s i p).fbW = s.fbW := rfl
@[simp] theorem fbWrite_fbH (s : State) (i : Nat) (p : Pixel) : (fbWrite s i p).fbH = s.fbH := rfl
@[simp] theorem fbWrite_fb (s : State) (i : Nat) (p : Pixel) :
    (fbWrite s i p).fb = cellPut s.fb i p := rfl
@[simp] theorem fbWrite_fbGen (s : State) (i : Nat) (p : Pixel) :
    (fbWrite s i p).fbGen = s.fbGen := rfl
@[simp] theorem fbWrite_st (s : State) (i : Nat) (p : Pixel) : (fbWrite s i p).st = s.st := rfl
@[simp] theorem fbWrite_stGen (s : State) (i : Nat) (p : Pixel) :
    (fbWrite s i p).stGen = s.stGen := rfl
@[simp] theorem fbWrite_pal (s : State) (i : Nat) (p : Pixel) : (fbWrite s i p).pal = s.pal := rfl
@[simp] theorem fbWrite_psX (s : State) (i : Nat) (p : Pixel) : (fbWrite s i p).psX = s.psX := rfl
@[simp] theorem fbWrite_psY (s : State) (i : Nat) (p : Pixel) : (fbWrite s i p).psY = s.psY := rfl
@[simp] theorem fbWrite_psBtn (s : State) (i : Nat) (p : Pixel) :
    (fbWrite s i p).psBtn = s.psBtn := rfl
@[simp] theorem fbWrite_rz (s : State) (i : Nat) (p : Pixel) : (fbWrite s i p).rz = s.rz := rfl
@[simp] theorem fbWrite_sd (s : State) (i : Nat) (p : Pixel) : (fbWrite s i p).sd = s.sd := rfl
@[simp] theorem fbWrite_qw (s : State) (i : Nat) (p : Pixel) : (fbWrite s i p).qw = s.qw := rfl
@[simp] theorem fbWrite_qh (s : State) (i : Nat) (p : Pixel) : (fbWrite s i p).qh = s.qh := rfl
@[simp] theorem fbWrite_un (s : State) (i : Nat) (p : Pixel) : (fbWrite s i p).un = s.un := rfl
@[simp] theorem fbWrite_vn (s : State) (i : Nat) (p : Pixel) : (fbWrite s i p).vn = s.vn := rfl
@[simp] theorem fbWrite_ph (s : State) (i : Nat) (p : Pixel) : (fbWrite s i p).ph = s.ph := rfl
@[simp] theorem fbWrite_refused (s : State) (i : Nat) (p : Pixel) :
    (fbWrite s i p).refused = s.refused := rfl
@[simp] theorem fbWrite_evaluating (s : State) (i : Nat) (p : Pixel) :
    (fbWrite s i p).evaluating = s.evaluating := rfl
@[simp] theorem fbWrite_hstate (s : State) (i : Nat) (p : Pixel) :
    (fbWrite s i p).hstate = s.hstate := rfl
@[simp] theorem fbWrite_idx (s : State) (i : Nat) (p : Pixel) : (fbWrite s i p).idx = s.idx := rfl
@[simp] theorem fbWrite_input (s : State) (i : Nat) (p : Pixel) :
    (fbWrite s i p).input = s.input := rfl
@[simp] theorem fbWrite_hostTodo (s : State) (i : Nat) (p : Pixel) :
    (fbWrite s i p).hostTodo = s.hostTodo := rfl
@[simp] theorem fbWrite_sched (s : State) (i : Nat) (p : Pixel) :
    (fbWrite s i p).sched = s.sched := rfl
@[simp] theorem fbWrite_log (s : State) (i : Nat) (p : Pixel) : (fbWrite s i p).log = s.log := rfl

/-! `reallocate`. -/
@[simp] theorem reallocate_cfg (w h : Nat) (s : State) : (reallocate w h s).cfg = s.cfg := rfl
@[simp] theorem reallocate_rf (w h : Nat) (s : State) : (reallocate w h s).rf = s.rf := rfl
@[simp] theorem reallocate_fbW (w h : Nat) (s : State) :
    (reallocate w h s).fbW = BitVec.ofNat 16 w := rfl
@[simp] theorem reallocate_fbH (w h : Nat) (s : State) :
    (reallocate w h s).fbH = BitVec.ofNat 16 h := rfl
@[simp] theorem reallocate_fb (w h : Nat) (s : State) : (reallocate w h s).fb = [] := rfl
@[simp] theorem reallocate_fbGen (w h : Nat) (s : State) :
    (reallocate w h s).fbGen = s.fbGen + 1 := rfl
@[simp] theorem reallocate_st (w h : Nat) (s : State) : (reallocate w h s).st = s.st := rfl
@[simp] theorem reallocate_stGen (w h : Nat) (s : State) : (reallocate w h s).stGen = s.stGen := rfl
@[simp] theorem reallocate_pal (w h : Nat) (s : State) : (reallocate w h s).pal = s.pal := rfl
@[simp] theorem reallocate_psX (w h : Nat) (s : State) : (reallocate w h s).psX = s.psX := rfl
@[simp] theorem reallocate_psY (w h : Nat) (s : State) : (reallocate w h s).psY = s.psY := rfl
@[simp] theorem reallocate_psBtn (w h : Nat) (s : State) : (reallocate w h s).psBtn = s.psBtn := rfl
@[simp] theorem reallocate_rz (w h : Nat) (s : State) : (reallocate w h s).rz = true := rfl
@[simp] theorem reallocate_sd (w h : Nat) (s : State) : (reallocate w h s).sd = s.sd := rfl
@[simp] theorem reallocate_qw (w h : Nat) (s : State) : (reallocate w h s).qw = s.qw := rfl
@[simp] theorem reallocate_qh (w h : Nat) (s : State) : (reallocate w h s).qh = s.qh := rfl
@[simp] theorem reallocate_un (w h : Nat) (s : State) : (reallocate w h s).un = s.un := rfl
@[simp] theorem reallocate_vn (w h : Nat) (s : State) : (reallocate w h s).vn = s.vn := rfl
@[simp] theorem reallocate_ph (w h : Nat) (s : State) : (reallocate w h s).ph = s.ph := rfl
@[simp] theorem reallocate_refused (w h : Nat) (s : State) :
    (reallocate w h s).refused = s.refused := rfl
@[simp] theorem reallocate_evaluating (w h : Nat) (s : State) :
    (reallocate w h s).evaluating = s.evaluating := rfl
@[simp] theorem reallocate_hstate (w h : Nat) (s : State) :
    (reallocate w h s).hstate = s.hstate := rfl
@[simp] theorem reallocate_idx (w h : Nat) (s : State) : (reallocate w h s).idx = [] := rfl
@[simp] theorem reallocate_input (w h : Nat) (s : State) : (reallocate w h s).input = s.input := rfl
@[simp] theorem reallocate_hostTodo (w h : Nat) (s : State) :
    (reallocate w h s).hostTodo = s.hostTodo := rfl
@[simp] theorem reallocate_sched (w h : Nat) (s : State) : (reallocate w h s).sched = s.sched := rfl
@[simp] theorem reallocate_log (w h : Nat) (s : State) : (reallocate w h s).log = s.log := rfl

/-! `convert`. -/
@[simp] theorem convert_cfg (s : State) : (convert s).cfg = s.cfg := rfl
@[simp] theorem convert_rf (s : State) : (convert s).rf = s.rf := rfl
@[simp] theorem convert_fbW (s : State) : (convert s).fbW = s.fbW := rfl
@[simp] theorem convert_fbH (s : State) : (convert s).fbH = s.fbH := rfl
@[simp] theorem convert_fb (s : State) : (convert s).fb = s.fb := rfl
@[simp] theorem convert_fbGen (s : State) : (convert s).fbGen = s.fbGen := rfl
@[simp] theorem convert_st (s : State) : (convert s).st = cellOverlay (blitCells s) s.st := rfl
@[simp] theorem convert_stGen (s : State) : (convert s).stGen = s.stGen := rfl
@[simp] theorem convert_pal (s : State) : (convert s).pal = s.pal := rfl
@[simp] theorem convert_psX (s : State) : (convert s).psX = s.psX := rfl
@[simp] theorem convert_psY (s : State) : (convert s).psY = s.psY := rfl
@[simp] theorem convert_psBtn (s : State) : (convert s).psBtn = s.psBtn := rfl
@[simp] theorem convert_rz (s : State) : (convert s).rz = s.rz := rfl
@[simp] theorem convert_sd (s : State) : (convert s).sd = s.sd := rfl
@[simp] theorem convert_qw (s : State) : (convert s).qw = s.qw := rfl
@[simp] theorem convert_qh (s : State) : (convert s).qh = s.qh := rfl
@[simp] theorem convert_un (s : State) : (convert s).un = s.un := rfl
@[simp] theorem convert_vn (s : State) : (convert s).vn = s.vn := rfl
@[simp] theorem convert_ph (s : State) : (convert s).ph = s.ph := rfl
@[simp] theorem convert_refused (s : State) : (convert s).refused = s.refused := rfl
@[simp] theorem convert_evaluating (s : State) : (convert s).evaluating = s.evaluating := rfl
@[simp] theorem convert_hstate (s : State) : (convert s).hstate = s.hstate := rfl
@[simp] theorem convert_idx (s : State) : (convert s).idx = s.idx := rfl
@[simp] theorem convert_input (s : State) : (convert s).input = s.input := rfl
@[simp] theorem convert_hostTodo (s : State) : (convert s).hostTodo = s.hostTodo := rfl
@[simp] theorem convert_sched (s : State) : (convert s).sched = s.sched := rfl
@[simp] theorem convert_log (s : State) : (convert s).log = s.log := rfl

/-! `recreateStaging`. -/
@[simp] theorem recreateStaging_cfg (s : State) : (recreateStaging s).cfg = s.cfg := rfl
@[simp] theorem recreateStaging_rf (s : State) : (recreateStaging s).rf = s.rf := rfl
@[simp] theorem recreateStaging_fbW (s : State) : (recreateStaging s).fbW = s.fbW := rfl
@[simp] theorem recreateStaging_fbH (s : State) : (recreateStaging s).fbH = s.fbH := rfl
@[simp] theorem recreateStaging_fb (s : State) : (recreateStaging s).fb = s.fb := rfl
@[simp] theorem recreateStaging_fbGen (s : State) : (recreateStaging s).fbGen = s.fbGen := rfl
@[simp] theorem recreateStaging_st (s : State) : (recreateStaging s).st = [] := rfl
@[simp] theorem recreateStaging_stGen (s : State) : (recreateStaging s).stGen = s.stGen + 1 := rfl
@[simp] theorem recreateStaging_pal (s : State) : (recreateStaging s).pal = s.pal := rfl
@[simp] theorem recreateStaging_psX (s : State) : (recreateStaging s).psX = s.psX := rfl
@[simp] theorem recreateStaging_psY (s : State) : (recreateStaging s).psY = s.psY := rfl
@[simp] theorem recreateStaging_psBtn (s : State) : (recreateStaging s).psBtn = s.psBtn := rfl
@[simp] theorem recreateStaging_rz (s : State) : (recreateStaging s).rz = s.rz := rfl
@[simp] theorem recreateStaging_sd (s : State) : (recreateStaging s).sd = s.sd := rfl
@[simp] theorem recreateStaging_qw (s : State) : (recreateStaging s).qw = s.qw := rfl
@[simp] theorem recreateStaging_qh (s : State) : (recreateStaging s).qh = s.qh := rfl
@[simp] theorem recreateStaging_un (s : State) : (recreateStaging s).un = s.un := rfl
@[simp] theorem recreateStaging_vn (s : State) : (recreateStaging s).vn = s.vn := rfl
@[simp] theorem recreateStaging_ph (s : State) : (recreateStaging s).ph = s.ph := rfl
@[simp] theorem recreateStaging_refused (s : State) : (recreateStaging s).refused = s.refused := rfl
@[simp] theorem recreateStaging_evaluating (s : State) :
    (recreateStaging s).evaluating = s.evaluating := rfl
@[simp] theorem recreateStaging_hstate (s : State) : (recreateStaging s).hstate = s.hstate := rfl
@[simp] theorem recreateStaging_idx (s : State) : (recreateStaging s).idx = s.idx := rfl
@[simp] theorem recreateStaging_input (s : State) : (recreateStaging s).input = s.input := rfl
@[simp] theorem recreateStaging_hostTodo (s : State) :
    (recreateStaging s).hostTodo = s.hostTodo := rfl
@[simp] theorem recreateStaging_sched (s : State) : (recreateStaging s).sched = s.sched := rfl
@[simp] theorem recreateStaging_log (s : State) : (recreateStaging s).log = s.log := rfl

/-! `callEvaluate`. -/
@[simp] theorem callEvaluate_cfg (entry : Half) (s : State) :
    (callEvaluate entry s).cfg = s.cfg := rfl
@[simp] theorem callEvaluate_rf (entry : Half) (s : State) : (callEvaluate entry s).rf = s.rf := rfl
@[simp] theorem callEvaluate_fbW (entry : Half) (s : State) :
    (callEvaluate entry s).fbW = s.fbW := rfl
@[simp] theorem callEvaluate_fbH (entry : Half) (s : State) :
    (callEvaluate entry s).fbH = s.fbH := rfl
@[simp] theorem callEvaluate_fb (entry : Half) (s : State) : (callEvaluate entry s).fb = s.fb := rfl
@[simp] theorem callEvaluate_fbGen (entry : Half) (s : State) :
    (callEvaluate entry s).fbGen = s.fbGen := rfl
@[simp] theorem callEvaluate_st (entry : Half) (s : State) : (callEvaluate entry s).st = s.st := rfl
@[simp] theorem callEvaluate_stGen (entry : Half) (s : State) :
    (callEvaluate entry s).stGen = s.stGen := rfl
@[simp] theorem callEvaluate_pal (entry : Half) (s : State) :
    (callEvaluate entry s).pal = s.pal := rfl
@[simp] theorem callEvaluate_psX (entry : Half) (s : State) :
    (callEvaluate entry s).psX = s.psX := rfl
@[simp] theorem callEvaluate_psY (entry : Half) (s : State) :
    (callEvaluate entry s).psY = s.psY := rfl
@[simp] theorem callEvaluate_psBtn (entry : Half) (s : State) :
    (callEvaluate entry s).psBtn = s.psBtn := rfl
@[simp] theorem callEvaluate_rz (entry : Half) (s : State) : (callEvaluate entry s).rz = s.rz := rfl
@[simp] theorem callEvaluate_sd (entry : Half) (s : State) : (callEvaluate entry s).sd = s.sd := rfl
@[simp] theorem callEvaluate_qw (entry : Half) (s : State) : (callEvaluate entry s).qw = s.qw := rfl
@[simp] theorem callEvaluate_qh (entry : Half) (s : State) : (callEvaluate entry s).qh = s.qh := rfl
@[simp] theorem callEvaluate_un (entry : Half) (s : State) : (callEvaluate entry s).un = s.un := rfl
@[simp] theorem callEvaluate_vn (entry : Half) (s : State) : (callEvaluate entry s).vn = s.vn := rfl
@[simp] theorem callEvaluate_ph (entry : Half) (s : State) : (callEvaluate entry s).ph = s.ph := rfl
@[simp] theorem callEvaluate_refused (entry : Half) (s : State) :
    (callEvaluate entry s).refused = s.refused := rfl
@[simp] theorem callEvaluate_evaluating (entry : Half) (s : State) :
    (callEvaluate entry s).evaluating = true := rfl
@[simp] theorem callEvaluate_hstate (entry : Half) (s : State) :
    (callEvaluate entry s).hstate = s.hstate := rfl
@[simp] theorem callEvaluate_idx (entry : Half) (s : State) :
    (callEvaluate entry s).idx = s.idx := rfl
@[simp] theorem callEvaluate_input (entry : Half) (s : State) :
    (callEvaluate entry s).input = s.input := rfl
@[simp] theorem callEvaluate_hostTodo (entry : Half) (s : State) :
    (callEvaluate entry s).hostTodo = s.hostTodo := rfl
@[simp] theorem callEvaluate_sched (entry : Half) (s : State) :
    (callEvaluate entry s).sched = s.sched := rfl
@[simp] theorem callEvaluate_log (entry : Half) (s : State) :
    (callEvaluate entry s).log = s.log ++ [.evaluate entry] := rfl

/-! `returnEvaluate`. -/
@[simp] theorem returnEvaluate_cfg (s : State) : (returnEvaluate s).cfg = s.cfg := rfl
@[simp] theorem returnEvaluate_rf (s : State) : (returnEvaluate s).rf = s.rf := rfl
@[simp] theorem returnEvaluate_fbW (s : State) : (returnEvaluate s).fbW = s.fbW := rfl
@[simp] theorem returnEvaluate_fbH (s : State) : (returnEvaluate s).fbH = s.fbH := rfl
@[simp] theorem returnEvaluate_fb (s : State) : (returnEvaluate s).fb = s.fb := rfl
@[simp] theorem returnEvaluate_fbGen (s : State) : (returnEvaluate s).fbGen = s.fbGen := rfl
@[simp] theorem returnEvaluate_st (s : State) : (returnEvaluate s).st = s.st := rfl
@[simp] theorem returnEvaluate_stGen (s : State) : (returnEvaluate s).stGen = s.stGen := rfl
@[simp] theorem returnEvaluate_pal (s : State) : (returnEvaluate s).pal = s.pal := rfl
@[simp] theorem returnEvaluate_psX (s : State) : (returnEvaluate s).psX = s.psX := rfl
@[simp] theorem returnEvaluate_psY (s : State) : (returnEvaluate s).psY = s.psY := rfl
@[simp] theorem returnEvaluate_psBtn (s : State) : (returnEvaluate s).psBtn = s.psBtn := rfl
@[simp] theorem returnEvaluate_rz (s : State) : (returnEvaluate s).rz = s.rz := rfl
@[simp] theorem returnEvaluate_sd (s : State) : (returnEvaluate s).sd = s.sd := rfl
@[simp] theorem returnEvaluate_qw (s : State) : (returnEvaluate s).qw = s.qw := rfl
@[simp] theorem returnEvaluate_qh (s : State) : (returnEvaluate s).qh = s.qh := rfl
@[simp] theorem returnEvaluate_un (s : State) : (returnEvaluate s).un = s.un := rfl
@[simp] theorem returnEvaluate_vn (s : State) : (returnEvaluate s).vn = s.vn := rfl
@[simp] theorem returnEvaluate_ph (s : State) : (returnEvaluate s).ph = s.ph := rfl
@[simp] theorem returnEvaluate_refused (s : State) : (returnEvaluate s).refused = s.refused := rfl
@[simp] theorem returnEvaluate_evaluating (s : State) : (returnEvaluate s).evaluating = false := rfl
@[simp] theorem returnEvaluate_hstate (s : State) : (returnEvaluate s).hstate = s.hstate := rfl
@[simp] theorem returnEvaluate_idx (s : State) : (returnEvaluate s).idx = s.idx := rfl
@[simp] theorem returnEvaluate_input (s : State) : (returnEvaluate s).input = s.input := rfl
@[simp] theorem returnEvaluate_hostTodo (s : State) :
    (returnEvaluate s).hostTodo = s.hostTodo := rfl
@[simp] theorem returnEvaluate_sched (s : State) : (returnEvaluate s).sched = s.sched := rfl
@[simp] theorem returnEvaluate_log (s : State) : (returnEvaluate s).log = s.log := rfl

/-! `hstateWrite`. -/
@[simp] theorem hstateWrite_cfg (slot : Nibble) (v : Nat) (s : State) :
    (hstateWrite slot v s).cfg = s.cfg := rfl
@[simp] theorem hstateWrite_rf (slot : Nibble) (v : Nat) (s : State) :
    (hstateWrite slot v s).rf = s.rf := rfl
@[simp] theorem hstateWrite_fbW (slot : Nibble) (v : Nat) (s : State) :
    (hstateWrite slot v s).fbW = s.fbW := rfl
@[simp] theorem hstateWrite_fbH (slot : Nibble) (v : Nat) (s : State) :
    (hstateWrite slot v s).fbH = s.fbH := rfl
@[simp] theorem hstateWrite_fb (slot : Nibble) (v : Nat) (s : State) :
    (hstateWrite slot v s).fb = s.fb := rfl
@[simp] theorem hstateWrite_fbGen (slot : Nibble) (v : Nat) (s : State) :
    (hstateWrite slot v s).fbGen = s.fbGen := rfl
@[simp] theorem hstateWrite_st (slot : Nibble) (v : Nat) (s : State) :
    (hstateWrite slot v s).st = s.st := rfl
@[simp] theorem hstateWrite_stGen (slot : Nibble) (v : Nat) (s : State) :
    (hstateWrite slot v s).stGen = s.stGen := rfl
@[simp] theorem hstateWrite_pal (slot : Nibble) (v : Nat) (s : State) :
    (hstateWrite slot v s).pal = s.pal := rfl
@[simp] theorem hstateWrite_psX (slot : Nibble) (v : Nat) (s : State) :
    (hstateWrite slot v s).psX = s.psX := rfl
@[simp] theorem hstateWrite_psY (slot : Nibble) (v : Nat) (s : State) :
    (hstateWrite slot v s).psY = s.psY := rfl
@[simp] theorem hstateWrite_psBtn (slot : Nibble) (v : Nat) (s : State) :
    (hstateWrite slot v s).psBtn = s.psBtn := rfl
@[simp] theorem hstateWrite_rz (slot : Nibble) (v : Nat) (s : State) :
    (hstateWrite slot v s).rz = s.rz := rfl
@[simp] theorem hstateWrite_sd (slot : Nibble) (v : Nat) (s : State) :
    (hstateWrite slot v s).sd = s.sd := rfl
@[simp] theorem hstateWrite_qw (slot : Nibble) (v : Nat) (s : State) :
    (hstateWrite slot v s).qw = s.qw := rfl
@[simp] theorem hstateWrite_qh (slot : Nibble) (v : Nat) (s : State) :
    (hstateWrite slot v s).qh = s.qh := rfl
@[simp] theorem hstateWrite_un (slot : Nibble) (v : Nat) (s : State) :
    (hstateWrite slot v s).un = s.un := rfl
@[simp] theorem hstateWrite_vn (slot : Nibble) (v : Nat) (s : State) :
    (hstateWrite slot v s).vn = s.vn := rfl
@[simp] theorem hstateWrite_ph (slot : Nibble) (v : Nat) (s : State) :
    (hstateWrite slot v s).ph = s.ph := rfl
@[simp] theorem hstateWrite_refused (slot : Nibble) (v : Nat) (s : State) :
    (hstateWrite slot v s).refused = s.refused := rfl
@[simp] theorem hstateWrite_evaluating (slot : Nibble) (v : Nat) (s : State) :
    (hstateWrite slot v s).evaluating = s.evaluating := rfl
@[simp] theorem hstateWrite_idx (slot : Nibble) (v : Nat) (s : State) :
    (hstateWrite slot v s).idx = s.idx := rfl
@[simp] theorem hstateWrite_input (slot : Nibble) (v : Nat) (s : State) :
    (hstateWrite slot v s).input = s.input := rfl
@[simp] theorem hstateWrite_hostTodo (slot : Nibble) (v : Nat) (s : State) :
    (hstateWrite slot v s).hostTodo = s.hostTodo := rfl
@[simp] theorem hstateWrite_sched (slot : Nibble) (v : Nat) (s : State) :
    (hstateWrite slot v s).sched = s.sched := rfl
@[simp] theorem hstateWrite_log (slot : Nibble) (v : Nat) (s : State) :
    (hstateWrite slot v s).log = s.log := rfl

/-! `refreshPalette`. -/
@[simp] theorem refreshPalette_cfg (sys : List Byte) (s : State) :
    (refreshPalette sys s).cfg = s.cfg := rfl
@[simp] theorem refreshPalette_rf (sys : List Byte) (s : State) :
    (refreshPalette sys s).rf = s.rf := rfl
@[simp] theorem refreshPalette_fbW (sys : List Byte) (s : State) :
    (refreshPalette sys s).fbW = s.fbW := rfl
@[simp] theorem refreshPalette_fbH (sys : List Byte) (s : State) :
    (refreshPalette sys s).fbH = s.fbH := rfl
@[simp] theorem refreshPalette_fb (sys : List Byte) (s : State) :
    (refreshPalette sys s).fb = s.fb := rfl
@[simp] theorem refreshPalette_fbGen (sys : List Byte) (s : State) :
    (refreshPalette sys s).fbGen = s.fbGen := rfl
@[simp] theorem refreshPalette_st (sys : List Byte) (s : State) :
    (refreshPalette sys s).st = s.st := rfl
@[simp] theorem refreshPalette_stGen (sys : List Byte) (s : State) :
    (refreshPalette sys s).stGen = s.stGen := rfl
@[simp] theorem refreshPalette_pal (sys : List Byte) (s : State) :
    (refreshPalette sys s).pal = paletteOf s.cfg sys := rfl
@[simp] theorem refreshPalette_psX (sys : List Byte) (s : State) :
    (refreshPalette sys s).psX = s.psX := rfl
@[simp] theorem refreshPalette_psY (sys : List Byte) (s : State) :
    (refreshPalette sys s).psY = s.psY := rfl
@[simp] theorem refreshPalette_psBtn (sys : List Byte) (s : State) :
    (refreshPalette sys s).psBtn = s.psBtn := rfl
@[simp] theorem refreshPalette_rz (sys : List Byte) (s : State) :
    (refreshPalette sys s).rz = s.rz := rfl
@[simp] theorem refreshPalette_sd (sys : List Byte) (s : State) :
    (refreshPalette sys s).sd = s.sd := rfl
@[simp] theorem refreshPalette_qw (sys : List Byte) (s : State) :
    (refreshPalette sys s).qw = s.qw := rfl
@[simp] theorem refreshPalette_qh (sys : List Byte) (s : State) :
    (refreshPalette sys s).qh = s.qh := rfl
@[simp] theorem refreshPalette_un (sys : List Byte) (s : State) :
    (refreshPalette sys s).un = s.un := rfl
@[simp] theorem refreshPalette_vn (sys : List Byte) (s : State) :
    (refreshPalette sys s).vn = s.vn := rfl
@[simp] theorem refreshPalette_ph (sys : List Byte) (s : State) :
    (refreshPalette sys s).ph = s.ph := rfl
@[simp] theorem refreshPalette_refused (sys : List Byte) (s : State) :
    (refreshPalette sys s).refused = s.refused := rfl
@[simp] theorem refreshPalette_evaluating (sys : List Byte) (s : State) :
    (refreshPalette sys s).evaluating = s.evaluating := rfl
@[simp] theorem refreshPalette_hstate (sys : List Byte) (s : State) :
    (refreshPalette sys s).hstate = s.hstate := rfl
@[simp] theorem refreshPalette_idx (sys : List Byte) (s : State) :
    (refreshPalette sys s).idx = s.idx := rfl
@[simp] theorem refreshPalette_input (sys : List Byte) (s : State) :
    (refreshPalette sys s).input = s.input := rfl
@[simp] theorem refreshPalette_hostTodo (sys : List Byte) (s : State) :
    (refreshPalette sys s).hostTodo = s.hostTodo := rfl
@[simp] theorem refreshPalette_sched (sys : List Byte) (s : State) :
    (refreshPalette sys s).sched = s.sched := rfl
@[simp] theorem refreshPalette_log (sys : List Byte) (s : State) :
    (refreshPalette sys s).log = s.log := rfl

/-! `advance`. -/
@[simp] theorem advance_cfg (s : State) : (advance s).cfg = s.cfg := rfl
@[simp] theorem advance_rf (s : State) : (advance s).rf = s.rf := rfl
@[simp] theorem advance_fbW (s : State) : (advance s).fbW = s.fbW := rfl
@[simp] theorem advance_fbH (s : State) : (advance s).fbH = s.fbH := rfl
@[simp] theorem advance_fb (s : State) : (advance s).fb = s.fb := rfl
@[simp] theorem advance_fbGen (s : State) : (advance s).fbGen = s.fbGen := rfl
@[simp] theorem advance_st (s : State) : (advance s).st = s.st := rfl
@[simp] theorem advance_stGen (s : State) : (advance s).stGen = s.stGen := rfl
@[simp] theorem advance_pal (s : State) : (advance s).pal = s.pal := rfl
@[simp] theorem advance_psX (s : State) : (advance s).psX = s.psX := rfl
@[simp] theorem advance_psY (s : State) : (advance s).psY = s.psY := rfl
@[simp] theorem advance_psBtn (s : State) : (advance s).psBtn = s.psBtn := rfl
@[simp] theorem advance_rz (s : State) : (advance s).rz = s.rz := rfl
@[simp] theorem advance_sd (s : State) : (advance s).sd = s.sd := rfl
@[simp] theorem advance_qw (s : State) : (advance s).qw = s.qw := rfl
@[simp] theorem advance_qh (s : State) : (advance s).qh = s.qh := rfl
@[simp] theorem advance_un (s : State) : (advance s).un = s.un := rfl
@[simp] theorem advance_vn (s : State) : (advance s).vn = s.vn := rfl
@[simp] theorem advance_ph (s : State) : (advance s).ph = s.ph := rfl
@[simp] theorem advance_refused (s : State) : (advance s).refused = s.refused := rfl
@[simp] theorem advance_evaluating (s : State) : (advance s).evaluating = s.evaluating := rfl
@[simp] theorem advance_hstate (s : State) : (advance s).hstate = s.hstate := rfl
@[simp] theorem advance_idx (s : State) : (advance s).idx = s.idx := rfl
@[simp] theorem advance_input (s : State) : (advance s).input = s.input.drop 9 := rfl
@[simp] theorem advance_hostTodo (s : State) : (advance s).hostTodo = s.hostTodo := rfl
@[simp] theorem advance_sched (s : State) : (advance s).sched = s.sched := rfl
@[simp] theorem advance_log (s : State) : (advance s).log = s.log := rfl

/-! `trace`. -/
@[simp] theorem trace_cfg (r : TraceRec) (s : State) : (trace r s).cfg = s.cfg := by
  unfold trace; split <;> rfl
@[simp] theorem trace_rf (r : TraceRec) (s : State) : (trace r s).rf = s.rf := by
  unfold trace; split <;> rfl
@[simp] theorem trace_fbW (r : TraceRec) (s : State) : (trace r s).fbW = s.fbW := by
  unfold trace; split <;> rfl
@[simp] theorem trace_fbH (r : TraceRec) (s : State) : (trace r s).fbH = s.fbH := by
  unfold trace; split <;> rfl
@[simp] theorem trace_fb (r : TraceRec) (s : State) : (trace r s).fb = s.fb := by
  unfold trace; split <;> rfl
@[simp] theorem trace_fbGen (r : TraceRec) (s : State) : (trace r s).fbGen = s.fbGen := by
  unfold trace; split <;> rfl
@[simp] theorem trace_st (r : TraceRec) (s : State) : (trace r s).st = s.st := by
  unfold trace; split <;> rfl
@[simp] theorem trace_stGen (r : TraceRec) (s : State) : (trace r s).stGen = s.stGen := by
  unfold trace; split <;> rfl
@[simp] theorem trace_pal (r : TraceRec) (s : State) : (trace r s).pal = s.pal := by
  unfold trace; split <;> rfl
@[simp] theorem trace_psX (r : TraceRec) (s : State) : (trace r s).psX = s.psX := by
  unfold trace; split <;> rfl
@[simp] theorem trace_psY (r : TraceRec) (s : State) : (trace r s).psY = s.psY := by
  unfold trace; split <;> rfl
@[simp] theorem trace_psBtn (r : TraceRec) (s : State) : (trace r s).psBtn = s.psBtn := by
  unfold trace; split <;> rfl
@[simp] theorem trace_rz (r : TraceRec) (s : State) : (trace r s).rz = s.rz := by
  unfold trace; split <;> rfl
@[simp] theorem trace_sd (r : TraceRec) (s : State) : (trace r s).sd = s.sd := by
  unfold trace; split <;> rfl
@[simp] theorem trace_qw (r : TraceRec) (s : State) : (trace r s).qw = s.qw := by
  unfold trace; split <;> rfl
@[simp] theorem trace_qh (r : TraceRec) (s : State) : (trace r s).qh = s.qh := by
  unfold trace; split <;> rfl
@[simp] theorem trace_un (r : TraceRec) (s : State) : (trace r s).un = s.un := by
  unfold trace; split <;> rfl
@[simp] theorem trace_vn (r : TraceRec) (s : State) : (trace r s).vn = s.vn := by
  unfold trace; split <;> rfl
@[simp] theorem trace_ph (r : TraceRec) (s : State) : (trace r s).ph = s.ph := by
  unfold trace; split <;> rfl
@[simp] theorem trace_refused (r : TraceRec) (s : State) : (trace r s).refused = s.refused := by
  unfold trace; split <;> rfl
@[simp] theorem trace_evaluating (r : TraceRec) (s : State) :
    (trace r s).evaluating = s.evaluating := by
  unfold trace; split <;> rfl
@[simp] theorem trace_hstate (r : TraceRec) (s : State) : (trace r s).hstate = s.hstate := by
  unfold trace; split <;> rfl
@[simp] theorem trace_idx (r : TraceRec) (s : State) : (trace r s).idx = s.idx := by
  unfold trace; split <;> rfl
@[simp] theorem trace_input (r : TraceRec) (s : State) : (trace r s).input = s.input := by
  unfold trace; split <;> rfl
@[simp] theorem trace_hostTodo (r : TraceRec) (s : State) : (trace r s).hostTodo = s.hostTodo := by
  unfold trace; split <;> rfl
@[simp] theorem trace_sched (r : TraceRec) (s : State) : (trace r s).sched = s.sched := by
  unfold trace; split <;> rfl
@[simp] theorem trace_log (r : TraceRec) (s : State) :
    (trace r s).log = if s.cfg.traceEn then s.log ++ [.trace r] else s.log := by
  unfold trace; split <;> rfl

/-! `deriveGeometry`. -/
@[simp] theorem deriveGeometry_cfg (s : State) : (deriveGeometry s).cfg = s.cfg := by
  unfold deriveGeometry; split <;> rfl
@[simp] theorem deriveGeometry_rf (s : State) : (deriveGeometry s).rf = s.rf := by
  unfold deriveGeometry; split <;> rfl
@[simp] theorem deriveGeometry_fbW (s : State) : (deriveGeometry s).fbW = s.fbW := by
  unfold deriveGeometry; split <;> rfl
@[simp] theorem deriveGeometry_fbH (s : State) : (deriveGeometry s).fbH = s.fbH := by
  unfold deriveGeometry; split <;> rfl
@[simp] theorem deriveGeometry_fb (s : State) : (deriveGeometry s).fb = s.fb := by
  unfold deriveGeometry; split <;> rfl
@[simp] theorem deriveGeometry_fbGen (s : State) : (deriveGeometry s).fbGen = s.fbGen := by
  unfold deriveGeometry; split <;> rfl
@[simp] theorem deriveGeometry_st (s : State) : (deriveGeometry s).st = s.st := by
  unfold deriveGeometry; split <;> rfl
@[simp] theorem deriveGeometry_stGen (s : State) : (deriveGeometry s).stGen = s.stGen := by
  unfold deriveGeometry; split <;> rfl
@[simp] theorem deriveGeometry_pal (s : State) : (deriveGeometry s).pal = s.pal := by
  unfold deriveGeometry; split <;> rfl
@[simp] theorem deriveGeometry_psX (s : State) : (deriveGeometry s).psX = s.psX := by
  unfold deriveGeometry; split <;> rfl
@[simp] theorem deriveGeometry_psY (s : State) : (deriveGeometry s).psY = s.psY := by
  unfold deriveGeometry; split <;> rfl
@[simp] theorem deriveGeometry_psBtn (s : State) : (deriveGeometry s).psBtn = s.psBtn := by
  unfold deriveGeometry; split <;> rfl
@[simp] theorem deriveGeometry_rz (s : State) : (deriveGeometry s).rz = false := by
  unfold deriveGeometry; split <;> simp_all
@[simp] theorem deriveGeometry_sd (s : State) : (deriveGeometry s).sd = s.sd := by
  unfold deriveGeometry; split <;> rfl
@[simp] theorem deriveGeometry_qw (s : State) :
    (deriveGeometry s).qw = if s.rz then s.fbW else s.qw := by
  unfold deriveGeometry; split <;> simp_all
@[simp] theorem deriveGeometry_qh (s : State) :
    (deriveGeometry s).qh = if s.rz then s.fbH else s.qh := by
  unfold deriveGeometry; split <;> simp_all
@[simp] theorem deriveGeometry_un (s : State) :
    (deriveGeometry s).un = if s.rz then s.fbW else s.un := by
  unfold deriveGeometry; split <;> simp_all
@[simp] theorem deriveGeometry_vn (s : State) :
    (deriveGeometry s).vn = if s.rz then s.fbH else s.vn := by
  unfold deriveGeometry; split <;> simp_all
@[simp] theorem deriveGeometry_ph (s : State) : (deriveGeometry s).ph = s.ph := by
  unfold deriveGeometry; split <;> rfl
@[simp] theorem deriveGeometry_refused (s : State) : (deriveGeometry s).refused = s.refused := by
  unfold deriveGeometry; split <;> rfl
@[simp] theorem deriveGeometry_evaluating (s : State) :
    (deriveGeometry s).evaluating = s.evaluating := by
  unfold deriveGeometry; split <;> rfl
@[simp] theorem deriveGeometry_hstate (s : State) : (deriveGeometry s).hstate = s.hstate := by
  unfold deriveGeometry; split <;> rfl
@[simp] theorem deriveGeometry_idx (s : State) : (deriveGeometry s).idx = s.idx := by
  unfold deriveGeometry; split <;> rfl
@[simp] theorem deriveGeometry_input (s : State) : (deriveGeometry s).input = s.input := by
  unfold deriveGeometry; split <;> rfl
@[simp] theorem deriveGeometry_hostTodo (s : State) : (deriveGeometry s).hostTodo = s.hostTodo := by
  unfold deriveGeometry; split <;> rfl
@[simp] theorem deriveGeometry_sched (s : State) : (deriveGeometry s).sched = s.sched := by
  unfold deriveGeometry; split <;> rfl
@[simp] theorem deriveGeometry_log (s : State) : (deriveGeometry s).log = s.log := by
  unfold deriveGeometry; split <;> rfl

/-! HOST's steps: they write RF, PS, RZ and SD only (R23, R251). -/
@[simp] theorem hostStep_cfg (h : HostStep) (s : State) : (hostStep h s).cfg = s.cfg := by
  cases h <;> rfl
@[simp] theorem hostStep_fbW (h : HostStep) (s : State) : (hostStep h s).fbW = s.fbW := by
  cases h <;> rfl
@[simp] theorem hostStep_fbH (h : HostStep) (s : State) : (hostStep h s).fbH = s.fbH := by
  cases h <;> rfl
@[simp] theorem hostStep_fb (h : HostStep) (s : State) : (hostStep h s).fb = s.fb := by
  cases h <;> rfl
@[simp] theorem hostStep_fbGen (h : HostStep) (s : State) : (hostStep h s).fbGen = s.fbGen := by
  cases h <;> rfl
@[simp] theorem hostStep_st (h : HostStep) (s : State) : (hostStep h s).st = s.st := by
  cases h <;> rfl
@[simp] theorem hostStep_stGen (h : HostStep) (s : State) : (hostStep h s).stGen = s.stGen := by
  cases h <;> rfl
@[simp] theorem hostStep_pal (h : HostStep) (s : State) : (hostStep h s).pal = s.pal := by
  cases h <;> rfl
@[simp] theorem hostStep_qw (h : HostStep) (s : State) : (hostStep h s).qw = s.qw := by
  cases h <;> rfl
@[simp] theorem hostStep_qh (h : HostStep) (s : State) : (hostStep h s).qh = s.qh := by
  cases h <;> rfl
@[simp] theorem hostStep_un (h : HostStep) (s : State) : (hostStep h s).un = s.un := by
  cases h <;> rfl
@[simp] theorem hostStep_vn (h : HostStep) (s : State) : (hostStep h s).vn = s.vn := by
  cases h <;> rfl
@[simp] theorem hostStep_ph (h : HostStep) (s : State) : (hostStep h s).ph = s.ph := by
  cases h <;> rfl
@[simp] theorem hostStep_refused (h : HostStep) (s : State) : (hostStep h s).refused = s.refused := by
  cases h <;> rfl
@[simp] theorem hostStep_evaluating (h : HostStep) (s : State) : (hostStep h s).evaluating = s.evaluating := by
  cases h <;> rfl
@[simp] theorem hostStep_hstate (h : HostStep) (s : State) : (hostStep h s).hstate = s.hstate := by
  cases h <;> rfl
@[simp] theorem hostStep_idx (h : HostStep) (s : State) : (hostStep h s).idx = s.idx := by
  cases h <;> rfl
@[simp] theorem hostStep_input (h : HostStep) (s : State) : (hostStep h s).input = s.input := by
  cases h <;> rfl
@[simp] theorem hostStep_log (h : HostStep) (s : State) : (hostStep h s).log = s.log := by
  cases h <;> rfl
@[simp] theorem runHost_cfg (k : Nat) (s : State) : (runHost k s).cfg = s.cfg := by
  induction k generalizing s with
  | zero => rfl
  | succ k ih => unfold runHost; split <;> simp [ih]
@[simp] theorem runHost_fbW (k : Nat) (s : State) : (runHost k s).fbW = s.fbW := by
  induction k generalizing s with
  | zero => rfl
  | succ k ih => unfold runHost; split <;> simp [ih]
@[simp] theorem runHost_fbH (k : Nat) (s : State) : (runHost k s).fbH = s.fbH := by
  induction k generalizing s with
  | zero => rfl
  | succ k ih => unfold runHost; split <;> simp [ih]
@[simp] theorem runHost_fb (k : Nat) (s : State) : (runHost k s).fb = s.fb := by
  induction k generalizing s with
  | zero => rfl
  | succ k ih => unfold runHost; split <;> simp [ih]
@[simp] theorem runHost_fbGen (k : Nat) (s : State) : (runHost k s).fbGen = s.fbGen := by
  induction k generalizing s with
  | zero => rfl
  | succ k ih => unfold runHost; split <;> simp [ih]
@[simp] theorem runHost_st (k : Nat) (s : State) : (runHost k s).st = s.st := by
  induction k generalizing s with
  | zero => rfl
  | succ k ih => unfold runHost; split <;> simp [ih]
@[simp] theorem runHost_stGen (k : Nat) (s : State) : (runHost k s).stGen = s.stGen := by
  induction k generalizing s with
  | zero => rfl
  | succ k ih => unfold runHost; split <;> simp [ih]
@[simp] theorem runHost_pal (k : Nat) (s : State) : (runHost k s).pal = s.pal := by
  induction k generalizing s with
  | zero => rfl
  | succ k ih => unfold runHost; split <;> simp [ih]
@[simp] theorem runHost_qw (k : Nat) (s : State) : (runHost k s).qw = s.qw := by
  induction k generalizing s with
  | zero => rfl
  | succ k ih => unfold runHost; split <;> simp [ih]
@[simp] theorem runHost_qh (k : Nat) (s : State) : (runHost k s).qh = s.qh := by
  induction k generalizing s with
  | zero => rfl
  | succ k ih => unfold runHost; split <;> simp [ih]
@[simp] theorem runHost_un (k : Nat) (s : State) : (runHost k s).un = s.un := by
  induction k generalizing s with
  | zero => rfl
  | succ k ih => unfold runHost; split <;> simp [ih]
@[simp] theorem runHost_vn (k : Nat) (s : State) : (runHost k s).vn = s.vn := by
  induction k generalizing s with
  | zero => rfl
  | succ k ih => unfold runHost; split <;> simp [ih]
@[simp] theorem runHost_ph (k : Nat) (s : State) : (runHost k s).ph = s.ph := by
  induction k generalizing s with
  | zero => rfl
  | succ k ih => unfold runHost; split <;> simp [ih]
@[simp] theorem runHost_refused (k : Nat) (s : State) : (runHost k s).refused = s.refused := by
  induction k generalizing s with
  | zero => rfl
  | succ k ih => unfold runHost; split <;> simp [ih]
@[simp] theorem runHost_evaluating (k : Nat) (s : State) : (runHost k s).evaluating = s.evaluating := by
  induction k generalizing s with
  | zero => rfl
  | succ k ih => unfold runHost; split <;> simp [ih]
@[simp] theorem runHost_hstate (k : Nat) (s : State) : (runHost k s).hstate = s.hstate := by
  induction k generalizing s with
  | zero => rfl
  | succ k ih => unfold runHost; split <;> simp [ih]
@[simp] theorem runHost_idx (k : Nat) (s : State) : (runHost k s).idx = s.idx := by
  induction k generalizing s with
  | zero => rfl
  | succ k ih => unfold runHost; split <;> simp [ih]
@[simp] theorem runHost_input (k : Nat) (s : State) : (runHost k s).input = s.input := by
  induction k generalizing s with
  | zero => rfl
  | succ k ih => unfold runHost; split <;> simp [ih]
@[simp] theorem runHost_log (k : Nat) (s : State) : (runHost k s).log = s.log := by
  induction k generalizing s with
  | zero => rfl
  | succ k ih => unfold runHost; split <;> simp [ih]
@[simp] theorem poll_cfg (s : State) : (poll s).cfg = s.cfg := by
  unfold poll; split
  · rfl
  · split <;> simp
@[simp] theorem poll_fbW (s : State) : (poll s).fbW = s.fbW := by
  unfold poll; split
  · rfl
  · split <;> simp
@[simp] theorem poll_fbH (s : State) : (poll s).fbH = s.fbH := by
  unfold poll; split
  · rfl
  · split <;> simp
@[simp] theorem poll_fb (s : State) : (poll s).fb = s.fb := by
  unfold poll; split
  · rfl
  · split <;> simp
@[simp] theorem poll_fbGen (s : State) : (poll s).fbGen = s.fbGen := by
  unfold poll; split
  · rfl
  · split <;> simp
@[simp] theorem poll_st (s : State) : (poll s).st = s.st := by
  unfold poll; split
  · rfl
  · split <;> simp
@[simp] theorem poll_stGen (s : State) : (poll s).stGen = s.stGen := by
  unfold poll; split
  · rfl
  · split <;> simp
@[simp] theorem poll_pal (s : State) : (poll s).pal = s.pal := by
  unfold poll; split
  · rfl
  · split <;> simp
@[simp] theorem poll_qw (s : State) : (poll s).qw = s.qw := by
  unfold poll; split
  · rfl
  · split <;> simp
@[simp] theorem poll_qh (s : State) : (poll s).qh = s.qh := by
  unfold poll; split
  · rfl
  · split <;> simp
@[simp] theorem poll_un (s : State) : (poll s).un = s.un := by
  unfold poll; split
  · rfl
  · split <;> simp
@[simp] theorem poll_vn (s : State) : (poll s).vn = s.vn := by
  unfold poll; split
  · rfl
  · split <;> simp
@[simp] theorem poll_ph (s : State) : (poll s).ph = s.ph := by
  unfold poll; split
  · rfl
  · split <;> simp
@[simp] theorem poll_refused (s : State) : (poll s).refused = s.refused := by
  unfold poll; split
  · rfl
  · split <;> simp
@[simp] theorem poll_evaluating (s : State) : (poll s).evaluating = s.evaluating := by
  unfold poll; split
  · rfl
  · split <;> simp
@[simp] theorem poll_hstate (s : State) : (poll s).hstate = s.hstate := by
  unfold poll; split
  · rfl
  · split <;> simp
@[simp] theorem poll_idx (s : State) : (poll s).idx = s.idx := by
  unfold poll; split
  · rfl
  · split <;> simp
@[simp] theorem poll_input (s : State) : (poll s).input = s.input := by
  unfold poll; split
  · rfl
  · split <;> simp
@[simp] theorem poll_log (s : State) : (poll s).log = s.log := by
  unfold poll; split
  · rfl
  · split <;> simp

end Sys2Proof.Machine
end

