-- ==== Sys2Proof/Laws/Store.lean ====
section
/-! SUPPORT. The laws of sparse stores: what a put, an erase and an overlay read as afterwards, and
that each keeps the canonical form; the same for the PORT space. -/

namespace Sys2Proof.Machine

variable {α : Type}

@[simp] theorem cellGet_nil (k : Nat) : cellGet ([] : List (Nat × α)) k = none := rfl

theorem cellGet_cons (j : Nat) (v : α) (r : List (Nat × α)) (k : Nat) :
    cellGet ((j, v) :: r) k = if j = k then some v else cellGet r k := rfl

/-- An index that no entry has is unlisted. -/
theorem cellGet_eq_none {m : List (Nat × α)} {k : Nat} (h : ∀ c ∈ m, c.1 ≠ k) :
    cellGet m k = none := by
  induction m with
  | nil => rfl
  | cons c r ih =>
    obtain ⟨j, v⟩ := c
    rw [cellGet_cons, if_neg (h (j, v) (by simp)), ih fun c hc => h c (by simp [hc])]

/-- A listed value stands in the list. -/
theorem mem_of_cellGet {m : List (Nat × α)} {k : Nat} {v : α} (h : cellGet m k = some v) :
    (k, v) ∈ m := by
  induction m with
  | nil => simp at h
  | cons c r ih =>
    obtain ⟨j, w⟩ := c
    rw [cellGet_cons] at h
    split at h
    · simp_all
    · exact List.mem_cons_of_mem _ (ih h)

theorem cellGet_append (m n : List (Nat × α)) (k : Nat) :
    cellGet (m ++ n) k = (cellGet m k).or (cellGet n k) := by
  induction m with
  | nil => simp
  | cons c r ih =>
    obtain ⟨j, w⟩ := c
    simp only [List.cons_append, cellGet_cons, ih]
    split <;> simp

/-- Reading after a put: the new value at its index, what was there elsewhere. -/
theorem cellGet_cellPut (m : List (Nat × α)) (k : Nat) (v : α) (j : Nat) :
    cellGet (cellPut m k v) j = if k = j then some v else cellGet m j := by
  induction m with
  | nil => rfl
  | cons c r ih =>
    obtain ⟨i, w⟩ := c
    simp only [cellPut]
    split
    · rfl
    · split
      · simp only [cellGet_cons]; split <;> simp_all
      · simp only [cellGet_cons, ih]; split <;> split <;> simp_all

/-- Erasing an index leaves every other index alone. -/
theorem cellGet_cellErase_of_ne (m : List (Nat × α)) {k j : Nat} (h : k ≠ j) :
    cellGet (cellErase m k) j = cellGet m j := by
  induction m with
  | nil => rfl
  | cons c r ih =>
    obtain ⟨i, w⟩ := c
    simp only [cellErase]
    split
    · simp only [cellGet_cons]; split <;> simp_all
    · simp only [cellGet_cons, ih]

/-- In a rising store an erased index is unlisted. -/
theorem cellGet_cellErase_self {m : List (Nat × α)} (h : Rising m) (k : Nat) :
    cellGet (cellErase m k) k = none := by
  induction m with
  | nil => rfl
  | cons c r ih =>
    obtain ⟨i, w⟩ := c
    obtain ⟨h1, h2⟩ := List.pairwise_cons.mp h
    simp only [cellErase]
    split
    · rename_i hik
      exact cellGet_eq_none fun c hc => by have := h1 c hc; simp only at this; omega
    · rename_i hik
      rw [cellGet_cons, if_neg hik, ih h2]

theorem mem_cellPut {m : List (Nat × α)} {k : Nat} {v : α} {c : Nat × α}
    (h : c ∈ cellPut m k v) : c = (k, v) ∨ c ∈ m := by
  induction m with
  | nil => simpa [cellPut] using h
  | cons d r ih =>
    obtain ⟨i, w⟩ := d
    simp only [cellPut] at h
    split at h
    · simpa using h
    · split at h
      · rcases List.mem_cons.mp h with h | h
        · exact .inl h
        · exact .inr (List.mem_cons_of_mem _ h)
      · rcases List.mem_cons.mp h with h | h
        · exact .inr (h ▸ List.mem_cons_self)
        · exact (ih h).imp_right (List.mem_cons_of_mem _)

theorem mem_cellErase {m : List (Nat × α)} {k : Nat} {c : Nat × α} (h : c ∈ cellErase m k) :
    c ∈ m := by
  induction m with
  | nil => simp [cellErase] at h
  | cons d r ih =>
    obtain ⟨i, w⟩ := d
    simp only [cellErase] at h
    split at h
    · exact List.mem_cons_of_mem _ h
    · rcases List.mem_cons.mp h with h | h
      · exact h ▸ List.mem_cons_self
      · exact List.mem_cons_of_mem _ (ih h)

/-- A put keeps a store rising. -/
theorem cellPut_rising {m : List (Nat × α)} (h : Rising m) (k : Nat) (v : α) :
    Rising (cellPut m k v) := by
  induction m with
  | nil => simp [cellPut]
  | cons c r ih =>
    obtain ⟨i, w⟩ := c
    obtain ⟨h1, h2⟩ := List.pairwise_cons.mp h
    simp only [cellPut]
    split
    · rename_i hki
      refine List.pairwise_cons.mpr ⟨fun c hc => ?_, h⟩
      rcases List.mem_cons.mp hc with rfl | hc
      · exact hki
      · exact Nat.lt_trans hki (h1 c hc)
    · rename_i hki
      split
      · rename_i hik
        exact List.pairwise_cons.mpr ⟨fun c hc => hik ▸ h1 c hc, h2⟩
      · rename_i hik
        refine List.pairwise_cons.mpr ⟨fun c hc => ?_, ih h2⟩
        rcases mem_cellPut hc with rfl | hc
        · show i < k; omega
        · exact h1 c hc

/-- An erase keeps a store rising. -/
theorem cellErase_rising {m : List (Nat × α)} (h : Rising m) (k : Nat) :
    Rising (cellErase m k) := by
  induction m with
  | nil => exact h
  | cons c r ih =>
    obtain ⟨i, w⟩ := c
    obtain ⟨h1, h2⟩ := List.pairwise_cons.mp h
    simp only [cellErase]
    split
    · exact h2
    · exact List.pairwise_cons.mpr ⟨fun c hc => h1 c (mem_cellErase hc), ih h2⟩

theorem mem_cellOverlay {new old : List (Nat × α)} {c : Nat × α} (h : c ∈ cellOverlay new old) :
    c ∈ new ∨ c ∈ old := by
  induction new generalizing old with
  | nil => exact .inr h
  | cons d r ih =>
    obtain ⟨k, v⟩ := d
    simp only [cellOverlay, List.mem_append, List.mem_cons] at h
    rcases h with h | h | h
    · exact .inr ((List.takeWhile_sublist _).subset h)
    · exact .inl (h ▸ List.mem_cons_self)
    · rcases ih h with h | h
      · exact .inl (List.mem_cons_of_mem _ h)
      · exact .inr ((List.dropWhile_sublist _).subset h)

/-- What is dropped from a rising store up to an index leaves only entries above it. -/
theorem lt_of_mem_dropWhile {m : List (Nat × α)} (h : Rising m) {k : Nat} {c : Nat × α}
    (hc : c ∈ m.dropWhile (fun c => decide (c.1 ≤ k))) : k < c.1 := by
  induction m with
  | nil => simp at hc
  | cons d r ih =>
    obtain ⟨h1, h2⟩ := List.pairwise_cons.mp h
    rw [List.dropWhile_cons] at hc
    split at hc
    · exact ih h2 hc
    · rename_i hk
      have hk : k < d.1 := by simpa using hk
      rcases List.mem_cons.mp hc with rfl | hc
      · exact hk
      · exact Nat.lt_trans hk (h1 c hc)

theorem lt_of_mem_takeWhile {m : List (Nat × α)} {k : Nat} {c : Nat × α}
    (hc : c ∈ m.takeWhile (fun c => decide (c.1 < k))) : c.1 < k := by
  simpa using List.mem_takeWhile_imp hc

/-- In a rising store the entries above an index are found after the others are dropped. -/
theorem cellGet_dropWhile {m : List (Nat × α)} {k j : Nat} (h : k < j) :
    cellGet (m.dropWhile (fun c => decide (c.1 ≤ k))) j = cellGet m j := by
  induction m with
  | nil => rfl
  | cons d r ih =>
    obtain ⟨i, w⟩ := d
    rw [List.dropWhile_cons]
    split
    · rename_i hk
      have : i ≤ k := by simpa using hk
      rw [ih, cellGet_cons, if_neg (by omega)]
    · rfl

/-- In a rising store the entries below an index are found among those taken. -/
theorem cellGet_takeWhile {m : List (Nat × α)} (hm : Rising m) {k j : Nat} (h : j < k) :
    cellGet (m.takeWhile (fun c => decide (c.1 < k))) j = cellGet m j := by
  induction m with
  | nil => rfl
  | cons d r ih =>
    obtain ⟨i, w⟩ := d
    obtain ⟨h1, h2⟩ := List.pairwise_cons.mp hm
    rw [List.takeWhile_cons]
    split
    · rw [cellGet_cons, cellGet_cons, ih h2]
    · rename_i hk
      have hk : k ≤ i := by simpa using hk
      rw [cellGet_nil, cellGet_cons, if_neg (by omega)]
      exact (cellGet_eq_none fun c hc => by have := h1 c hc; simp only at this; omega).symm

/-- An overlay of rising stores is rising. -/
theorem cellOverlay_rising {new old : List (Nat × α)} (hn : Rising new) (ho : Rising old) :
    Rising (cellOverlay new old) := by
  induction new generalizing old with
  | nil => exact ho
  | cons d r ih =>
    obtain ⟨k, v⟩ := d
    obtain ⟨h1, h2⟩ := List.pairwise_cons.mp hn
    have hd : Rising (old.dropWhile (fun c => decide (c.1 ≤ k))) :=
      ho.sublist (List.dropWhile_sublist _)
    have habove : ∀ c ∈ cellOverlay r (old.dropWhile (fun c => decide (c.1 ≤ k))), k < c.1 :=
      fun c hc => (mem_cellOverlay hc).elim (h1 c) (lt_of_mem_dropWhile ho)
    refine List.pairwise_append.mpr
      ⟨ho.sublist (List.takeWhile_sublist _), List.pairwise_cons.mpr ⟨habove, ih h2 hd⟩, ?_⟩
    intro a ha b hb
    have ha := lt_of_mem_takeWhile ha
    rcases List.mem_cons.mp hb with rfl | hb
    · exact ha
    · exact Nat.lt_trans ha (habove b hb)

/-- Reading an overlay: the new entry where there is one, else the old. -/
theorem cellGet_cellOverlay {new old : List (Nat × α)} (hn : Rising new) (ho : Rising old)
    (j : Nat) : cellGet (cellOverlay new old) j = (cellGet new j).or (cellGet old j) := by
  induction new generalizing old with
  | nil => simp [cellOverlay]
  | cons d r ih =>
    obtain ⟨k, v⟩ := d
    obtain ⟨h1, h2⟩ := List.pairwise_cons.mp hn
    have hd : Rising (old.dropWhile (fun c => decide (c.1 ≤ k))) :=
      ho.sublist (List.dropWhile_sublist _)
    simp only [cellOverlay, cellGet_append, cellGet_cons, ih h2 hd]
    rcases Nat.lt_trichotomy j k with h | h | h
    · have hr : cellGet r j = none :=
        cellGet_eq_none fun c hc => by have := h1 c hc; simp only at this; omega
      have hdrop : cellGet (old.dropWhile (fun c => decide (c.1 ≤ k))) j = none :=
        cellGet_eq_none fun c hc => by have := lt_of_mem_dropWhile ho hc; omega
      have hkj : k ≠ j := by omega
      simp [cellGet_takeWhile ho h, hr, hdrop, hkj]
    · subst h
      have htake : cellGet (old.takeWhile (fun c => decide (c.1 < j))) j = none :=
        cellGet_eq_none fun c hc => by have := lt_of_mem_takeWhile hc; omega
      rw [htake]
      simp
    · have htake : cellGet (old.takeWhile (fun c => decide (c.1 < k))) j = none :=
        cellGet_eq_none fun c hc => by have := lt_of_mem_takeWhile hc; omega
      rw [htake, cellGet_dropWhile h, if_neg (by omega), if_neg (by omega)]
      simp

/-! The PORT space. -/

/-- Reading another address after a write. -/
theorem Memory.read_write_of_ne (m : Memory) {a b : Byte} (v : Byte) (h : b ≠ a) :
    (m.write a v).read b = m.read b := by
  have hn : a.toNat ≠ b.toNat := fun e => h (BitVec.eq_of_toNat_eq e.symm)
  unfold Memory.write Memory.read
  split
  · rw [cellGet_cellErase_of_ne _ hn]
  · rw [cellGet_cellPut, if_neg hn]

/-- Reading an address after a write to it. -/
theorem Memory.read_write_self {m : Memory} (hm : Memory.wf m) (a v : Byte) :
    (m.write a v).read a = v := by
  unfold Memory.write Memory.read
  split
  · rename_i h
    rw [cellGet_cellErase_self hm.1]; exact h.symm
  · rw [cellGet_cellPut, if_pos rfl]; rfl

/-- Everything a read after a write can be. -/
theorem Memory.read_write {m : Memory} (hm : Memory.wf m) (a v b : Byte) :
    (m.write a v).read b = if b = a then v else m.read b := by
  split
  · rename_i h; rw [h, Memory.read_write_self hm]
  · rename_i h; exact Memory.read_write_of_ne m v h

/-- A write keeps the canonical form. -/
theorem Memory.write_wf {m : Memory} (hm : Memory.wf m) (a v : Byte) :
    Memory.wf (m.write a v) := by
  unfold Memory.write
  split
  · exact ⟨cellErase_rising hm.1 _, fun c hc => hm.2 c (mem_cellErase hc)⟩
  · rename_i h
    refine ⟨cellPut_rising hm.1 _ _, fun c hc => ?_⟩
    rcases mem_cellPut hc with rfl | hc
    · exact ⟨a.isLt, h⟩
    · exact hm.2 c hc

/-- A put of a pixel inside an image keeps its canonical form. -/
theorem Image.put_wf {size : Nat} {m : Image} (hm : Image.wf size m) {k : Nat} (hk : k < size)
    (p : Pixel) : Image.wf size (cellPut m k p) := by
  refine ⟨cellPut_rising hm.1 _ _, fun c hc => ?_⟩
  rcases mem_cellPut hc with rfl | hc
  · exact hk
  · exact hm.2 c hc

/-- An overlay of images keeps their canonical form. -/
theorem Image.overlay_wf {size : Nat} {new old : Image} (hn : Image.wf size new)
    (ho : Image.wf size old) : Image.wf size (cellOverlay new old) :=
  ⟨cellOverlay_rising hn.1 ho.1, fun c hc => (mem_cellOverlay hc).elim (hn.2 c) (ho.2 c)⟩

end Sys2Proof.Machine
end

