-- ==== Sys2Proof/Laws/Ops.lean ====
section
/-! SUPPORT. For each shared operation one lemma that says once what it can do: the port registers,
the points where HOST may step, admission, RESIZE, FBWR, BLIT, GEOM, the handlers, the fetch. -/

namespace Sys2Proof.Machine

/-! The port registers. -/

theorem rfRead_rfWrite {s : State} (h : Memory.wf s.rf) (a v b : Byte) :
    rfRead (rfWrite s a v) b = if b = a then v else rfRead s b :=
  Memory.read_write h a v b

theorem rfRead_rfWrite_of_ne (s : State) {a b : Byte} (v : Byte) (h : b ≠ a) :
    rfRead (rfWrite s a v) b = rfRead s b :=
  Memory.read_write_of_ne s.rf v h

/-- The PORT space at reset is in canonical form. -/
theorem resetWith_rf_wf (c : Config) : Memory.wf (State.resetWith c).rf :=
  ⟨.nil, fun _ h => nomatch h⟩

/-! HOST's steps. -/

/-- With no HOST step pending a poll does nothing. -/
theorem poll_quiet {s : State} (h : s.hostTodo = []) : poll s = s := by
  unfold poll; rw [h]

theorem runHost_quiet {s : State} (h : s.hostTodo = []) (k : Nat) : runHost k s = s := by
  cases k with
  | zero => rfl
  | succ k => unfold runHost; rw [h]

theorem runHost_cons {s : State} {h : HostStep} {rest : List HostStep}
    (hs : s.hostTodo = h :: rest) (k : Nat) :
    runHost (k + 1) s = runHost k (hostStep h { s with hostTodo := rest }) := by
  conv => lhs; unfold runHost
  rw [hs]

@[simp] theorem hostStep_hostTodo (h : HostStep) (s : State) :
    (hostStep h s).hostTodo = s.hostTodo := by
  cases h <;> rfl

@[simp] theorem hostStep_sched (h : HostStep) (s : State) : (hostStep h s).sched = s.sched := by
  cases h <;> rfl

@[simp] theorem runHost_sched (k : Nat) (s : State) : (runHost k s).sched = s.sched := by
  induction k generalizing s with
  | zero => rfl
  | succ k ih => unfold runHost; split <;> simp [ih]

/-- What is pending after `k` HOST steps. -/
theorem runHost_hostTodo (k : Nat) (s : State) :
    (runHost k s).hostTodo = s.hostTodo.drop k := by
  induction k generalizing s with
  | zero => rfl
  | succ k ih =>
    unfold runHost
    split
    · rename_i h; rw [h]; simp
    · rename_i h rest hs; rw [ih, hs]; simp

/-- With the schedule used up a poll leaves nothing pending. -/
theorem poll_prompt_hostTodo {s : State} (h : s.sched = []) : (poll s).hostTodo = [] := by
  unfold poll
  split
  · assumption
  · rw [h]; simp [runHost_hostTodo]

theorem poll_prompt_sched {s : State} (h : s.sched = []) : (poll s).sched = [] := by
  unfold poll
  split
  · exact h
  · rw [h]; simpa using h

/-- A HOST transaction issued with nothing pending or held back takes effect whole. -/
theorem issueHost_prompt {s : State} (h : s.hostTodo = []) (hs : s.sched = [])
    (steps : List HostStep) :
    issueHost steps s = runHost steps.length { s with hostTodo := steps } := by
  unfold issueHost poll
  rw [h]
  cases steps with
  | nil => simp [runHost]
  | cons a r => simp [hs]

/-- A property that every HOST step keeps holds after a poll. -/
theorem poll_induction {P : State → Prop}
    (hstep : ∀ (h : HostStep) (s : State), P s → P (hostStep h s))
    (htodo : ∀ (s : State) (l : List HostStep), P s → P { s with hostTodo := l })
    (hsched : ∀ (s : State) (l : List Nat), P s → P { s with sched := l })
    {s : State} (h : P s) : P (poll s) := by
  have hrun : ∀ (k : Nat) (s : State), P s → P (runHost k s) := by
    intro k
    induction k with
    | zero => exact fun s h => h
    | succ k ih =>
      intro s h
      unfold runHost
      split
      · exact h
      · exact ih _ (hstep _ _ (htodo _ _ h))
  unfold poll
  split
  · exact h
  · split
    · exact hrun _ _ h
    · exact hrun _ _ (hsched _ _ h)

/-! Admission. -/

theorem admitted_of {ok : Bool} (h : ok = true) (run : State → State) (s : State) :
    admitted ok run s = run s := by
  unfold admitted; rw [h]; rfl

theorem admitted_not {ok : Bool} (h : ok = false) (run : State → State) (s : State) :
    admitted ok run s = refuse .notAdmitted s := by
  unfold admitted; rw [h]; rfl

/-- Everything admission can do. -/
theorem admitted_cases (ok : Bool) (run : State → State) (s : State) :
    admitted ok run s = run s ∨ admitted ok run s = refuse .notAdmitted s := by
  cases ok
  · exact .inr rfl
  · exact .inl rfl

/-! RESIZE and FBWR. -/

/-- Everything RESIZE can do after the capacity step. -/
theorem resizeTo_cases (w h : Nat) (s : State) :
    (¬(w % s.cfg.cell = 0 ∧ h % s.cfg.cell = 0) ∧
      resizeTo w h s = refuse .resizeNotCellMultiple s) ∨
    (w = s.fbW.toNat ∧ h = s.fbH.toNat ∧ resizeTo w h s = s) ∨
    ((w % s.cfg.cell = 0 ∧ h % s.cfg.cell = 0) ∧ ¬(w = s.fbW.toNat ∧ h = s.fbH.toNat) ∧
      resizeTo w h s = reallocate w h s) := by
  unfold resizeTo
  split
  · exact .inl ⟨by omega, rfl⟩
  · split
    · rename_i h2; exact .inr (.inl ⟨h2.1, h2.2, rfl⟩)
    · rename_i h1 h2; exact .inr (.inr ⟨by omega, h2, rfl⟩)

/-- Everything FBWR can do. -/
theorem writePixel_cases (i px : Word) (s : State) :
    (i.toNat < fbSize s ∧ writePixel i px s = fbWrite s i.toNat (pixelOfWord px)) ∨
    (fbSize s ≤ i.toNat ∧ writePixel i px s = refuse .fbwrOutOfRange s) := by
  unfold writePixel
  split
  · rename_i h; exact .inr ⟨h, rfl⟩
  · rename_i h; exact .inl ⟨by omega, rfl⟩

/-- Reading a pixel of FB after one was written. -/
theorem fbRead_fbWrite (s : State) (i : Nat) (p : Pixel) (j : Nat) :
    fbRead (fbWrite s i p) j = if j = i then p else fbRead s j := by
  unfold fbRead
  simp only [fbWrite_fb, fbWrite_fbGen, cellGet_cellPut]
  split <;> split <;> simp_all

/-! BLIT. -/

theorem permute_permute (p : Pixel) : permute (permute p) = p := rfl

/-- Indices of two pixels of ST are in the order of their rows, then of their columns. -/
theorem stIndex_lt {c : Config} {x y x' y' : Nat} (hx : x < c.maxW)
    (h : y < y' ∨ (y = y' ∧ x < x')) : stIndex c x y < stIndex c x' y' := by
  unfold stIndex
  rcases h with h | ⟨rfl, h⟩
  · calc y * c.maxW + x < y * c.maxW + c.maxW := by omega
      _ = (y + 1) * c.maxW := by ring
      _ ≤ y' * c.maxW := Nat.mul_le_mul_right _ h
      _ ≤ y' * c.maxW + x' := by omega
  · omega

/-- The pixel (x, y) a column and a row number give is unique. -/
theorem stIndex_inj {c : Config} {x y x' y' : Nat} (hx : x < c.maxW) (hx' : x' < c.maxW)
    (h : stIndex c x y = stIndex c x' y') : x = x' ∧ y = y' := by
  rcases Nat.lt_trichotomy y y' with hy | rfl | hy
  · exact absurd h (Nat.ne_of_lt (stIndex_lt hx (.inl hy)))
  · unfold stIndex at h; omega
  · exact absurd h.symm (Nat.ne_of_lt (stIndex_lt hx' (.inl hy)))

theorem mem_blitCells {s : State} {c : Nat × Pixel} :
    c ∈ blitCells s ↔ ∃ x y, x < s.fbW.toNat ∧ y < s.fbH.toNat ∧
      c = (stIndex s.cfg x y, permute (fbRead s (fbIndex s x y))) := by
  simp only [blitCells, List.mem_flatMap, List.mem_map, List.mem_range]
  constructor
  · rintro ⟨y, hy, x, hx, rfl⟩; exact ⟨x, y, hx, hy, rfl⟩
  · rintro ⟨x, y, hx, hy, rfl⟩; exact ⟨y, hy, x, hx, rfl⟩

/-- BLIT writes at strictly rising indices when the framebuffer is no wider than the capacity. -/
theorem blitCells_rising {s : State} (h : s.fbW.toNat ≤ s.cfg.maxW) : Rising (blitCells s) := by
  unfold blitCells Rising
  rw [List.pairwise_flatMap]
  refine ⟨fun y _ => ?_, ?_⟩
  · rw [List.pairwise_map]
    exact List.pairwise_lt_range.imp_of_mem fun {a b} ha _ hab =>
      stIndex_lt (by have := List.mem_range.mp ha; omega) (.inr ⟨rfl, hab⟩)
  · refine List.pairwise_lt_range.imp fun {y y'} hy p hp q hq => ?_
    obtain ⟨x, hx, rfl⟩ := List.mem_map.mp hp
    obtain ⟨x', hx', rfl⟩ := List.mem_map.mp hq
    exact stIndex_lt (by have := List.mem_range.mp hx; omega) (.inl hy)

theorem cellGet_of_mem_rising {α : Type} {m : List (Nat × α)} (h : Rising m) {k : Nat} {v : α}
    (hm : (k, v) ∈ m) : cellGet m k = some v := by
  induction m with
  | nil => simp at hm
  | cons c r ih =>
    obtain ⟨j, w⟩ := c
    obtain ⟨h1, h2⟩ := List.pairwise_cons.mp h
    rw [cellGet_cons]
    rcases List.mem_cons.mp hm with hm | hm
    · cases hm; simp
    · have := h1 _ hm
      simp only at this
      rw [if_neg (by omega), ih h2 hm]

/-- A pixel of the valid region after BLIT. -/
theorem stRead_convert_inside {s : State} (hw : s.fbW.toNat ≤ s.cfg.maxW) (hst : Rising s.st)
    {x y : Nat} (hx : x < s.fbW.toNat) (hy : y < s.fbH.toNat) :
    stRead (convert s) (stIndex s.cfg x y) = permute (fbRead s (fbIndex s x y)) := by
  have hmem : (stIndex s.cfg x y, permute (fbRead s (fbIndex s x y))) ∈ blitCells s :=
    mem_blitCells.mpr ⟨x, y, hx, hy, rfl⟩
  have hget := cellGet_of_mem_rising (blitCells_rising hw) hmem
  unfold stRead
  rw [convert_st, cellGet_cellOverlay (blitCells_rising hw) hst, hget]
  rfl

/-- Every other pixel of ST after BLIT. -/
theorem stRead_convert_outside {s : State} (hw : s.fbW.toNat ≤ s.cfg.maxW) (hst : Rising s.st)
    {j : Nat} (hj : ∀ x y, x < s.fbW.toNat → y < s.fbH.toNat → j ≠ stIndex s.cfg x y) :
    stRead (convert s) j = stRead s j := by
  have hnone : cellGet (blitCells s) j = none := by
    refine cellGet_eq_none fun c hc => ?_
    obtain ⟨x, y, hx, hy, rfl⟩ := mem_blitCells.mp hc
    exact fun h => hj x y hx hy h.symm
  unfold stRead
  rw [convert_st, convert_stGen, cellGet_cellOverlay (blitCells_rising hw) hst, hnone]
  rfl

/-- BLIT keeps the staging image in canonical form and inside its capacity. -/
theorem convert_st_wf {s : State} (hw : s.fbW.toNat ≤ s.cfg.maxW) (hh : s.fbH.toNat ≤ s.cfg.maxH)
    (hst : Image.wf (s.cfg.maxW * s.cfg.maxH) s.st) :
    Image.wf (s.cfg.maxW * s.cfg.maxH) (convert s).st := by
  refine Image.overlay_wf ⟨blitCells_rising hw, fun c hc => ?_⟩ hst
  obtain ⟨x, y, hx, hy, rfl⟩ := mem_blitCells.mp hc
  show stIndex s.cfg x y < s.cfg.maxW * s.cfg.maxH
  calc stIndex s.cfg x y < stIndex s.cfg 0 (y + 1) := stIndex_lt (by omega) (.inl (by omega))
    _ = (y + 1) * s.cfg.maxW := by simp [stIndex]
    _ ≤ s.cfg.maxH * s.cfg.maxW := Nat.mul_le_mul_right _ (by omega)
    _ = s.cfg.maxW * s.cfg.maxH := Nat.mul_comm _ _

/-! Handlers and the palette. -/

/-- Raw reads with HOST silent. -/
theorem readBytes_quiet {s : State} (h : s.hostTodo = []) (l : List Byte) :
    readBytes l s = (l.map (rfRead s), s) := by
  induction l with
  | nil => rfl
  | cons a r ih => simp [readBytes, poll_quiet h, ih]

@[simp] theorem applyPushes_nil (slot : Nibble) (s : State) : applyPushes slot [] s = s := rfl

@[simp] theorem applyFbOps_nil (slot : Nibble) (s : State) : applyFbOps slot [] s = s := rfl

/-- A property that a poll and a write into the slot keep holds after a handler's pushes. -/
theorem applyPushes_induction {P : State → Prop} {slot : Nibble}
    (hpoll : ∀ s, P s → P (poll s))
    (hwrite : ∀ (s : State) (sub : Nibble) (v : Byte), P s → P (rfWrite s (portAddr slot sub) v))
    (l : List (Nibble × Byte)) {s : State} (h : P s) : P (applyPushes slot l s) := by
  induction l generalizing s with
  | nil => exact h
  | cons p r ih => exact ih (hwrite _ _ _ (hpoll _ h))

/-- A property that a poll and one framebuffer operation keep holds after all of a handler's. -/
theorem applyFbOps_induction {P : State → Prop} {slot : Nibble}
    (hpoll : ∀ s, P s → P (poll s)) (hop : ∀ (op : FbOp) (s : State), P s → P (handlerFbOp slot op s))
    (l : List FbOp) {s : State} (h : P s) : P (applyFbOps slot l s) := by
  induction l generalizing s with
  | nil => exact h
  | cons p r ih => exact ih (hop _ _ (hpoll _ h))

/-- The slot of an address of a slot is that slot. -/
@[simp] theorem slotOf_portAddr (slot sub : Nibble) : slotOf (portAddr slot sub) = slot := by
  revert slot sub; decide

@[simp] theorem subOf_portAddr (slot sub : Nibble) : subOf (portAddr slot sub) = sub := by
  revert slot sub; decide

/-- An address is the address of its sub-register in its slot (R69). -/
@[simp] theorem portAddr_slotOf_subOf (a : Byte) : portAddr (slotOf a) (subOf a) = a := by
  revert a; decide

/-! The fetch. -/

/-- A transaction is fetched exactly when the trace decodes to it. -/
theorem fetch_of_decode {s : State} {i : Instr} {rest : List Byte}
    (h : decode s.input = .ok i rest) : fetch s = .transaction i { s with input := rest } := by
  unfold fetch; rw [h]

theorem step_of_decode {s : State} {i : Instr} {rest : List Byte}
    (h : decode s.input = .ok i rest) : step s = exec i { s with input := rest } := by
  unfold step; rw [fetch_of_decode h]

/-- Everything a fetch can give. -/
theorem fetch_cases (s : State) :
    (∃ i rest, decode s.input = .ok i rest ∧ fetch s = .transaction i { s with input := rest }) ∨
    (∃ e, e ≠ .truncated ∧ decode s.input = .reject e ∧
      fetch s = .reserved (refuse (.reservedDescriptor e) (advance s))) ∨
    (decode s.input = .reject .truncated ∧ ∃ f, fetch s = .stuck f) := by
  unfold fetch
  split
  · rename_i i rest h; exact .inl ⟨i, rest, h, rfl⟩
  · rename_i h; exact .inr (.inr ⟨h, _, rfl⟩)
  · rename_i h; exact .inr (.inl ⟨_, by simp, h, rfl⟩)
  · rename_i h; exact .inr (.inl ⟨_, by simp, h, rfl⟩)
  · rename_i h; exact .inr (.inl ⟨_, by simp, h, rfl⟩)

end Sys2Proof.Machine
end

