-- ==== Sys2Proof/Laws/Closure.lean ====
section
/-! SUPPORT. What a transaction can do, said once: every transaction other than BOOT and FRAME, at the
top level or nested, and so a whole evaluation, is made of the atomic updates listed in `Closed`; a
property that each of them keeps holds after the transaction. -/

namespace Sys2Proof.Machine

/-- The events a transaction other than BOOT and FRAME hands to the observer. -/
def Event.ofTransaction : Event → Bool
  | .result _ => true
  | .trace _ => true
  | .raised x => match x with
    | .resizeOverCapacity _ _ => true
    | .bootLoadFail => false
    | .bootEvalFail => false
    | .frameEvalFail _ => false
    | .swapchainInvalidated => false
  | .refusal _ => true
  | .evaluate _ => false
  | .handler _ _ => true
  | .phase _ => false
  | .frame _ => false

/-- A property that HOST's steps keep, whichever are pending and whenever they take effect. -/
structure HostClosed (P : State → Prop) : Prop where
  host : ∀ h s, P s → P (hostStep h s)
  todo : ∀ s l, P s → P { s with hostTodo := l }
  sched : ∀ s l, P s → P { s with sched := l }

theorem HostClosed.poll {P : State → Prop} (c : HostClosed P) {s : State} (h : P s) :
    P (poll s) :=
  poll_induction c.host c.todo c.sched h

theorem HostClosed.issueHost {P : State → Prop} (c : HostClosed P) (steps : List HostStep)
    {s : State} (h : P s) : P (issueHost steps s) :=
  c.poll (c.todo _ _ h)

/-- A property that every atomic update of SEQ's transactions other than BOOT, FRAME, BLIT and GEOM
keeps. -/
structure Closed (P : State → Prop) : Prop where
  poll : ∀ {s}, P s → P (poll s)
  event : ∀ e s, e.ofTransaction = true → P s → P (emit e s)
  mark : ∀ s, P s → P (setRefused s)
  store : ∀ s a v, P s → P (rfWrite s a v)
  pixel : ∀ s i p, i < fbSize s → P s → P (fbWrite s i p)
  size : ∀ w h s, w ≤ s.cfg.maxW → h ≤ s.cfg.maxH → w % s.cfg.cell = 0 → h % s.cfg.cell = 0 →
    P s → P (reallocate w h s)
  palette : ∀ sys s, P s → P (refreshPalette sys s)
  handler : ∀ slot v s, P s → P (hstateWrite slot v s)

variable {P : State → Prop} (c : Closed P)
include c

theorem Closed.refuse (r : RefuseReason) {s : State} (h : P s) : P (refuse r s) :=
  c.event _ _ rfl (c.mark _ h)

theorem Closed.trace (r : TraceRec) {s : State} (h : P s) : P (trace r s) := by
  unfold Machine.trace
  split
  · exact c.event _ _ rfl h
  · exact h

theorem Closed.writePixel (i px : Word) {s : State} (h : P s) : P (writePixel i px s) := by
  rcases writePixel_cases i px s with ⟨hi, e⟩ | ⟨_, e⟩ <;> rw [e]
  · exact c.pixel _ _ _ hi h
  · exact c.refuse _ h

theorem Closed.resizeTo {w h : Nat} {s : State} (hw : w ≤ s.cfg.maxW) (hh : h ≤ s.cfg.maxH)
    (hs : P s) : P (resizeTo w h s) := by
  rcases resizeTo_cases w h s with ⟨_, e⟩ | ⟨_, _, e⟩ | ⟨⟨h1, h2⟩, _, e⟩ <;> rw [e]
  · exact c.refuse _ hs
  · exact hs
  · exact c.size _ _ _ hw hh h1 h2 hs

theorem Closed.resizeFb (w h : Word) {s : State} (hs : P s) : P (resizeFb w h s) := by
  have hr : P (raise (.resizeOverCapacity w h) s) := c.event _ _ rfl hs
  unfold Machine.resizeFb
  split
  · split
    · exact c.resizeTo (Nat.min_le_right _ _) (Nat.min_le_right _ _) hr
    · exact c.resizeTo (Nat.min_le_right _ _) (Nat.min_le_right _ _) hs
  · split
    · exact hr
    · rename_i hc
      have : ¬s.cfg.maxW < w.toNat ∧ ¬s.cfg.maxH < h.toNat := not_or.mp hc
      exact c.resizeTo (by omega) (by omega) hs

theorem Closed.handlerFbOp (slot : Nibble) (op : FbOp) {s : State} (h : P s) :
    P (handlerFbOp slot op s) := by
  unfold Machine.handlerFbOp
  split
  · cases op with
    | fbwr i px => exact c.writePixel i px h
    | resize w k => exact c.resizeFb w k h
  · exact c.refuse _ h

theorem Closed.applyAnswer (hd : Handler) (slot : Nibble) (ans : HandlerAnswer) {s : State}
    (h : P s) : P (applyAnswer hd slot ans s) := by
  have hk : P (keepHandlerState hd slot ans.hstate s) := by
    cases hd
    · exact h
    · exact h
    · exact c.handler _ _ _ h
  exact applyFbOps_induction (P := P) (fun _ => c.poll) (fun op _ => c.handlerFbOp slot op) _
    (applyPushes_induction (P := P) (fun _ => c.poll) (fun _ _ _ => c.store _ _ _) _ hk)

theorem Closed.callHandler (hd : Handler) (slot : Nibble) (call : HandlerCall) {s : State}
    (h : P s) : P (callHandler hd slot call s).1 :=
  c.applyAnswer _ _ _ (c.event _ _ rfl h)

theorem Closed.readBytes (l : List Byte) {s : State} (h : P s) : P (readBytes l s).2 := by
  induction l generalizing s with
  | nil => exact h
  | cons a r ih => exact ih (c.poll h)

theorem Closed.tellScreen (pal : List Pixel) {s : State} (h : P s) : P (tellScreen pal s) := by
  unfold Machine.tellScreen
  split
  · exact c.callHandler _ _ _ h
  · exact h
  · exact h

theorem Closed.paletteRecompute {s : State} (h : P s) : P (paletteRecompute s) :=
  c.tellScreen _ (c.poll (c.palette _ _ (c.readBytes _ h)))

theorem Closed.portIn (addr : Byte) {s : State} (h : P s) : P (portIn addr s) := by
  unfold Machine.portIn
  split
  · exact c.event _ _ rfl (c.callHandler _ _ _ h)
  · exact c.event _ _ rfl (c.trace _ h)
  · exact c.event _ _ rfl h

theorem Closed.dispatchWrite (addr val : Byte) {s : State} (h : P s) :
    P (dispatchWrite addr val s) := by
  unfold Machine.dispatchWrite
  split
  · exact c.callHandler _ _ _ h
  · exact c.trace _ h
  · exact c.trace _ h

theorem Closed.portOut (addr val : Byte) {s : State} (h : P s) : P (portOut addr val s) := by
  have h2 : P (Machine.dispatchWrite addr val (Machine.poll (rfWrite (Machine.poll s) addr val))) :=
    c.dispatchWrite _ _ (c.poll (c.store _ _ _ (c.poll h)))
  unfold Machine.portOut
  dsimp only
  split
  · exact c.paletteRecompute (c.poll h2)
  · exact h2

theorem Closed.admitted {ok : Bool} {run : State → State} {s : State}
    (hr : ok = true → P (run s)) (h : P s) : P (admitted ok run s) := by
  cases ok
  · exact c.refuse _ h
  · exact hr rfl

theorem Closed.runPin (addr : Byte) {s : State} (h : P s) : P (runPin addr s) := by
  unfold Machine.runPin; exact c.admitted (fun _ => c.portIn _ (c.poll h)) h

theorem Closed.runPout (addr val : Byte) {s : State} (h : P s) : P (runPout addr val s) := by
  unfold Machine.runPout; exact c.admitted (fun _ => c.portOut _ _ h) h

theorem Closed.runPush (addr val : Byte) {s : State} (h : P s) : P (runPush addr val s) := by
  unfold Machine.runPush; exact c.admitted (fun _ => c.store _ _ _ (c.poll h)) h

theorem Closed.runPeek (addr : Byte) {s : State} (h : P s) : P (runPeek addr s) := by
  unfold Machine.runPeek; exact c.admitted (fun _ => c.event _ _ rfl (c.poll h)) h

theorem Closed.runResize (w k : Word) {s : State} (h : P s) : P (runResize w k s) := by
  unfold Machine.runResize; exact c.admitted (fun _ => c.resizeFb _ _ (c.poll h)) h

theorem Closed.runFbwr (j px : Word) {s : State} (h : P s) : P (runFbwr j px s) := by
  unfold Machine.runFbwr; exact c.admitted (fun _ => c.writePixel _ _ (c.poll h)) h

theorem Closed.runRnote (hc : HostClosed P) {s : State} (h : P s) : P (runRnote s) := by
  unfold Machine.runRnote; exact c.admitted (fun _ => hc.issueHost _ h) h

theorem Closed.runPmove (hc : HostClosed P) (x y : Word) {s : State} (h : P s) : P (runPmove x y s) := by
  unfold Machine.runPmove; exact c.admitted (fun _ => hc.issueHost _ h) h

theorem Closed.runBdown (hc : HostClosed P) (id : Word) {s : State} (h : P s) : P (runBdown id s) := by
  unfold Machine.runBdown; exact c.admitted (fun _ => hc.issueHost _ h) h

theorem Closed.runBup (hc : HostClosed P) (id : Word) {s : State} (h : P s) : P (runBup id s) := by
  unfold Machine.runBup; exact c.admitted (fun _ => hc.issueHost _ h) h

theorem Closed.runStop (hc : HostClosed P) {s : State} (h : P s) : P (runStop s) := by
  unfold Machine.runStop; exact c.admitted (fun _ => hc.issueHost _ h) h

/-- BLIT, where a property that it keeps is asked for. -/
theorem Closed.runBlit (hk : ∀ s, benchAdmits s → P s → P (convert (Machine.poll s))) {s : State}
    (h : P s) : P (runBlit s) := by
  unfold Machine.runBlit; exact c.admitted (fun he => hk _ (of_decide_eq_true he) h) h

/-- GEOM, likewise. -/
theorem Closed.runGeom (hk : ∀ s, benchAdmits s → P s → P (deriveGeometry (Machine.poll s)))
    {s : State} (h : P s) : P (runGeom s) := by
  unfold Machine.runGeom; exact c.admitted (fun he => hk _ (of_decide_eq_true he) h) h

omit c in
/-- At the top level only does a test bench act. -/
theorem not_benchAdmits_of_evaluating {s : State} (he : s.evaluating = true) : ¬benchAdmits s :=
  fun h => by cases he.symm.trans h.1

/-- A property that every atomic update keeps holds after a nested transaction. -/
theorem Closed.runNested (hc : HostClosed P) (i : Instr) {s : State} (he : s.evaluating = true)
    (h : P s) : P (runNested i s) := by
  cases i with
  | pin addr => exact c.runPin _ h
  | pout addr val => exact c.runPout _ _ h
  | push addr val => exact c.runPush _ _ h
  | peek addr => exact c.runPeek _ h
  | resize w k => exact c.runResize _ _ h
  | fbwr j px => exact c.runFbwr _ _ h
  | blit =>
    show P (Machine.runBlit s)
    unfold Machine.runBlit
    exact c.admitted (fun hk => absurd (of_decide_eq_true hk) (not_benchAdmits_of_evaluating he)) h
  | rnote => exact c.runRnote hc h
  | geom =>
    show P (Machine.runGeom s)
    unfold Machine.runGeom
    exact c.admitted (fun hk => absurd (of_decide_eq_true hk) (not_benchAdmits_of_evaluating he)) h
  | pmove x y => exact c.runPmove hc _ _ h
  | bdown id => exact c.runBdown hc _ h
  | bup id => exact c.runBup hc _ h
  | boot l e n => exact c.refuse _ h
  | frame e v n => exact c.refuse _ h
  | stop => exact c.runStop hc h

/-- The same after one nested descriptor, whatever it is. -/
theorem Closed.nestedStep (hc : HostClosed P)
    (hin : ∀ s l, P s → P { s with input := l }) {s : State} (he : s.evaluating = true)
    (h : P s) : P (nestedStep s) := by
  unfold Machine.nestedStep
  rcases fetch_cases s with ⟨i, rest, _, e⟩ | ⟨r, _, _, e⟩ | ⟨_, f, e⟩ <;> rw [e]
  · exact c.runNested hc i he (hin _ _ h)
  · exact c.refuse _ (hin _ _ h)
  · exact c.refuse _ h

omit c in
/-- HOST's steps leave it alone whether an evaluation is in progress. -/
theorem host_evaluating (b : Bool) : HostClosed fun s => s.evaluating = b where
  host h s hs := by cases h <;> exact hs
  todo _ _ hs := hs
  sched _ _ hs := hs

omit c in
/-- That an evaluation is in progress is one of those properties. -/
theorem closed_evaluating (b : Bool) : Closed fun s => s.evaluating = b where
  poll hs := (host_evaluating b).poll hs
  event _ _ _ hs := hs
  mark _ hs := hs
  store _ _ _ hs := hs
  pixel _ _ _ _ hs := hs
  size _ _ _ _ _ _ _ hs := hs
  palette _ _ hs := hs
  handler _ _ _ hs := hs

/-- The same after all the nested transactions of an evaluation. -/
theorem Closed.nestedSteps (hc : HostClosed P)
    (hin : ∀ s l, P s → P { s with input := l }) (n : Nat) {s : State} (he : s.evaluating = true)
    (h : P s) : P (nestedSteps n s) := by
  induction n generalizing s with
  | zero => exact h
  | succ n ih => exact ih ((closed_evaluating true).nestedStep (host_evaluating true)
      (fun _ _ h => h) he he) (c.nestedStep hc hin he h)

/-- The same after a whole evaluation, of a property that the call and the return keep too. -/
theorem Closed.evaluate (hc : HostClosed P)
    (hin : ∀ s l, P s → P { s with input := l }) {entry : Half} {n : Nat} {s : State}
    (hcall : P (callEvaluate entry s)) (hret : ∀ t, P t → P (returnEvaluate t)) :
    P (evaluate entry n s) :=
  hret _ (c.poll (c.nestedSteps hc hin n rfl hcall))

/-- A property that every atomic update keeps, and BLIT and GEOM besides, holds after every
transaction of SEQ other than BOOT and FRAME. -/
theorem Closed.exec_seq (hblit : ∀ s, benchAdmits s → P s → P (convert (Machine.poll s)))
    (hgeom : ∀ s, benchAdmits s → P s → P (deriveGeometry (Machine.poll s))) (i : Instr)
    (hi : issuer i = .seq) (hl : ∀ l e n, i ≠ .boot l e n) (hf : ∀ e v n, i ≠ .frame e v n)
    {s t : State} (h : P s) (ht : exec i s = .next t) : P t := by
  cases i with
  | pin addr => cases ht; exact c.runPin _ h
  | pout addr val => cases ht; exact c.runPout _ _ h
  | push addr val => cases ht; exact c.runPush _ _ h
  | peek addr => cases ht; exact c.runPeek _ h
  | resize w k => cases ht; exact c.runResize _ _ h
  | fbwr j px => cases ht; exact c.runFbwr _ _ h
  | blit => cases ht; exact c.runBlit hblit h
  | geom => cases ht; exact c.runGeom hgeom h
  | boot l e n => exact absurd rfl (hl l e n)
  | frame e v n => exact absurd rfl (hf e v n)
  | rnote => cases hi
  | pmove x y => cases hi
  | bdown id => cases hi
  | bup id => cases hi
  | stop => cases hi

/-- The same for every transaction other than BOOT and FRAME, of a property that HOST keeps too. -/
theorem Closed.exec_simple (hc : HostClosed P)
    (hblit : ∀ s, benchAdmits s → P s → P (convert (Machine.poll s)))
    (hgeom : ∀ s, benchAdmits s → P s → P (deriveGeometry (Machine.poll s))) (i : Instr)
    (hl : ∀ l e n, i ≠ .boot l e n) (hf : ∀ e v n, i ≠ .frame e v n) {s t : State} (h : P s)
    (ht : exec i s = .next t) : P t := by
  by_cases hi : issuer i = .seq
  · exact c.exec_seq hblit hgeom i hi hl hf h ht
  · cases i with
    | rnote => cases ht; exact c.runRnote hc h
    | pmove x y => cases ht; exact c.runPmove hc _ _ h
    | bdown id => cases ht; exact c.runBdown hc _ h
    | bup id => cases ht; exact c.runBup hc _ h
    | stop => cases ht; exact c.runStop hc h
    | _ => exact absurd rfl hi

end Sys2Proof.Machine
end

