-- ==== Sys2Proof/Laws/Decode.lean ====
section
/-! SUPPORT. The small laws of descriptors: the fields of a descriptor made of three fields, and that
the nine bytes and the descriptor determine one another (spec 30_encoding R91). -/

namespace Sys2Proof

/-- A descriptor as a number. -/
theorem Descriptor.make_toNat (op : Byte) (a b : Word) :
    (Descriptor.make op a b).toNat = op.toNat * 2 ^ 64 + a.toNat * 2 ^ 32 + b.toNat := by
  show BitVec.toNat (op ++ a ++ b : BitVec (8 + 32 + 32)) = _
  rw [BitVec.toNat_append, BitVec.toNat_append, ← Nat.shiftLeft_add_eq_or_of_lt b.isLt,
    ← Nat.shiftLeft_add_eq_or_of_lt a.isLt]
  simp only [Nat.shiftLeft_eq]
  omega

@[simp] theorem Descriptor.make_op (op : Byte) (a b : Word) : (Descriptor.make op a b).op = op := by
  apply BitVec.eq_of_toNat_eq
  have := b.isLt; have := a.isLt; have := op.isLt
  simp only [Descriptor.op, BitVec.extractLsb'_toNat, Descriptor.make_toNat,
    Nat.shiftRight_eq_div_pow]
  omega

@[simp] theorem Descriptor.make_a (op : Byte) (a b : Word) : (Descriptor.make op a b).a = a := by
  apply BitVec.eq_of_toNat_eq
  have := b.isLt; have := a.isLt; have := op.isLt
  simp only [Descriptor.a, BitVec.extractLsb'_toNat, Descriptor.make_toNat,
    Nat.shiftRight_eq_div_pow]
  omega

@[simp] theorem Descriptor.make_b (op : Byte) (a b : Word) : (Descriptor.make op a b).b = b := by
  apply BitVec.eq_of_toNat_eq
  have := b.isLt; have := a.isLt; have := op.isLt
  simp only [Descriptor.b, BitVec.extractLsb'_toNat, Descriptor.make_toNat,
    Nat.shiftRight_eq_div_pow]
  omega

/-- A descriptor is made of its fields. -/
theorem Descriptor.make_fields (td : Descriptor) : Descriptor.make td.op td.a td.b = td := by
  apply BitVec.eq_of_toNat_eq
  have := td.isLt
  rw [Descriptor.make_toNat]
  simp only [Descriptor.op, Descriptor.a, Descriptor.b, BitVec.extractLsb'_toNat,
    Nat.shiftRight_eq_div_pow]
  omega

/-- Nine bytes joined, as a number. -/
theorem join_toNat (b0 b1 b2 b3 b4 b5 b6 b7 b8 : Byte) :
    BitVec.toNat (b0 ++ b1 ++ b2 ++ b3 ++ b4 ++ b5 ++ b6 ++ b7 ++ b8) =
      b0.toNat * 2 ^ 64 + b1.toNat * 2 ^ 56 + b2.toNat * 2 ^ 48 + b3.toNat * 2 ^ 40 +
        b4.toNat * 2 ^ 32 + b5.toNat * 2 ^ 24 + b6.toNat * 2 ^ 16 + b7.toNat * 2 ^ 8 +
        b8.toNat := by
  simp only [BitVec.toNat_append]
  rw [← Nat.shiftLeft_add_eq_or_of_lt b8.isLt, ← Nat.shiftLeft_add_eq_or_of_lt b7.isLt,
    ← Nat.shiftLeft_add_eq_or_of_lt b6.isLt, ← Nat.shiftLeft_add_eq_or_of_lt b5.isLt,
    ← Nat.shiftLeft_add_eq_or_of_lt b4.isLt, ← Nat.shiftLeft_add_eq_or_of_lt b3.isLt,
    ← Nat.shiftLeft_add_eq_or_of_lt b2.isLt, ← Nat.shiftLeft_add_eq_or_of_lt b1.isLt]
  simp only [Nat.shiftLeft_eq]
  omega

/-- The bytes of a descriptor joined are the descriptor. -/
theorem join_bytes (td : Descriptor) :
    (td.extractLsb' 64 8 ++ td.extractLsb' 56 8 ++ td.extractLsb' 48 8 ++ td.extractLsb' 40 8 ++
      td.extractLsb' 32 8 ++ td.extractLsb' 24 8 ++ td.extractLsb' 16 8 ++ td.extractLsb' 8 8 ++
      td.extractLsb' 0 8 : BitVec (8 + 8 + 8 + 8 + 8 + 8 + 8 + 8 + 8)) = td := by
  apply BitVec.eq_of_toNat_eq
  have := td.isLt
  rw [join_toNat]
  simp only [BitVec.extractLsb'_toNat, Nat.shiftRight_eq_div_pow]
  omega

/-- The bytes of nine bytes joined are those bytes. -/
theorem bytes_join (b0 b1 b2 b3 b4 b5 b6 b7 b8 : Byte) :
    Descriptor.bytes (b0 ++ b1 ++ b2 ++ b3 ++ b4 ++ b5 ++ b6 ++ b7 ++ b8) =
      [b0, b1, b2, b3, b4, b5, b6, b7, b8] := by
  have h := join_toNat b0 b1 b2 b3 b4 b5 b6 b7 b8
  have := b0.isLt; have := b1.isLt; have := b2.isLt; have := b3.isLt; have := b4.isLt
  have := b5.isLt; have := b6.isLt; have := b7.isLt; have := b8.isLt
  unfold Descriptor.bytes
  simp only [List.cons.injEq, and_true]
  refine ⟨?_, ?_, ?_, ?_, ?_, ?_, ?_, ?_, ?_⟩ <;>
  · apply BitVec.eq_of_toNat_eq
    rw [BitVec.extractLsb'_toNat, Nat.shiftRight_eq_div_pow]
    erw [h]
    omega

/-- Decoding the bytes of a descriptor decodes the descriptor. -/
theorem decode_bytes (td : Descriptor) (rest : List Byte) :
    decode (td.bytes ++ rest) =
      match decodeDescriptor td with
      | .ok i => .ok i rest
      | .reject e => .reject e := by
  have h := join_bytes td
  show (match decodeDescriptor (td.extractLsb' 64 8 ++ td.extractLsb' 56 8 ++
    td.extractLsb' 48 8 ++ td.extractLsb' 40 8 ++ td.extractLsb' 32 8 ++ td.extractLsb' 24 8 ++
    td.extractLsb' 16 8 ++ td.extractLsb' 8 8 ++ td.extractLsb' 0 8) with
    | .ok i => DecodeResult.ok i rest
    | .reject e => .reject e) = _
  rw [h]

/-- What is decoded starts with the bytes of a descriptor that is accepted. -/
theorem decode_eq_ok {bytes rest : List Byte} {i : Instr} (h : decode bytes = .ok i rest) :
    ∃ td : Descriptor, bytes = td.bytes ++ rest ∧ decodeDescriptor td = .ok i := by
  unfold decode at h
  split at h
  · rename_i b0 b1 b2 b3 b4 b5 b6 b7 b8 r
    split at h
    · rename_i j hj
      cases h
      refine ⟨b0 ++ b1 ++ b2 ++ b3 ++ b4 ++ b5 ++ b6 ++ b7 ++ b8, ?_, hj⟩
      rw [bytes_join]; rfl
    · cases h
  · cases h

end Sys2Proof
end

