-- ==== Sys2Proof/Laws/Handlers.lean ====
section
/-! SUPPORT. What a handler's entry point can do to the block, said once, with HOST silent (spec
40_port_dispatch R121), and what follows for POUT's dispatch and the palette recompute. -/

namespace Sys2Proof.Machine

/-- Everything that may differ after an entry point of the handler of slot `k` has run from `s`: the
bytes of its own slot, its own state, and, for the screen handler, the framebuffer; the observer is
handed events of which none is a call of a handler. -/
structure HandlerFrame (k : Nibble) (s t : State) : Prop where
  rest : t = { s with
    rf := t.rf, fbW := t.fbW, fbH := t.fbH, fb := t.fb, fbGen := t.fbGen, rz := t.rz
    refused := t.refused, hstate := t.hstate, idx := t.idx, log := t.log }
  regs : ∀ b, slotOf b ≠ k → rfRead t b = rfRead s b
  states : ∀ slot, slot ≠ k → hstateRead t slot = hstateRead s slot
  screen : k ≠ screenSlot s.cfg →
    t.fbW = s.fbW ∧ t.fbH = s.fbH ∧ t.fb = s.fb ∧ t.fbGen = s.fbGen ∧ t.rz = s.rz
  events : ∃ mid, t.log = s.log ++ mid ∧ ∀ slot call, Event.handler slot call ∉ mid

theorem HandlerFrame.refl (k : Nibble) (s : State) : HandlerFrame k s s :=
  ⟨rfl, fun _ _ => rfl, fun _ _ => rfl, fun _ => ⟨rfl, rfl, rfl, rfl, rfl⟩, [], by simp, by simp⟩

variable {k : Nibble} {s t : State}

theorem HandlerFrame.poll (hq : s.hostTodo = []) (h : HandlerFrame k s t) :
    HandlerFrame k s (poll t) := by
  rwa [poll_quiet (by rw [h.rest]; exact hq)]

theorem HandlerFrame.emit {e : Event} (he : ∀ slot call, e ≠ .handler slot call)
    (h : HandlerFrame k s t) : HandlerFrame k s (emit e t) := by
  obtain ⟨h1, h2, h3, h4, mid, h5, h6⟩ := h
  refine ⟨by unfold Machine.emit; rw [h1], h2, h3, h4, mid ++ [e], by simp [h5], fun slot call => ?_⟩
  simp [h6, (he slot call).symm]

theorem HandlerFrame.refuse (r : RefuseReason) (h : HandlerFrame k s t) :
    HandlerFrame k s (refuse r t) := by
  have hm : HandlerFrame k s (setRefused t) :=
    ⟨by unfold setRefused; rw [h.rest], h.regs, h.states, h.screen, h.events⟩
  exact hm.emit (by simp)

theorem HandlerFrame.store (sub : Nibble) (v : Byte) (h : HandlerFrame k s t) :
    HandlerFrame k s (rfWrite t (portAddr k sub) v) := by
  refine ⟨by unfold rfWrite; rw [h.rest], fun b hb => ?_, h.states, h.screen, h.events⟩
  rw [rfRead_rfWrite_of_ne _ _ (by rintro rfl; simp at hb), h.regs b hb]

theorem HandlerFrame.pixel (hk : k = screenSlot s.cfg) (i : Nat) (p : Pixel)
    (h : HandlerFrame k s t) : HandlerFrame k s (fbWrite t i p) :=
  ⟨by unfold fbWrite; rw [h.rest], h.regs, h.states, fun hne => absurd hk hne, h.events⟩

theorem HandlerFrame.reallocate (hk : k = screenSlot s.cfg) (w l : Nat) (h : HandlerFrame k s t) :
    HandlerFrame k s (reallocate w l t) :=
  ⟨by unfold Machine.reallocate setResizePending; rw [h.rest], h.regs, h.states,
    fun hne => absurd hk hne, h.events⟩

theorem HandlerFrame.resizeTo (hk : k = screenSlot s.cfg) (w l : Nat) (h : HandlerFrame k s t) :
    HandlerFrame k s (resizeTo w l t) := by
  rcases resizeTo_cases w l t with ⟨_, e⟩ | ⟨_, _, e⟩ | ⟨_, _, e⟩ <;> rw [e]
  · exact h.refuse _
  · exact h
  · exact h.reallocate hk _ _

theorem HandlerFrame.fbOp (op : FbOp) (h : HandlerFrame k s t) :
    HandlerFrame k s (handlerFbOp k op t) := by
  unfold handlerFbOp
  split
  · rename_i hk
    have hk : k = screenSlot s.cfg := by rw [hk, h.rest]
    cases op with
    | fbwr i px =>
      rcases writePixel_cases i px t with ⟨_, e⟩ | ⟨_, e⟩ <;> simp only [e]
      · exact h.pixel hk _ _
      · exact h.refuse _
    | resize w l =>
      have hr : HandlerFrame k s (raise (.resizeOverCapacity w l) t) := h.emit (by simp)
      simp only
      unfold resizeFb
      split
      · split
        · exact hr.resizeTo hk _ _
        · exact h.resizeTo hk _ _
      · split
        · exact hr
        · exact h.resizeTo hk _ _
  · exact h.refuse _

/-! A handler's own state. -/

theorem hstateRead_hstateWrite_of_ne (s : State) {slot j : Nibble} (v : Nat) (h : j ≠ slot) :
    hstateRead (hstateWrite slot v s) j = hstateRead s j := by
  have hn : slot.toNat ≠ j.toNat := fun e => h (BitVec.eq_of_toNat_eq e).symm
  unfold hstateRead hstateWrite
  dsimp only
  split
  · rw [cellGet_cellErase_of_ne _ hn]
  · rw [cellGet_cellPut, if_neg hn]

theorem hstateRead_hstateWrite_self {s : State} (h : Rising s.hstate) (slot : Nibble) (v : Nat) :
    hstateRead (hstateWrite slot v s) slot = v := by
  unfold hstateRead hstateWrite
  dsimp only
  split
  · rename_i hv; rw [cellGet_cellErase_self h, hv]; rfl
  · rw [cellGet_cellPut, if_pos rfl]; rfl

theorem HandlerFrame.keep (hd : Handler) (v : Nat) (h : HandlerFrame k s t) :
    HandlerFrame k s (keepHandlerState hd k v t) := by
  cases hd with
  | raw => exact h
  | refScreen => exact h
  | external =>
    refine ⟨by unfold keepHandlerState hstateWrite; rw [h.rest], h.regs, fun slot hs => ?_,
      h.screen, h.events⟩
    show hstateRead (hstateWrite k v t) slot = _
    rw [hstateRead_hstateWrite_of_ne _ _ hs, h.states _ hs]

/-- A handler's framebuffer operations leave the registers and the handlers' states alone, with HOST
silent. -/
theorem applyFbOps_keeps (hq : s.hostTodo = []) (k : Nibble) (ops : List FbOp) :
    (applyFbOps k ops s).hostTodo = [] ∧ (applyFbOps k ops s).rf = s.rf ∧
      (applyFbOps k ops s).hstate = s.hstate := by
  refine applyFbOps_induction (P := fun t => t.hostTodo = [] ∧ t.rf = s.rf ∧ t.hstate = s.hstate)
    (fun t h => by rwa [poll_quiet h.1]) (fun op t h => ?_) ops ⟨hq, rfl, rfl⟩
  unfold handlerFbOp
  split
  · cases op with
    | fbwr i px => rcases writePixel_cases i px t with ⟨_, e⟩ | ⟨_, e⟩ <;> simp only [e] <;> exact h
    | resize w l =>
      have hr : ∀ a b (u : State), (u.hostTodo = [] ∧ u.rf = s.rf ∧ u.hstate = s.hstate) →
          (resizeTo a b u).hostTodo = [] ∧ (resizeTo a b u).rf = s.rf ∧
            (resizeTo a b u).hstate = s.hstate := by
        intro a b u hu
        rcases resizeTo_cases a b u with ⟨_, e⟩ | ⟨_, _, e⟩ | ⟨_, _, e⟩ <;> rw [e] <;> exact hu
      simp only
      unfold resizeFb
      split
      · exact hr _ _ _ (by split <;> exact h)
      · split
        · exact h
        · exact hr _ _ _ h
  · exact h

/-- A framebuffer operation does to a state with other registers, other states of the handlers and
another log what it does to the state itself. -/
theorem handlerFbOp_rest (k : Nibble) (op : FbOp) (s : State) (rf : Memory)
    (hs : List (Nat × Nat)) (log : List Event) :
    ∃ l, handlerFbOp k op { s with rf := rf, hstate := hs, log := log } =
      { handlerFbOp k op s with rf := rf, hstate := hs, log := l } := by
  have hr : ∀ w h (u : State) (log : List Event),
      ∃ l, resizeTo w h { u with rf := rf, hstate := hs, log := log } =
        { resizeTo w h u with rf := rf, hstate := hs, log := l } := by
    intro w h u log
    unfold resizeTo
    dsimp only
    (repeat' split) <;> exact ⟨_, rfl⟩
  unfold handlerFbOp
  dsimp only
  split
  · cases op with
    | fbwr i px =>
      simp only [writePixel]
      by_cases h : fbSize s ≤ i.toNat
      · rw [if_pos (by exact h), if_pos h]; exact ⟨_, rfl⟩
      · rw [if_neg (by exact h), if_neg h]; exact ⟨_, rfl⟩
    | resize w h =>
      simp only [resizeFb]
      split
      · split
        · exact hr _ _ (raise (.resizeOverCapacity w h) s) _
        · exact hr _ _ s _
      · split
        · exact ⟨_, rfl⟩
        · exact hr _ _ s _
  · exact ⟨_, rfl⟩

/-- The same of a handler's framebuffer operations in order, with HOST silent. -/
theorem applyFbOps_rest (hq : s.hostTodo = []) (k : Nibble) (ops : List FbOp) (rf : Memory)
    (hs : List (Nat × Nat)) (log : List Event) :
    ∃ l, applyFbOps k ops { s with rf := rf, hstate := hs, log := log } =
      { applyFbOps k ops s with rf := rf, hstate := hs, log := l } := by
  induction ops generalizing s log with
  | nil => exact ⟨log, rfl⟩
  | cons op r ih =>
    obtain ⟨l, e⟩ := handlerFbOp_rest k op s rf hs log
    simp only [applyFbOps]
    rw [poll_quiet (by exact hq), poll_quiet hq, e]
    exact ih (by simpa [applyFbOps, poll_quiet hq] using (applyFbOps_keeps hq k [op]).1) l

/-- A handler's pushes change nothing but the registers, with HOST silent. -/
theorem applyPushes_quiet (hq : s.hostTodo = []) (k : Nibble) (pushes : List (Nibble × Byte)) :
    applyPushes k pushes s = { s with rf := (applyPushes k pushes s).rf } := by
  refine applyPushes_induction (P := fun t => t = { s with rf := t.rf }) (fun t h => ?_)
    (fun t sub v h => by unfold rfWrite; rw [h]) pushes (s := s) rfl
  rwa [poll_quiet (by rw [h]; exact hq)]

/-- A handler's answer keeps to its contract (R121). -/
theorem handlerFrame_applyAnswer (hq : s.hostTodo = []) (hd : Handler) (k : Nibble)
    (ans : HandlerAnswer) : HandlerFrame k s (applyAnswer hd k ans s) :=
  applyFbOps_induction (P := HandlerFrame k s) (fun _ => .poll hq) (fun _ _ h => h.fbOp _) _
    (applyPushes_induction (P := HandlerFrame k s) (fun _ => .poll hq) (fun _ _ _ h => h.store _ _) _
      ((HandlerFrame.refl k s).keep _ _))

/-- A call of a handler: the observer is handed the call, then the answer takes effect. -/
theorem handlerFrame_callHandler (hq : s.hostTodo = []) (hd : Handler) (k : Nibble)
    (call : HandlerCall) :
    HandlerFrame k (Machine.emit (.handler k call) s) (callHandler hd k call s).1 :=
  handlerFrame_applyAnswer (s := Machine.emit (.handler k call) s) hq hd k _

/-! POUT. -/

/-- POUT's dispatch leaves the registers of every other slot alone. -/
theorem rfRead_dispatchWrite (hq : s.hostTodo = []) (a v : Byte) {b : Byte}
    (h : slotOf b ≠ slotOf a) : rfRead (dispatchWrite a v s) b = rfRead s b := by
  unfold dispatchWrite
  split
  · exact (handlerFrame_callHandler hq _ _ _).regs b h
  · unfold Machine.trace; split <;> rfl
  · unfold Machine.trace; split <;> rfl

/-- The palette recompute with HOST silent: PAL is PaletteFn of the slot's bytes as they stand, then
the screen handler is told (R126). -/
theorem paletteRecompute_quiet (hq : s.hostTodo = []) :
    paletteRecompute s =
      tellScreen (paletteOf s.cfg (slotBytes s s.cfg.sysSlot))
        (refreshPalette (slotBytes s s.cfg.sysSlot) s) := by
  unfold paletteRecompute
  rw [readBytes_quiet hq]
  dsimp only
  rw [poll_quiet (by exact hq)]
  rfl

/-- POUT with HOST silent up to the palette refresh (R125). -/
theorem portOut_quiet (hq : s.hostTodo = []) (a v : Byte) :
    portOut a v s =
      if isPaletteAddr (dispatchWrite a v (rfWrite s a v)).cfg a then
        paletteRecompute (Machine.poll (dispatchWrite a v (rfWrite s a v)))
      else dispatchWrite a v (rfWrite s a v) := by
  unfold portOut
  rw [poll_quiet hq]
  dsimp only
  rw [poll_quiet (s := rfWrite s a v) hq]

/-! Pixels as words. -/

/-- A pixel carried as a 32-bit number is that pixel (R62). -/
theorem pixelOfWord_wordOfPixel (p : Pixel) : pixelOfWord (wordOfPixel p) = p := by
  obtain ⟨c0, c1, c2, c3⟩ := p
  have h0 := c0.isLt; have h1 := c1.isLt; have h2 := c2.isLt; have h3 := c3.isLt
  have e : (wordOfPixel ⟨c0, c1, c2, c3⟩).toNat =
      ((c3.toNat * 256 + c2.toNat) * 256 + c1.toNat) * 256 + c0.toNat := by
    unfold wordOfPixel
    simp only [BitVec.toNat_append, Nat.shiftLeft_eq]
    rw [← Nat.shiftLeft_eq, ← Nat.shiftLeft_eq, ← Nat.shiftLeft_eq,
      ← Nat.shiftLeft_add_eq_or_of_lt h2, ← Nat.shiftLeft_add_eq_or_of_lt h1,
      ← Nat.shiftLeft_add_eq_or_of_lt h0]
    simp only [Nat.shiftLeft_eq]
  unfold pixelOfWord
  simp only [Pixel.mk.injEq]
  refine ⟨?_, ?_, ?_, ?_⟩ <;>
  · apply BitVec.eq_of_toNat_eq
    rw [BitVec.extractLsb'_toNat, Nat.shiftRight_eq_div_pow, e]
    omega

end Sys2Proof.Machine
end

