-- ==== Sys2Proof/Laws/PerInstr.lean ====
section
/-! SUPPORT. The family of statements made for each transaction: its encoding has the fixed bits of
its own row of the opcode table (spec 30_encoding R94, R95). -/

namespace Sys2Proof.Laws

open Sys2Proof

/-- Masking a descriptor masks its three fields. -/
theorem make_and (op m : Byte) (a p b q : Word) :
    Descriptor.make op a b &&& Descriptor.make m p q =
      Descriptor.make (op &&& m) (a &&& p) (b &&& q) := by
  unfold Descriptor.make
  rw [BitVec.and_append, BitVec.and_append]

theorem byteField_and (v : Byte) : byteField v &&& 0xFFFFFF00 = 0 := by
  revert v; decide

theorem answerField_and (p q : Bool) : answerField p q &&& 0xFFFFFFFC = 0 := by
  revert p q; decide

/-- A descriptor of three fields matches a row whose mask and value are given field by field. -/
theorem matches_make {op m val : Byte} {a p b q : Word} (mnemonic : String)
    (hop : op &&& m = val) (ha : a &&& p = 0) (hb : b &&& q = 0) :
    OpcodeRow.matches ⟨mnemonic, Descriptor.make m p q, Descriptor.make val 0 0⟩
      (Descriptor.make op a b) = true := by
  unfold OpcodeRow.matches
  rw [make_and, hop, ha, hb]
  exact beq_self_eq_true _

/-- The transaction's encoding matches the row of its mnemonic. -/
def EncodingRow.Statement (i : Instr) : Prop :=
  ∃ r ∈ opcodeTable, r.mnemonic = i.mnemonic ∧ r.matches (encode i) = true

theorem EncodingRow.pin (addr : Byte) : EncodingRow.Statement (.pin addr) :=
  ⟨⟨"PIN", Descriptor.make 0xFF 0xFFFFFF00 0xFFFFFFFF, Descriptor.make 0x00 0 0⟩, by decide, rfl,
    matches_make _ rfl (byteField_and addr) rfl⟩

theorem EncodingRow.pout (addr val : Byte) : EncodingRow.Statement (.pout addr val) :=
  ⟨⟨"POUT", Descriptor.make 0xFF 0xFFFFFF00 0xFFFFFF00, Descriptor.make 0x01 0 0⟩, by decide, rfl,
    matches_make _ rfl (byteField_and addr) (byteField_and val)⟩

theorem EncodingRow.push (addr val : Byte) : EncodingRow.Statement (.push addr val) :=
  ⟨⟨"PUSH", Descriptor.make 0xFF 0xFFFFFF00 0xFFFFFF00, Descriptor.make 0x02 0 0⟩, by decide, rfl,
    matches_make _ rfl (byteField_and addr) (byteField_and val)⟩

theorem EncodingRow.peek (addr : Byte) : EncodingRow.Statement (.peek addr) :=
  ⟨⟨"PEEK", Descriptor.make 0xFF 0xFFFFFF00 0xFFFFFFFF, Descriptor.make 0x03 0 0⟩, by decide, rfl,
    matches_make _ rfl (byteField_and addr) rfl⟩

theorem EncodingRow.resize (w h : Word) : EncodingRow.Statement (.resize w h) :=
  ⟨⟨"RESIZE", Descriptor.make 0xFF 0 0, Descriptor.make 0x04 0 0⟩, by decide, rfl,
    matches_make _ rfl (BitVec.and_zero) (BitVec.and_zero)⟩

theorem EncodingRow.fbwr (i px : Word) : EncodingRow.Statement (.fbwr i px) :=
  ⟨⟨"FBWR", Descriptor.make 0xFF 0 0, Descriptor.make 0x05 0 0⟩, by decide, rfl,
    matches_make _ rfl (BitVec.and_zero) (BitVec.and_zero)⟩

theorem EncodingRow.blit : EncodingRow.Statement .blit :=
  ⟨⟨"BLIT", Descriptor.make 0xFF 0xFFFFFFFF 0xFFFFFFFF, Descriptor.make 0x06 0 0⟩, by decide, rfl,
    matches_make _ rfl rfl rfl⟩

theorem EncodingRow.rnote : EncodingRow.Statement .rnote :=
  ⟨⟨"RNOTE", Descriptor.make 0xFF 0xFFFFFFFF 0xFFFFFFFF, Descriptor.make 0x07 0 0⟩, by decide, rfl,
    matches_make _ rfl rfl rfl⟩

theorem EncodingRow.geom : EncodingRow.Statement .geom :=
  ⟨⟨"GEOM", Descriptor.make 0xFF 0xFFFFFFFF 0xFFFFFFFF, Descriptor.make 0x08 0 0⟩, by decide, rfl,
    matches_make _ rfl rfl rfl⟩

theorem EncodingRow.pmove (x y : Word) : EncodingRow.Statement (.pmove x y) :=
  ⟨⟨"PMOVE", Descriptor.make 0xFF 0 0, Descriptor.make 0x09 0 0⟩, by decide, rfl,
    matches_make _ rfl (BitVec.and_zero) (BitVec.and_zero)⟩

theorem EncodingRow.bdown (id : Word) : EncodingRow.Statement (.bdown id) :=
  ⟨⟨"BDOWN", Descriptor.make 0xFF 0 0xFFFFFFFF, Descriptor.make 0x0A 0 0⟩, by decide, rfl,
    matches_make _ rfl (BitVec.and_zero) rfl⟩

theorem EncodingRow.bup (id : Word) : EncodingRow.Statement (.bup id) :=
  ⟨⟨"BUP", Descriptor.make 0xFF 0 0xFFFFFFFF, Descriptor.make 0x0B 0 0⟩, by decide, rfl,
    matches_make _ rfl (BitVec.and_zero) rfl⟩

theorem EncodingRow.boot (loadFail evalFail : Bool) (n : Word) :
    EncodingRow.Statement (.boot loadFail evalFail n) :=
  ⟨⟨"BOOT", Descriptor.make 0xFF 0xFFFFFFFC 0, Descriptor.make 0x0C 0 0⟩, by decide, rfl,
    matches_make _ rfl (answerField_and loadFail evalFail) (BitVec.and_zero)⟩

theorem EncodingRow.frame (evalFail invalid : Bool) (n : Word) :
    EncodingRow.Statement (.frame evalFail invalid n) :=
  ⟨⟨"FRAME", Descriptor.make 0xFF 0xFFFFFFFC 0, Descriptor.make 0x0D 0 0⟩, by decide, rfl,
    matches_make _ rfl (answerField_and evalFail invalid) (BitVec.and_zero)⟩

theorem EncodingRow.stop : EncodingRow.Statement .stop :=
  ⟨⟨"STOP", Descriptor.make 0xFF 0xFFFFFFFF 0xFFFFFFFF, Descriptor.make 0x0E 0 0⟩, by decide, rfl,
    matches_make _ rfl rfl rfl⟩

end Sys2Proof.Laws
end

