-- ==== Sys2Proof/Laws/Sequencer.lean ====
section
/-! SUPPORT. The sequencer's pieces, each said once: a nested descriptor, a nested transaction beside
`exec`, the vector call with HOST silent, and what a handler's pushes leave in its slot. -/

namespace Sys2Proof.Machine

/-- A nested descriptor that decodes is consumed and its transaction runs nested. -/
theorem nestedStep_of_decode {s : State} {i : Instr} {rest : List Byte}
    (h : decode s.input = .ok i rest) : nestedStep s = runNested i { s with input := rest } := by
  unfold nestedStep
  rw [fetch_of_decode h]

/-- A transaction other than BOOT and FRAME runs nested as `exec` runs it. -/
theorem exec_eq_runNested (i : Instr) (hl : ∀ l e n, i ≠ .boot l e n)
    (hf : ∀ e v n, i ≠ .frame e v n) (s : State) : exec i s = .next (runNested i s) := by
  cases i with
  | boot l e n => exact absurd rfl (hl l e n)
  | frame e v n => exact absurd rfl (hf e v n)
  | _ => rfl

/-- The nested transactions one by one, from the last. -/
theorem nestedSteps_succ (n : Nat) (s : State) :
    nestedSteps (n + 1) s = nestedSteps n (nestedStep s) := rfl

/-- The vector call with HOST silent before it: the two bytes stand as they are (R203). -/
theorem vectorCall_quiet {s : State} (h : s.hostTodo = []) (n : Nat) :
    vectorCall n s =
      (evaluate (pairOf (rfRead s s.cfg.scrVecAddr) (rfRead s (s.cfg.scrVecAddr + 1))) n
        (setPhase .exec s), pairOf (rfRead s s.cfg.scrVecAddr) (rfRead s (s.cfg.scrVecAddr + 1))) := by
  unfold vectorCall
  simp only [poll_quiet h]

/-- A handler's pushes with HOST silent: a register of the slot holds the byte pushed to it last, else
what stood there; every other register stands as it was. -/
theorem rfRead_applyPushes {s : State} (hq : s.hostTodo = []) (hm : Memory.wf s.rf) (slot : Nibble)
    (pushes : List (Nibble × Byte)) (b : Byte) :
    rfRead (applyPushes slot pushes s) b =
      if slotOf b = slot then
        afterPushes pushes (subOf b) (rfRead s b)
      else rfRead s b := by
  induction pushes generalizing s with
  | nil => simp [afterPushes]
  | cons p r ih =>
    show rfRead (applyPushes slot r (rfWrite (poll s) (portAddr slot p.1) p.2)) b = _
    rw [poll_quiet hq, ih (by exact hq) (Memory.write_wf hm _ _), rfRead_rfWrite hm]
    by_cases hb : slotOf b = slot
    · have he : (b = portAddr slot p.1) ↔ (p.1 = subOf b) := by
        constructor
        · rintro rfl; simp
        · intro e; rw [e, ← hb, portAddr_slotOf_subOf]
      simp only [hb, if_true, afterPushes, List.foldl_cons, he]
    · have hne : b ≠ portAddr slot p.1 := by rintro rfl; simp at hb
      simp only [hb, if_false, hne]

/-- The registers after an external handler's answer, with HOST silent: in its slot the byte pushed
last, else what stood there (R121 (1)). -/
theorem rfRead_applyAnswer_external {s : State} (hq : s.hostTodo = []) (hm : Memory.wf s.rf)
    (slot : Nibble) (ans : HandlerAnswer) (b : Byte) :
    rfRead (applyAnswer .external slot ans s) b =
      if slotOf b = slot then afterPushes ans.pushes (subOf b) (rfRead s b) else rfRead s b := by
  have h := rfRead_applyPushes (s := keepHandlerState .external slot ans.hstate s) hq hm slot
    ans.pushes b
  have hk := applyPushes_quiet (s := keepHandlerState .external slot ans.hstate s) hq slot ans.pushes
  unfold applyAnswer
  rw [rfRead, (applyFbOps_keeps (by rw [hk]; exact hq) slot ans.fbOps).2.1]
  exact h

/-- An external handler's own state after its answer, with HOST silent (R121 (2)). -/
theorem hstateRead_applyAnswer_external {s : State} (hq : s.hostTodo = []) (hr : Rising s.hstate)
    (slot : Nibble) (ans : HandlerAnswer) (j : Nibble) :
    hstateRead (applyAnswer .external slot ans s) j =
      if j = slot then ans.hstate else hstateRead s j := by
  have hk := applyPushes_quiet (s := keepHandlerState .external slot ans.hstate s) hq slot ans.pushes
  unfold applyAnswer
  rw [hstateRead, (applyFbOps_keeps (by rw [hk]; exact hq) slot ans.fbOps).2.2, hk]
  split
  · rename_i h; rw [h]; exact hstateRead_hstateWrite_self hr _ _
  · rename_i h; exact hstateRead_hstateWrite_of_ne _ _ h

/-- The test handler and the reference screen handler push nothing and keep no state of their own. -/
theorem rf_applyAnswer_readBack {s : State} (hq : s.hostTodo = []) {h : Handler}
    (he : h ≠ .external) (slot : Nibble) (call : HandlerCall) (u : State) :
    (applyAnswer h slot (handlerAnswer h slot call u) s).rf = s.rf ∧
      (applyAnswer h slot (handlerAnswer h slot call u) s).hstate = s.hstate := by
  cases h with
  | external => exact absurd rfl he
  | raw => cases call <;> exact (applyFbOps_keeps hq slot _).2
  | refScreen => cases call <;> exact (applyFbOps_keeps hq slot _).2

/-- The frame after its evaluation with HOST silent: geometry, conversion, output, presentation
(R205 to R210). -/
theorem presentFrame_quiet {s : State} (hq : s.hostTodo = []) (invalid : Bool) :
    presentFrame invalid s =
      let r := setPhase .render (convert (setPhase .upload (deriveGeometry s)))
      if invalid then
        setPhase .idle (recreateStaging (raise .swapchainInvalidated (setPhase .present r)))
      else setPhase .idle (emit (.frame (frameOutput r)) (setPhase .present r)) := by
  have hg : (deriveGeometry s).hostTodo = [] := by unfold deriveGeometry; split <;> exact hq
  unfold presentFrame
  simp only [poll_quiet hq, poll_quiet hg]
  rw [poll_quiet (s := setPhase .upload _) (by exact hg), poll_quiet (s := convert _) (by exact hg),
    poll_quiet (s := setPhase .render _) (by exact hg),
    poll_quiet (s := setPhase .present _) (by exact hg)]

end Sys2Proof.Machine
end

