-- ==== Sys2Proof/Machine/Pseudo.lean ====
section
/-! DEFINITION. The pseudo-transactions and the text form of a trace (spec 30_encoding R100, R101). -/

namespace Sys2Proof.Machine

/-! Pseudo-transactions (R101).  One that names `addr+1` has no expansion at address 0xFF. -/

/-- `portOut2(addr, v16)`. -/
def portOut2 (addr : Byte) (v : Half) : Option (List Instr) :=
  if addr = 0xFF then none else some [.pout addr (highByte v), .pout (addr + 1) (lowByte v)]

/-- `push2(addr, v16)`. -/
def push2 (addr : Byte) (v : Half) : Option (List Instr) :=
  if addr = 0xFF then none else some [.push addr (highByte v), .push (addr + 1) (lowByte v)]

/-- `peek2(addr)`; its value is the pair of the two results. -/
def peek2 (addr : Byte) : Option (List Instr) :=
  if addr = 0xFF then none else some [.peek addr, .peek (addr + 1)]

/-- `fbWriteXY(x, y, px)`, with the FB_W of the state it takes effect in. -/
def fbWriteXY (s : State) (x y : Nat) (px : Word) : Instr :=
  .fbwr (BitVec.ofNat 32 (fbIndex s x y)) px

/-- `fbFill(f)`, with the FB_W and FB_H of the state it takes effect in. -/
def fbFill (s : State) (f : Nat → Word) : List Instr :=
  (List.range (fbSize s)).map fun i => .fbwr (BitVec.ofNat 32 i) (f i)

/-- `boot() { nested }`. -/
def bootOk (nested : List Instr) : List Instr :=
  .boot false false (BitVec.ofNat 32 nested.length) :: nested

/-- `frame() { nested }`. -/
def frameOk (nested : List Instr) : List Instr :=
  .frame false false (BitVec.ofNat 32 nested.length) :: nested

/-- The serialised form of a trace (R91). -/
def traceBytes (trace : List Instr) : List Byte := trace.flatMap encodeBytes

/-! The text form (R100). -/

/-- Eight hexadecimal digits with `0x` before them. -/
def hexWord (w : Word) : String :=
  "0x" ++ String.ofList ((List.range 8).map fun k =>
    Nat.digitChar ((w.toNat / 16 ^ (7 - k)) % 16))

/-- `ok` or the word for the other answer. -/
def answerText (failed : Bool) (word : String) : String := if failed then word else "ok"

/-- The text form of one transaction; a BOOT's or FRAME's nested lines follow it. -/
def textOf : Instr → String
  | .pin addr => "portIn(" ++ toString addr.toNat ++ ")"
  | .pout addr val => "portOut(" ++ toString addr.toNat ++ ", " ++ toString val.toNat ++ ")"
  | .push addr val => "push(" ++ toString addr.toNat ++ ", " ++ toString val.toNat ++ ")"
  | .peek addr => "peek(" ++ toString addr.toNat ++ ")"
  | .resize w h => "resize(" ++ toString w.toNat ++ ", " ++ toString h.toNat ++ ")"
  | .fbwr i px => "fbWrite(" ++ toString i.toNat ++ ", " ++ hexWord px ++ ")"
  | .blit => "blit()"
  | .rnote => "resizeNotify()"
  | .geom => "geometry()"
  | .pmove x y => "pointerMove(" ++ toString x.toInt ++ ", " ++ toString y.toInt ++ ")"
  | .bdown id => "buttonDown(" ++ toString id.toNat ++ ")"
  | .bup id => "buttonUp(" ++ toString id.toNat ++ ")"
  | .boot loadFail evalFail _ =>
    "boot(load=" ++ answerText loadFail "fail" ++ ", eval=" ++ answerText evalFail "fail" ++ ")"
  | .frame evalFail invalid _ =>
    "frame(eval=" ++ answerText evalFail "fail" ++ ", present=" ++ answerText invalid "invalid" ++
      ")"
  | .stop => "stop()"

/-- The left and the right brace. -/
def leftBrace : String := String.singleton (Char.ofNat 123)

def rightBrace : String := String.singleton (Char.ofNat 125)

/-- A trace as lines, one transaction a line, the nested ones between braces; `left` is how many
nested ones the open BOOT or FRAME still takes (R99, R100). -/
def traceText : (left : Nat) → List Instr → List String
  | _, [] => []
  | 0, i :: rest =>
    match i with
    | .boot _ _ n | .frame _ _ n =>
      if n = 0 then (textOf i ++ " " ++ leftBrace ++ " " ++ rightBrace) :: traceText 0 rest
      else (textOf i ++ " " ++ leftBrace) :: traceText n.toNat rest
    | _ => textOf i :: traceText 0 rest
  | 1, i :: rest => ("  " ++ textOf i) :: rightBrace :: traceText 0 rest
  | left + 2, i :: rest => ("  " ++ textOf i) :: traceText (left + 1) rest

end Sys2Proof.Machine
end

