-- ==== Sys2Proof/Tests/Slice0.lean ====
section
/-! SUPPORT. Tests.  Expected results are those of spec 95_test_vectors (the vector is named beside
each test) or of the rule named; and, for every statement with hypotheses, a concrete state and
operands that meet all of them. -/

namespace Sys2Proof.Tests

open Sys2Proof Sys2Proof.Machine

/-! WellFormed: the ill-formed transaction of each check (R98 (3)). -/

theorem test_wf_answers_clash : (Instr.boot true true 0).wellFormed = false := by decide
theorem test_wf_count_clash : (Instr.boot true false 1).wellFormed = false := by decide
theorem test_wf_boot_accepted : (Instr.boot false true 7).wellFormed = true := by decide
theorem test_encode_ill_formed_rejected :
    decode (encodeBytes (.boot true true 0)) = .reject .contradictoryAnswers := by decide

/-! Decode: one word of each constructor, written out from R92 to R95, and the reserved ones. -/

theorem test_decode_pin : decodeTableWord 72 0x00_0000007A_00000000 = some (.pin 0x7A) := by decide
theorem test_decode_pout :
    decodeTableWord 72 0x01_00000008_0000000F = some (.pout 0x08 0x0F) := by decide
theorem test_decode_push :
    decodeTableWord 72 0x02_000000C4_0000001E = some (.push 0xC4 0x1E) := by decide
theorem test_decode_peek : decodeTableWord 72 0x03_00000035_00000000 = some (.peek 0x35) := by decide
theorem test_decode_resize :
    decodeTableWord 72 0x04_000007D0_00000008 = some (.resize 2000 8) := by decide
theorem test_decode_fbwr :
    decodeTableWord 72 0x05_00000201_FF102030 = some (.fbwr 513 0xFF102030) := by decide
theorem test_decode_blit : decodeTableWord 72 0x06_00000000_00000000 = some .blit := by decide
theorem test_decode_rnote : decodeTableWord 72 0x07_00000000_00000000 = some .rnote := by decide
theorem test_decode_geom : decodeTableWord 72 0x08_00000000_00000000 = some .geom := by decide
theorem test_decode_pmove :
    decodeTableWord 72 0x09_FFFFFFF6_000003E8 = some (.pmove (-10) 1000) := by decide
theorem test_decode_bdown :
    decodeTableWord 72 0x0A_00000001_00000000 = some (.bdown 1) := by decide
theorem test_decode_bup : decodeTableWord 72 0x0B_00000003_00000000 = some (.bup 3) := by decide
theorem test_decode_boot :
    decodeTableWord 72 0x0C_00000002_00000001 = some (.boot false true 1) := by decide
theorem test_decode_frame :
    decodeTableWord 72 0x0D_00000002_00000000 = some (.frame false true 0) := by decide
theorem test_decode_stop : decodeTableWord 72 0x0E_00000000_00000000 = some .stop := by decide
theorem test_decode_boot_clash : decodeTableWord 72 0x0C_00000003_00000000 = none := by decide
theorem test_decode_reserved_op :
    decode (tableDescriptor 72 0x0F_00000000_00000000).bytes = .reject .reservedOp := by decide
theorem test_decode_mbz :
    decode (tableDescriptor 72 0x00_0000017A_00000000).bytes = .reject .nonzeroMbz := by decide
theorem test_decode_truncated : decode [0x00, 0x00] = .reject .truncated := by decide
theorem test_bytes_order : encodeBytes (.frame true false 0x01020304) =
    [0x0D, 0x00, 0x00, 0x00, 0x01, 0x01, 0x02, 0x03, 0x04] := by decide

/-! States. -/

/-- The reference configuration with a small framebuffer. -/
def config (w h : Nat) : Config := { Config.ref with bootW := w, bootH := h }

/-- Reset with a small framebuffer, BENCH on. -/
def bench : State := State.resetWith (config 8 8)

/-- The same after a boot, BENCH off, with a trace. -/
def booted (input : List Instr) : State :=
  { State.resetWith { config 8 8 with bench := false } with
    ph := .idle
    input := traceBytes input }

/-- A slot's kind changed. -/
def withSlot (k : Nat) (kind : SlotKind) (s : State) : State :=
  { s with cfg := { s.cfg with slots := s.cfg.slots.set k kind } }

/-- The reference configuration with the other policies. -/
def rejecting : State := State.resetWith { config 8 8 with resizePolicy := .reject }

def ignoring : State :=
  { State.resetWith { config 8 8 with evalFailPolicy := .ignore } with ph := .idle }

/-- A shutdown has been requested. -/
def stopping : State := { booted [] with sd := true }

/-- A shutdown request that HOST has issued and that has not taken effect yet. -/
def stopPending : State := { booted [] with hostTodo := [.requestStop] }

/-- Reset with a nested transaction in the trace. -/
def bootable : State := { bench with input := traceBytes [.pout 0x20 0x01] }

/-- HOST takes two steps at its next chance and none at the one after. -/
def torn : State := { bench with sched := [2, 0] }

/-- The mouse slot has an external handler; the screen slot has the reference screen handler. -/
def externalMouse : State := withSlot 9 (.device .external) bench

def refScreen : State := withSlot 2 (.device .refScreen) bench

/-- An external handler in the system slot, in the screen slot, in the one slot that is both. -/
def externalSystem : State := withSlot 0 (.device .external) bench

def externalScreen : State := withSlot 2 (.device .external) bench

def externalBoth : State :=
  withSlot 0 (.device .external) (State.resetWith { config 8 8 with scrVecAddr := 0x0E })

/-- What a transaction leaves, if it answers a next state. -/
def after {α : Type} (i : Instr) (s : State) (f : State → α) : Option α :=
  match exec i s with
  | .next t => some (f t)
  | .fault _ => none
  | .refused _ => none

/-- What two transactions leave. -/
def after2 {α : Type} (i j : Instr) (s : State) (f : State → α) : Option α :=
  (after i s fun t => after j t f).join

/-- Four port registers. -/
def regs4 (s : State) (a : Byte) : List Byte :=
  [rfRead s a, rfRead s (a + 1), rfRead s (a + 2), rfRead s (a + 3)]

/-- The number of frame outputs handed out. -/
def frames (s : State) : Nat :=
  s.log.countP fun e => match e with | .frame _ => true | _ => false

/-! Port transactions (V1, V5 to V13, V44). -/

theorem test_pin_none : after (.pin 0x7A) { bench with rf := [(0x7A, 0x5C)] } (·.log) =
    some [.result 0x5C] := by decide
theorem test_pin_stub : after (.pin 0x35) { bench with rf := [(0x35, 0x77)] } (·.log) =
    some [.trace (.read 0x35), .result 0x00] := by decide
theorem test_pout_stub : after (.pout 0x35 0x77) bench (fun s => (s.rf, s.log)) =
    some ([(0x35, 0x77)], [.trace (.write 0x35 0x77)]) := by decide
theorem test_pout_palette : after (.pout 0x0D 0x0F) bench (fun s => s.pal.map wordOfPixel) =
    some [0xFF000000, 0xFF000000, 0xFF000000, 0xFF0000FF] := by decide
theorem test_push_leaves_palette_stale :
    after2 (.pout 0x08 0xF0) (.push 0x08 0x00) bench (fun s => (s.rf, s.pal.map wordOfPixel)) =
      some ([], [0xFFFF0000, 0xFF000000, 0xFF000000, 0xFF000000]) := by decide
theorem test_peek_stub : after (.peek 0x35) { bench with rf := [(0x35, 0x77)] } (·.log) =
    some [.result 0x77] := by decide

/-! Screen bridge transactions (V17, V18, V22, V24, V25, V27, V29a, V29b). -/

theorem test_resize_clamped : after (.resize 1030 8) bench (fun s => (s.fbW, s.fbH, s.refused)) =
    some (1024, 8, false) := by decide
theorem test_resize_off_grid : after (.resize 100 100) bench (fun s => (s.fbW, s.refused)) =
    some (8, true) := by decide
theorem test_fbwr : after (.fbwr 9 0xFF102030) bench (·.fb) =
    some [(9, ⟨0x30, 0x20, 0x10, 0xFF⟩)] := by decide
theorem test_fbwr_outside : after (.fbwr 64 0x01020304) bench (fun s => (s.fb, s.refused)) =
    some ([], true) := by decide
theorem test_blit : after2 (.fbwr 9 0xFF102030) .blit bench (fun s => wordOfPixel (stRead s 1025)) =
    some 0xFF302010 := by decide
theorem test_blit_stride :
    after .blit { bench with st := [(8, ⟨1, 2, 3, 4⟩)] } (fun s => (s.st.length, stRead s 8)) =
      some (65, ⟨1, 2, 3, 4⟩) := by decide
theorem test_rnote : after .rnote { bench with rz := false } (·.rz) = some true := by decide
theorem test_geom : after .geom bench (fun s => (s.qw, s.qh, s.un, s.vn, s.rz)) =
    some (8, 8, 8, 8, false) := by decide
theorem test_resize_then_geom :
    after2 (.resize 1024 1024) .geom bench (fun s => (s.un, s.vn, s.rz)) =
      some (0x400, 0x400, false) := by decide

/-! Input transactions (W6, V35, V38 to V44). -/

theorem test_pmove : after (.pmove (-10) 1000) { bench with fbW := 512, fbH := 320 }
    (fun s => regs4 s 0x92) = some [0x00, 0x00, 0x01, 0x40] := by decide
theorem test_pmove_extremes : after (.pmove 0x7FFFFFFF 0x80000000) { bench with fbW := 512 }
    (fun s => (s.psX, s.psY)) = some (512, 0) := by decide
theorem test_bdown : after2 (.bdown 0) (.bdown 1) bench (fun s => (s.psBtn, rfRead s 0x96)) =
    some (0x03, 0x03) := by decide
theorem test_bdown_restores_image :
    after2 (.pout 0x96 0x00) (.bdown 7) { bench with psBtn := 0x03 } (fun s => rfRead s 0x96) =
      some 0x83 := by decide
theorem test_bup : after (.bup 0) { bench with psBtn := 0x03 } (fun s => (s.psBtn, rfRead s 0x96)) =
    some (0x02, 0x02) := by decide
theorem test_button_ignored : after (.bup 8) { bench with psBtn := 0xFF } (fun s => (s.psBtn, s.rf)) =
    some (0xFF, []) := by decide

/-! Sequencer transactions (V50 to V60, P4). -/

theorem test_boot_runs_nested :
    after (.boot false false 2) { bench with input := traceBytes [.pout 0x20 0x01, .pout 0x21 0x40] }
      (fun s => (s.rf, s.ph, s.input)) = some ([(0x20, 0x01), (0x21, 0x40)], .idle, []) := by decide
theorem test_boot_fails : after (.boot false true 0) bench (·.ph) = some .fatal := by decide
theorem test_frame_stops_next : after2 (.frame false false 1) (.frame false false 0) (booted [.stop])
    (fun s => (s.ph, frames s)) = some (.stopped, 1) := by decide
theorem test_frame_skipped : after (.frame true false 0)
    { booted [] with rf := [(0x20, 0xAB), (0x21, 0xCD)] } (·.log) =
      some [.phase .exec, .evaluate 0xABCD, .raised (.frameEvalFail 0xABCD), .phase .idle] := by
  decide
/-- HOST falls between the loop top and the vector read (R14, R202): a STOP and the store of a button,
in a register that the configuration makes the vector's high byte, are both held back past T0. -/
theorem test_host_between_loop_top_and_vector :
    after (.frame true false 0)
      { State.resetWith { config 8 8 with mouseStateAddr := 0x20 } with
        ph := .idle
        hostTodo := [.requestStop, .press 0x01, .storeButtons]
        sched := [0, 3] } (fun s => (s.sd, s.log)) =
      some (true, [.phase .exec, .evaluate 0x0100, .raised (.frameEvalFail 0x0100),
        .phase .idle]) := by decide
theorem test_nested_blit_refused : after (.frame false false 1) (booted [.blit]) (·.refused) =
    some true := by decide
theorem test_stop : after .stop (booted []) (fun s => (s.sd, s.ph)) = some (true, .idle) := by decide

/-! One step from reset runs the placed word. -/

theorem test_step_placed :
    (match step (State.reset.withFetchWord 72 0x02_000000C4_0000001E) with
      | .next t => some (t.rf, t.input)
      | _ => none) = some ([(0xC4, 0x1E)], []) := by decide
theorem test_step_reserved :
    (match step (State.reset.withFetchWord 72 0x0F_00000000_00000000) with
      | .next t => some (t.refused, t.input)
      | _ => none) = some (true, []) := by decide

/-! Pseudo-transactions and text (R100, R101). -/

theorem test_portOut2 : portOut2 0x20 0x0140 = some [.pout 0x20 0x01, .pout 0x21 0x40] := by decide
theorem test_text : (textOf (.pmove (-10) 1000), textOf (.fbwr 1 0xFF102030)) =
    ("pointerMove(-10, 1000)", "fbWrite(1, 0xff102030)") := by decide

/-! Witnesses: for each statement with hypotheses, what meets them. -/

theorem witness_DecodeInvertsEncode : (Instr.boot false true 3).wellFormed = true := by decide
theorem witness_AcceptedBytesAreTheEncoding :
    decode [0x01, 0, 0, 0, 0x08, 0, 0, 0, 0x0F, 0x55] = .ok (.pout 0x08 0x0F) [0x55] := by decide
theorem witness_DecodeAcceptsTheTableRows :
    decodeDescriptor 0x0B_00000003_00000000 = .ok (.bup 3) ∧
      ⟨"BUP", 0xFF_00000000_FFFFFFFF, 0x0B_00000000_00000000⟩ ∈ opcodeTable ∧
      OpcodeRow.matches ⟨"BUP", 0xFF_00000000_FFFFFFFF, 0x0B_00000000_00000000⟩
        0x0B_00000003_00000000 = true := by decide
theorem witness_OpcodeRowsAreDisjoint :
    ⟨"STOP", 0xFF_FFFFFFFF_FFFFFFFF, 0x0E_00000000_00000000⟩ ∈ opcodeTable ∧
      OpcodeRow.matches ⟨"STOP", 0xFF_FFFFFFFF_FFFFFFFF, 0x0E_00000000_00000000⟩
        0x0E_00000000_00000000 = true := by decide
theorem witness_StepRunsTheDecodedTransaction :
    decode (booted [.stop]).input = .ok .stop [] := by decide
theorem witness_StepRefusesAReservedDescriptor :
    decode [0x0F, 0, 0, 0, 0, 0, 0, 0, 0] = .reject .reservedOp ∧
      DecodeError.reservedOp ≠ .truncated := by decide
theorem witness_NoStepWithoutADescriptor :
    State.reset.input.length < 9 ∧ { State.reset with input := List.replicate 8 0x00 }.input.length < 9 := by
  decide
theorem witness_ResetLeavesTheSpecValues : configOk Config.ref ∧ 0 < Config.ref.ncol := by decide
theorem witness_InvariantHoldsAtReset : configOk (config 1024 0) := by decide
theorem witness_StepKeepsTheInvariant :
    StateInv (booted [.frame false false 1, .stop]) ∧
      ∃ t, step (booted [.frame false false 1, .stop]) = .next t :=
  ⟨by refine ⟨?_, ?_, ?_, ?_, ?_, ?_, ?_, ?_, ?_, ?_⟩ <;> decide, _, rfl⟩
theorem witness_StepKeepsConfigurationAndMarks :
    ∃ t, step { booted [.rnote] with sd := true, refused := true } = .next t := ⟨_, rfl⟩
theorem witness_PinOfASlotWithoutADevice :
    (evaluationAdmits bench ∧ slotKind bench.cfg (slotOf 0xFF) = .none) ∧
      (evaluationAdmits bench ∧ slotKind bench.cfg (slotOf 0x30) = .stub) := by decide
theorem witness_PinOfADeviceThatReadsBack :
    evaluationAdmits bench ∧ slotKind bench.cfg (slotOf 0x96) = .device .raw ∧
      Handler.raw ≠ .external := by decide
theorem witness_PinOfAnExternalDevice :
    Memory.wf externalMouse.rf ∧ Rising externalMouse.hstate ∧
      quiet externalMouse ∧
      evaluationAdmits externalMouse ∧
      slotKind externalMouse.cfg (slotOf 0x96) = .device .external := by
  decide
theorem witness_PoutConfinesHandlersToTheirSlots :
    (∃ t, quiet bench ∧ exec (.pout 0x10 0x41) bench = .next t ∧ (0x96 : Byte) ≠ 0x10 ∧
      slotOf 0x96 ≠ slotOf 0x10 ∧
      (isPaletteAddr bench.cfg 0x10 = true → slotOf 0x96 ≠ screenSlot bench.cfg)) ∧
    (∃ t, quiet bench ∧ exec (.pout 0x0D 0x41) bench = .next t ∧ (0x96 : Byte) ≠ 0x0D ∧
      slotOf 0x96 ≠ slotOf 0x0D ∧
      (isPaletteAddr bench.cfg 0x0D = true → slotOf 0x96 ≠ screenSlot bench.cfg)) :=
  ⟨⟨_, rfl, rfl, by decide, by decide, by decide⟩, ⟨_, rfl, rfl, by decide, by decide, by decide⟩⟩
theorem witness_PoutToASlotWithoutADevice :
    configOk bench.cfg ∧ Memory.wf bench.rf ∧ quiet bench ∧ evaluationAdmits bench ∧
      slotKind bench.cfg (slotOf 0xB0) = .none ∧ slotKind bench.cfg (slotOf 0x6F) = .stub := by
  decide
theorem witness_PoutToADeviceThatReadsBack :
    Memory.wf bench.rf ∧ quiet bench ∧ evaluationAdmits bench ∧
      slotKind bench.cfg (slotOf 0x07) = .device .raw ∧ Handler.raw ≠ .external ∧
      isPaletteAddr bench.cfg 0x07 = false ∧ isPaletteAddr bench.cfg 0x0E = false := by decide
theorem witness_PoutToAnExternalDevice :
    Memory.wf externalMouse.rf ∧ Rising externalMouse.hstate ∧
      quiet externalMouse ∧
      evaluationAdmits externalMouse ∧
      slotKind externalMouse.cfg (slotOf 0x96) = .device .external ∧
      isPaletteAddr externalMouse.cfg 0x96 = false := by decide
theorem witness_PoutToAPaletteRegisterRefreshesPal :
    (quiet bench ∧ evaluationAdmits bench ∧ isPaletteAddr bench.cfg 0x08 = true ∧
      isPaletteAddr bench.cfg 0x0D = true ∧
      slotKind bench.cfg (screenSlot bench.cfg) = .device .raw) ∧
    (Memory.wf bench.rf ∧ slotKind bench.cfg bench.cfg.sysSlot = .device .raw ∧
      Handler.raw ≠ .external) ∧
    (Memory.wf externalSystem.rf ∧ Rising externalSystem.hstate ∧ quiet externalSystem ∧
      evaluationAdmits externalSystem ∧ isPaletteAddr externalSystem.cfg 0x08 = true ∧
      slotKind externalSystem.cfg externalSystem.cfg.sysSlot = .device .external ∧
      screenSlot externalSystem.cfg ≠ externalSystem.cfg.sysSlot) ∧
    (Memory.wf externalBoth.rf ∧ Rising externalBoth.hstate ∧ quiet externalBoth ∧
      evaluationAdmits externalBoth ∧ isPaletteAddr externalBoth.cfg 0x0D = true ∧
      slotKind externalBoth.cfg externalBoth.cfg.sysSlot = .device .external ∧
      screenSlot externalBoth.cfg = externalBoth.cfg.sysSlot) ∧
    (Memory.wf externalScreen.rf ∧ Rising externalScreen.hstate ∧ quiet externalScreen ∧
      evaluationAdmits externalScreen ∧ isPaletteAddr externalScreen.cfg 0x08 = true ∧
      slotKind externalScreen.cfg (screenSlot externalScreen.cfg) = .device .external ∧
      screenSlot externalScreen.cfg ≠ externalScreen.cfg.sysSlot) :=
  ⟨by decide, by decide, by decide, by decide, by decide⟩
theorem witness_PaletteFollowsThePaletteWrite :
    Memory.wf bench.rf ∧ quiet bench ∧ evaluationAdmits bench ∧
      isPaletteAddr bench.cfg 0x08 = true ∧ slotKind bench.cfg bench.cfg.sysSlot = .device .raw ∧
      slotKind bench.cfg (screenSlot bench.cfg) = .device .raw := by decide
theorem witness_ReferenceScreenRendersTheNewPalette :
    StateInv refScreen ∧ quiet refScreen ∧
      evaluationAdmits refScreen ∧
      isPaletteAddr refScreen.cfg 0x08 = true ∧
      slotKind refScreen.cfg
        refScreen.cfg.sysSlot = .device .raw ∧
      slotKind refScreen.cfg
        (screenSlot refScreen.cfg) = .device .refScreen ∧
      63 < fbSize refScreen :=
  ⟨by refine ⟨?_, ?_, ?_, ?_, ?_, ?_, ?_, ?_, ?_, ?_⟩ <;> decide, by decide⟩
theorem witness_PortInReadsBackPortOut :
    configOk bench.cfg ∧ Memory.wf bench.rf ∧ quiet bench ∧ evaluationAdmits bench ∧
      slotKind bench.cfg (slotOf 0xFF) = .none ∧ slotKind bench.cfg (slotOf 0x70) = .none := by
  decide
theorem witness_StubSlotForgetsOnRead :
    configOk bench.cfg ∧ Memory.wf bench.rf ∧ quiet bench ∧ evaluationAdmits bench ∧
      slotKind bench.cfg (slotOf 0x35) = .stub := by decide
theorem witness_PushStoresOneByteAndNothingElse :
    Memory.wf bench.rf ∧ evaluationAdmits bench := by decide
theorem witness_PeekAnswersTheStoredByte : evaluationAdmits bench := by decide
theorem witness_OnlyAPalettePoutChangesPal :
    simple (.pout 0x08 0xF0) ∧ ∃ t, exec (.pout 0x08 0xF0)
      { bench with pal := [default, default, default, default] } = .next t ∧
      t.pal ≠ [default, default, default, default] :=
  ⟨⟨by simp, by simp⟩, _, rfl, by decide⟩
theorem witness_ResizeReallocatesTheFramebuffer :
    configOk bench.cfg ∧ evaluationAdmits bench ∧ ¬overCapacity bench.cfg 1024 0 ∧
      (1024 : Word).toNat % bench.cfg.cell = 0 ∧ (0 : Word).toNat % bench.cfg.cell = 0 ∧
      ¬((1024 : Word).toNat = bench.fbW.toNat ∧ (0 : Word).toNat = bench.fbH.toNat) := by decide
theorem witness_ResizeOverCapacity :
    (configOk bench.cfg ∧ evaluationAdmits bench ∧ overCapacity bench.cfg 1025 8 ∧
      bench.cfg.resizePolicy = .clamp ∧ min (1025 : Word).toNat bench.cfg.maxW % bench.cfg.cell = 0 ∧
      min (8 : Word).toNat bench.cfg.maxH % bench.cfg.cell = 0) ∧
    (evaluationAdmits rejecting ∧ overCapacity rejecting.cfg 1025 8 ∧
      rejecting.cfg.resizePolicy = .reject) := by decide
theorem witness_ResizeToTheCurrentSizeChangesNothing :
    sizesOk bench ∧ evaluationAdmits bench ∧ (8 : Word).toNat = bench.fbW.toNat ∧
      (8 : Word).toNat = bench.fbH.toNat := by decide
theorem witness_ResizeOffTheCellGridIsRefused :
    (evaluationAdmits bench ∧ ¬overCapacity bench.cfg 1023 8 ∧
      ¬((1023 : Word).toNat % bench.cfg.cell = 0 ∧ (8 : Word).toNat % bench.cfg.cell = 0)) ∧
    (evaluationAdmits bench ∧ overCapacity bench.cfg 1025 7 ∧ bench.cfg.resizePolicy = .clamp ∧
      ¬(min (1025 : Word).toNat bench.cfg.maxW % bench.cfg.cell = 0 ∧
        min (7 : Word).toNat bench.cfg.maxH % bench.cfg.cell = 0)) := by decide
theorem witness_NoResizeExceedsTheCapacity :
    ∃ t, configOk bench.cfg ∧ sizesOk bench ∧ exec (.resize 2000 2000) bench = .next t :=
  ⟨_, by decide, by decide, rfl⟩
theorem witness_FbwrWritesOnePixel :
    (evaluationAdmits bench ∧ (63 : Word).toNat < fbSize bench) ∧
      (evaluationAdmits bench ∧ fbSize bench ≤ (64 : Word).toNat) := by decide
theorem witness_BlitPermutesTheValidRegion :
    benchAdmits bench ∧ bench.fbW.toNat ≤ bench.cfg.maxW ∧ Rising bench.st := by decide
theorem witness_GeomConsumesThePendingResize :
    (benchAdmits bench ∧ (poll bench).rz = true) ∧
      (benchAdmits { bench with rz := false } ∧ (poll { bench with rz := false }).rz = false) := by
  decide
theorem witness_SamplesLieInTheValidRegion :
    (0 : ℚ) ≤ 1 / 2 ∧ 1 / 2 < extentU { bench with un := 1024 } ∧ (0 : ℚ) ≤ 0 ∧
      0 < extentV { bench with vn := 8 } := by
  refine ⟨by norm_num, ?_, le_refl _, ?_⟩
  · show (1 : ℚ) / 2 < ((1024 : ℕ) : ℚ) / ((1024 : ℕ) : ℚ)
    norm_num
  · show (0 : ℚ) < ((8 : ℕ) : ℚ) / ((1024 : ℕ) : ℚ)
    norm_num
theorem witness_RnoteSetsTheResizeFlag : prompt bench ∧ hostAdmits bench := by decide
theorem witness_PmoveClampsAndStores :
    configOk bench.cfg ∧ Memory.wf bench.rf ∧ prompt bench ∧ hostAdmits bench := by decide
theorem witness_TornPmoveShowsAMixture :
    configOk torn.cfg ∧ Memory.wf torn.rf ∧ quiet torn ∧ torn.sched = 2 :: 0 :: [] ∧
      hostAdmits torn ∧ evaluationAdmits torn := by decide
theorem witness_ButtonsAreHeldAndReleased :
    Memory.wf bench.rf ∧ prompt bench ∧ hostAdmits bench ∧ (7 : Word).toNat < bench.cfg.nbtn := by
  decide
theorem witness_OtherButtonIdsAreIgnored :
    prompt bench ∧ hostAdmits bench ∧ bench.cfg.nbtn ≤ (8 : Word).toNat := by decide
theorem witness_PointerScenario :
    configOk Config.ref ∧ Config.ref.bench = true ∧ Config.ref.bootW = 512 ∧
      Config.ref.bootH = 320 ∧ 256 % Config.ref.cell = 0 ∧ 160 % Config.ref.cell = 0 := by decide
theorem witness_HostTransactionsLeaveSequencerStateAlone :
    ∃ t, quiet torn ∧ issuer (.pmove 5 5) = .host ∧ exec (.pmove 5 5) torn = .next t ∧
      (0x91 : Byte) ∉ [torn.cfg.mouseXAddr, torn.cfg.mouseXAddr + 1, torn.cfg.mouseYAddr,
        torn.cfg.mouseYAddr + 1, torn.cfg.mouseStateAddr] :=
  ⟨_, rfl, rfl, rfl, by decide⟩
theorem witness_SequencerTransactionsLeavePointerStateAlone :
    ∃ t, quiet bench ∧ simple (.resize 16 16) ∧ issuer (.resize 16 16) = .seq ∧
      exec (.resize 16 16) bench = .next t ∧ bench.rz = true ∧ Instr.resize 16 16 ≠ .geom :=
  ⟨_, rfl, ⟨by simp, by simp⟩, rfl, rfl, rfl, by decide⟩
theorem witness_BootReachesIdle :
    bootable.evaluating = false ∧ bootable.ph = .boot ∧ quiet bootable ∧
      traceHolds (1 : Word).toNat bootable ∧ (∀ i ∈ [Instr.pout 0x20 0x01], simple i) ∧
      bootable.input = [Instr.pout 0x20 0x01].flatMap encodeBytes ++ [] :=
  ⟨by decide, by decide, by decide, by decide, by simp [simple], by decide⟩
theorem witness_BootLoadFailureIsFatal : bench.evaluating = false ∧ bench.ph = .boot := by decide
theorem witness_BootEvaluationFailureIsFatal :
    bootable.evaluating = false ∧ bootable.ph = .boot ∧ traceHolds (1 : Word).toNat bootable ∧
      (∀ i ∈ [Instr.pout 0x20 0x01], simple i) ∧
      bootable.input = [Instr.pout 0x20 0x01].flatMap encodeBytes ++ [] :=
  ⟨by decide, by decide, by decide, by simp [simple], by decide⟩
theorem witness_SequencerTransactionsOutOfPlaceAreRefused :
    ((booted []).evaluating = false ∧ (booted []).ph ≠ .boot) ∧
    (bench.evaluating = false ∧ bench.ph ≠ .idle) ∧
    ((booted []).evaluating = false ∧ (booted []).ph = .idle ∧
      (booted []).cfg.evalFailPolicy = .skip) ∧
    (quiet stopping ∧ stopping.evaluating = false ∧ stopping.ph = .idle ∧ stopping.sd = true ∧
      (1 : Word) ≠ 0) ∧
    (bench.evaluating = false ∧ bench.ph = .boot ∧ ¬traceHolds (1 : Word).toNat bench) ∧
    (¬traceHolds (2 : Word).toNat bootable ∧ bootable.ph = .boot) ∧
    ((poll (booted [.stop])).sd = false ∧ ¬frameAnswersClash (booted [.stop]).cfg true false ∧
      ¬traceHolds (2 : Word).toNat (booted [.stop]) ∧ (booted [.stop]).ph = .idle) := by decide
theorem witness_FrameStopsAtTheLoopTop :
    stopPending.evaluating = false ∧ stopPending.ph = .idle ∧ (poll stopPending).sd = true := by
  decide
theorem witness_FramePresentsThePermutedFramebuffer :
    (quiet (booted []) ∧ (booted []).evaluating = false ∧ (booted []).ph = .idle ∧
      (booted []).sd = false ∧ (booted []).fbW.toNat ≤ (booted []).cfg.maxW ∧
      Rising (booted []).st ∧ geometryFresh (booted [])) ∧
    (StateInv (booted [.pout 0x08 0x0F, .stop]) ∧ prompt (booted [.pout 0x08 0x0F, .stop]) ∧
      (booted [.pout 0x08 0x0F, .stop]).evaluating = false ∧
      (booted [.pout 0x08 0x0F, .stop]).ph = .idle ∧
      (booted [.pout 0x08 0x0F, .stop]).sd = false ∧
      (∀ i ∈ [Instr.pout 0x08 0x0F, .stop], simple i) ∧
      (booted [.pout 0x08 0x0F, .stop]).input =
        [Instr.pout 0x08 0x0F, .stop].flatMap encodeBytes ++ []) :=
  ⟨by decide, by refine ⟨?_, ?_, ?_, ?_, ?_, ?_, ?_, ?_, ?_, ?_⟩ <;> decide, by decide, by decide,
    by decide, by decide, by simp [simple], by decide⟩
theorem witness_EveryFrameOutputIsThePermutedFramebuffer :
    ∃ t out, StateInv (booted [.frame false false 0]) ∧ step (booted [.frame false false 0]) = .next t ∧
      .frame out ∈ t.log.drop (booted [.frame false false 0]).log.length :=
  ⟨_, _, by refine ⟨?_, ?_, ?_, ?_, ?_, ?_, ?_, ?_, ?_, ?_⟩ <;> decide, rfl, .tail _ (.tail _ (.tail _ (.tail _ (.tail _ (.head _)))))⟩
theorem witness_FailedEvaluationSkipsTheFrame :
    (booted [.bdown 0]).evaluating = false ∧ (booted [.bdown 0]).ph = .idle ∧
      (poll (booted [.bdown 0])).sd = false ∧ (booted [.bdown 0]).cfg.evalFailPolicy = .skip ∧
      traceHolds (1 : Word).toNat (booted [.bdown 0]) ∧ quiet (booted [.bdown 0]) ∧
      (booted [.bdown 0]).sd = false ∧ (∀ i ∈ [Instr.bdown 0], simple i) ∧
      (booted [.bdown 0]).input = [Instr.bdown 0].flatMap encodeBytes ++ [] :=
  ⟨by decide, by decide, by decide, by decide, by decide, by decide, by decide, by simp [simple],
    by decide⟩
theorem witness_FailedEvaluationIgnored :
    ignoring.evaluating = false ∧ ignoring.ph = .idle ∧ (poll ignoring).sd = false ∧
      ignoring.cfg.evalFailPolicy = .ignore ∧ traceHolds (0 : Word).toNat ignoring := by decide
theorem witness_InvalidationDropsTheFrame :
    (quiet (booted []) ∧ (booted []).evaluating = false ∧ (booted []).ph = .idle ∧
      (booted []).sd = false ∧ geometryFresh (booted [])) ∧
    (prompt (booted [.resize 16 16, .rnote]) ∧
      (booted [.resize 16 16, .rnote]).evaluating = false ∧
      (booted [.resize 16 16, .rnote]).ph = .idle ∧
      (booted [.resize 16 16, .rnote]).sd = false ∧
      geometryFresh (booted [.resize 16 16, .rnote]) ∧
      (∀ i ∈ [Instr.resize 16 16, .rnote], simple i) ∧
      (booted [.resize 16 16, .rnote]).input =
        [Instr.resize 16 16, .rnote].flatMap encodeBytes ++ []) :=
  ⟨by decide, by decide, by decide, by decide, by decide, by decide, by simp [simple], by decide⟩
theorem witness_OnlyALoopTopStopsTheRun :
    ∃ t, step { booted [.frame false false 0] with sd := true } = .next t ∧
      (booted [.frame false false 0]).ph ≠ .stopped ∧ t.ph = .stopped :=
  ⟨_, rfl, by decide, rfl⟩
theorem witness_TerminalPhasesAdmitNothing :
    (∃ t, terminal { booted [.rnote] with ph := .fatal }.ph ∧
      step { booted [.rnote] with ph := .fatal } = .next t) ∧
    (∃ t, terminal { booted [.rnote] with ph := .stopped }.ph ∧
      step { booted [.rnote] with ph := .stopped } = .next t) :=
  ⟨⟨_, by decide, rfl⟩, ⟨_, by decide, rfl⟩⟩
theorem witness_StopSetsTheShutdownFlag : prompt bench ∧ hostAdmits bench := by decide
theorem witness_TopLevelAdmitsNoComponentTransaction :
    (booted []).evaluating = false ∧ (booted []).cfg.bench = false ∧ simple .blit ∧
      issuer .blit = .seq := ⟨rfl, rfl, ⟨by simp, by simp⟩, rfl⟩
theorem witness_SequencerTransactionsDoNotNest :
    ({ bench with evaluating := true }.evaluating = true ∧
      decode (traceBytes [.blit]) = .ok .blit [] ∧
      decode (traceBytes [.boot false false 0]) = .ok (.boot false false 0) []) ∧
    decode [0x0F, 0, 0, 0, 0, 0, 0, 0, 0] = .reject .reservedOp := by decide
theorem witness_StopInsideAFrameDoesNotShortenIt :
    prompt (booted [.stop]) ∧ (booted [.stop]).evaluating = false ∧ (booted [.stop]).ph = .idle ∧
      (booted [.stop]).sd = false ∧ (booted [.stop]).input = encodeBytes .stop ++ [] := by decide

end Sys2Proof.Tests
end

section
/-! PROOFS. The port transactions (spec 40_port_dispatch): an admitted PIN or POUT as the port
operation behind it, POUT and PIN of a slot with no handler, and the read-back of R123. -/

namespace Sys2Proof.Machine

variable {s : State}

/-! Admitted port transactions. -/

theorem exec_pin_of_admitted (h : evaluationAdmits s) (a : Byte) :
    exec (.pin a) s = .next (portIn a (poll s)) :=
  congrArg Host.Outcome.next (admitted_of (decide_eq_true h) _ s)

theorem exec_pout_of_admitted (h : evaluationAdmits s) (a v : Byte) :
    exec (.pout a v) s = .next (portOut a v s) :=
  congrArg Host.Outcome.next (admitted_of (decide_eq_true h) _ s)

/-! A slot with no handler. -/

/-- The system slot of a legal configuration has a handler (R9), so a slot with none holds no palette
sub-register and a POUT to it does not reach step 3 of R125. -/
theorem isPaletteAddr_of_slotKind_none {c : Config} (hc : configOk c) {a : Byte}
    (h : slotKind c (slotOf a) = .none) : isPaletteAddr c a = false := by
  obtain ⟨-, ⟨-, hsys, -⟩, -⟩ := hc
  have hne : slotOf a ≠ c.sysSlot := fun e => hsys (e ▸ h)
  simp [isPaletteAddr, hne]

theorem dispatchWrite_of_slotKind_none {a : Byte} (h : slotKind s.cfg (slotOf a) = .none)
    (v : Byte) : dispatchWrite a v s = trace (.write a v) s := by
  unfold dispatchWrite; rw [h]

theorem portIn_of_slotKind_none {a : Byte} (h : slotKind s.cfg (slotOf a) = .none) :
    portIn a s = emit (.result (rfRead s a)) s := by
  unfold portIn; rw [h]

/-- POUT to a slot with no handler, HOST silent: the store and the trace record (R125, R127). -/
theorem portOut_of_slotKind_none (hc : configOk s.cfg) (hq : quiet s) {a : Byte}
    (h : slotKind s.cfg (slotOf a) = .none) (v : Byte) :
    portOut a v s = trace (.write a v) (rfWrite s a v) := by
  have hd : dispatchWrite a v (rfWrite s a v) = trace (.write a v) (rfWrite s a v) :=
    dispatchWrite_of_slotKind_none (s := rfWrite s a v) h v
  rw [portOut_quiet hq, hd, trace_cfg, rfWrite_cfg, isPaletteAddr_of_slotKind_none hc h]
  rfl

theorem rfRead_trace (r : TraceRec) (s : State) (b : Byte) : rfRead (trace r s) b = rfRead s b :=
  congrArg (·.read b) (trace_rf r s)

/-- PIN of a slot with no handler, HOST silent, answers the stored byte (R122). -/
theorem exec_pin_of_slotKind_none (he : evaluationAdmits s) (hq : quiet s) {a : Byte}
    (h : slotKind s.cfg (slotOf a) = .none) :
    exec (.pin a) s = .next (emit (.result (rfRead s a)) s) := by
  rw [exec_pin_of_admitted he, poll_quiet hq, portIn_of_slotKind_none h]

/-- Settles O23: the POUT is a store and a trace record, which leave the slot's kind, the admission
and HOST's silence as they were, so the PIN reads the stored byte back. -/
theorem portInReadsBackPortOut : Obligations.PortInReadsBackPortOut := by
  unfold Obligations.PortInReadsBackPortOut
  intro s a v hc hm hq he hk
  have hout : exec (.pout a v) s = .next (trace (.write a v) (rfWrite s a v)) := by
    rw [exec_pout_of_admitted he, portOut_of_slotKind_none hc hq hk]
  have hread : rfRead (trace (.write a v) (rfWrite s a v)) a = v := by
    rw [rfRead_trace, rfRead_rfWrite hm, if_pos rfl]
  refine ⟨_, _, hout, exec_pin_of_slotKind_none ?admits ?silent ?kind, ?answer⟩
  case admits => simpa [evaluationAdmits, benchPhase] using he
  case silent => simpa [quiet] using hq
  case kind => simpa using hk
  case answer => rw [emit_log, hread]

end Sys2Proof.Machine
end

section
/-! PROOFS. The input transactions (spec 42_input_router): a big-endian pair stored in the port
registers, the clamp of R182 on mathematical integers, PMOVE as two stored pairs, and the source's
pointer scenario. -/

namespace Sys2Proof.Machine

variable {s : State}

/-! A big-endian pair in the port registers (R61). -/

theorem pairOf_highByte_lowByte (v : Half) : pairOf (highByte v) (lowByte v) = v := by
  rw [pairOf, highByte, lowByte, BitVec.extractLsb'_append_extractLsb'_eq_extractLsb' (by rfl)]
  exact BitVec.extractLsb'_eq_self

theorem byte_ne_add_one (a : Byte) : a ≠ a + 1 := by
  bv_omega

/-- The pair of registers at an address and the next: the high byte is stored first (R180). -/
def storePair (m : Memory) (a : Byte) (v : Half) : Memory :=
  (m.write a (highByte v)).write (a + 1) (lowByte v)

/-- The pair of registers at an address and the next, read as one big-endian number (R61). -/
def readPair (m : Memory) (a : Byte) : Half := pairOf (m.read a) (m.read (a + 1))

theorem storePair_wf {m : Memory} (h : Memory.wf m) (a : Byte) (v : Half) :
    Memory.wf (storePair m a v) :=
  Memory.write_wf (Memory.write_wf h _ _) _ _

theorem readPair_storePair_self {m : Memory} (h : Memory.wf m) (a : Byte) (v : Half) :
    readPair (storePair m a v) a = v := by
  have hhigh : (storePair m a v).read a = highByte v := by
    rw [storePair, Memory.read_write_of_ne _ _ (byte_ne_add_one a), Memory.read_write_self h]
  have hlow : (storePair m a v).read (a + 1) = lowByte v :=
    Memory.read_write_self (Memory.write_wf h _ _) _ _
  rw [readPair, hhigh, hlow, pairOf_highByte_lowByte]

theorem read_storePair_of_ne (m : Memory) {a b : Byte} (v : Half) (hhigh : b ≠ a)
    (hlow : b ≠ a + 1) : (storePair m a v).read b = m.read b := by
  rw [storePair, Memory.read_write_of_ne _ _ hlow, Memory.read_write_of_ne _ _ hhigh]

/-! The clamp (R182). -/

theorem clampTo_eq_max_min (v : Int) (hi : Nat) : (clampTo v hi : Int) = max 0 (min v hi) := by
  unfold clampTo
  split
  · omega
  · split <;> omega

theorem clampTo_le (v : Int) (hi : Nat) : clampTo v hi ≤ hi := by
  have h := clampTo_eq_max_min v hi
  omega

/-- A clamped coordinate fits its 16 bits, for the side it is clamped to does. -/
theorem clampCoord_toNat (v : Word) (side : Half) :
    (clampCoord v side).toNat = clampTo v.toInt side.toNat := by
  have hle := clampTo_le v.toInt side.toNat
  have hlt := side.isLt
  unfold clampCoord
  rw [BitVec.toNat_ofNat, Nat.mod_eq_of_lt (by omega)]

theorem clampCoord_eq_max_min (v : Word) (side : Half) :
    ((clampCoord v side).toNat : Int) = max 0 (min v.toInt side.toNat) := by
  rw [clampCoord_toNat, clampTo_eq_max_min]

/-! PMOVE. -/

/-- The port registers after the four stores of PMOVE (R180). -/
def pointerStored (x y : Word) (s : State) : Memory :=
  storePair (storePair s.rf s.cfg.mouseXAddr (clampCoord x s.fbW))
    s.cfg.mouseYAddr (clampCoord y s.fbH)

/-- The state after the five steps of PMOVE (R180). -/
def pointerMoved (x y : Word) (s : State) : State :=
  { s with rf := pointerStored x y s, psX := clampCoord x s.fbW, psY := clampCoord y s.fbH }

theorem pointerMoved_rf_wf (h : Memory.wf s.rf) (x y : Word) :
    Memory.wf (pointerMoved x y s).rf :=
  storePair_wf (storePair_wf h _ _) _ _

theorem hostTodo_nil_of_quiet (h : quiet s) : { s with hostTodo := [] } = s := by
  rw [← h]

theorem exec_pmove_of_prompt (hp : prompt s) (ha : hostAdmits s) (x y : Word) :
    exec (.pmove x y) s = .next (pointerMoved x y s) := by
  obtain ⟨hquiet, hsched⟩ := hp
  have hrun : issueHost (moveSteps x y) s = pointerMoved x y s :=
    calc issueHost (moveSteps x y) s
        = runHost 5 { s with hostTodo := moveSteps x y } := issueHost_prompt hquiet hsched _
      _ = { pointerMoved x y s with hostTodo := [] } := rfl
      _ = pointerMoved x y s := hostTodo_nil_of_quiet hquiet
  calc exec (.pmove x y) s
      = .next (issueHost (moveSteps x y) s) :=
        congrArg Host.Outcome.next (admitted_of (decide_eq_true ha) _ s)
    _ = .next (pointerMoved x y s) := by rw [hrun]

theorem readPair_mouseY_pointerStored (hm : Memory.wf s.rf) (x y : Word) :
    readPair (pointerStored x y s) s.cfg.mouseYAddr = clampCoord y s.fbH :=
  readPair_storePair_self (storePair_wf hm _ _) _ _

/-- The pair of the x coordinate outlasts the store of the y coordinate: the pointer registers of a
legal configuration do not overlap (R9). -/
theorem readPair_mouseX_pointerStored (hc : configOk s.cfg) (hm : Memory.wf s.rf) (x y : Word) :
    readPair (pointerStored x y s) s.cfg.mouseXAddr = clampCoord x s.fbW := by
  obtain ⟨-, -, -, -, -, hnodup, -⟩ := hc
  simp only [List.nodup_cons, List.mem_cons, List.not_mem_nil, not_or] at hnodup
  obtain ⟨⟨-, hHighHigh, hHighLow, -⟩, ⟨hLowHigh, hLowLow, -⟩, -⟩ := hnodup
  rw [readPair, pointerStored, read_storePair_of_ne _ _ hHighHigh hHighLow,
    read_storePair_of_ne _ _ hLowHigh hLowLow]
  exact readPair_storePair_self hm _ _

theorem read_pointerStored_of_notMem (x y : Word) {b : Byte}
    (hb : b ∉ [s.cfg.mouseXAddr, s.cfg.mouseXAddr + 1, s.cfg.mouseYAddr, s.cfg.mouseYAddr + 1]) :
    (pointerStored x y s).read b = s.rf.read b := by
  simp only [List.mem_cons, List.not_mem_nil, or_false, not_or] at hb
  obtain ⟨hxHigh, hxLow, hyHigh, hyLow⟩ := hb
  rw [pointerStored, read_storePair_of_ne _ _ hyHigh hyLow, read_storePair_of_ne _ _ hxHigh hxLow]

/-- Settles O38: the five steps of PMOVE store two pairs of registers that do not overlap, and a
clamped coordinate is the one R182 gives. -/
theorem pmoveClampsAndStores : Obligations.PmoveClampsAndStores := by
  unfold Obligations.PmoveClampsAndStores
  intro s x y hc hm hp ha
  exact ⟨pointerMoved x y s, exec_pmove_of_prompt hp ha x y, rfl,
    clampCoord_eq_max_min x s.fbW, clampCoord_eq_max_min y s.fbH,
    readPair_mouseX_pointerStored hc hm x y, readPair_mouseY_pointerStored hm x y,
    fun _ hb => read_pointerStored_of_notMem x y hb⟩

/-! RESIZE within the capacity, between two PMOVEs. -/

theorem exec_resize_of_admitted (he : evaluationAdmits s) (w h : Word) :
    exec (.resize w h) s = .next (resizeFb w h (poll s)) :=
  congrArg Host.Outcome.next (admitted_of (decide_eq_true he) _ s)

/-- Within the capacity the policy does not matter (R151). -/
theorem resizeFb_of_not_overCapacity {w h : Word} (hcap : ¬overCapacity s.cfg w h) :
    resizeFb w h s = resizeTo w.toNat h.toNat s := by
  have hle : w.toNat ≤ s.cfg.maxW ∧ h.toNat ≤ s.cfg.maxH := by
    simpa only [overCapacity, not_or, not_lt] using hcap
  unfold resizeFb
  split
  · rw [if_neg hcap, min_eq_left hle.1, min_eq_left hle.2]
  · rw [if_neg hcap]

/-- On the cell grid a size other than the current one reallocates the framebuffer (R152). -/
theorem resizeTo_of_new_size {w h : Nat} (hw : w % s.cfg.cell = 0) (hh : h % s.cfg.cell = 0)
    (hnew : ¬(w = s.fbW.toNat ∧ h = s.fbH.toNat)) : resizeTo w h s = reallocate w h s := by
  rcases resizeTo_cases w h s with ⟨hgrid, -⟩ | ⟨ew, eh, -⟩ | ⟨-, -, e⟩
  · exact absurd ⟨hw, hh⟩ hgrid
  · exact absurd ⟨ew, eh⟩ hnew
  · exact e

theorem exec_resize_of_new_size (he : evaluationAdmits s) (hq : quiet s) {w h : Word}
    (hcap : ¬overCapacity s.cfg w h) (hw : w.toNat % s.cfg.cell = 0)
    (hh : h.toNat % s.cfg.cell = 0) (hnew : ¬(w.toNat = s.fbW.toNat ∧ h.toNat = s.fbH.toNat)) :
    exec (.resize w h) s = .next (reallocate w.toNat h.toNat s) := by
  rw [exec_resize_of_admitted he, poll_quiet hq, resizeFb_of_not_overCapacity hcap,
    resizeTo_of_new_size hw hh hnew]

/-! The pointer scenario (R189). -/

/-- PMOVE with HOST prompt, read back as the two coordinates an observer finds (R180). -/
theorem exec_pmove_stores (hc : configOk s.cfg) (hm : Memory.wf s.rf) (hp : prompt s)
    (ha : hostAdmits s) (x y : Word) :
    exec (.pmove x y) s = .next (pointerMoved x y s) ∧
      (readPair (pointerMoved x y s).rf s.cfg.mouseXAddr,
        readPair (pointerMoved x y s).rf s.cfg.mouseYAddr) =
          (clampCoord x s.fbW, clampCoord y s.fbH) :=
  ⟨exec_pmove_of_prompt hp ha x y,
    Prod.ext (readPair_mouseX_pointerStored hc hm x y) (readPair_mouseY_pointerStored hm x y)⟩

/-- The bound tracks the current size (R181): a PMOVE after a RESIZE to a new size is clamped to it,
the PMOVE before it to the size it finds. -/
theorem exec_pmove_resize_pmove (hc : configOk s.cfg) (hm : Memory.wf s.rf) (hp : prompt s)
    (ha : hostAdmits s) (he : evaluationAdmits s) {w h : Word} (hcap : ¬overCapacity s.cfg w h)
    (hw : w.toNat % s.cfg.cell = 0) (hh : h.toNat % s.cfg.cell = 0)
    (hnew : ¬(w.toNat = s.fbW.toNat ∧ h.toNat = s.fbH.toNat)) (x y x' y' : Word) :
    ∃ t u v, exec (.pmove x y) s = .next t ∧
      (readPair t.rf s.cfg.mouseXAddr, readPair t.rf s.cfg.mouseYAddr) =
        (clampCoord x s.fbW, clampCoord y s.fbH) ∧
      exec (.resize w h) t = .next u ∧ exec (.pmove x' y') u = .next v ∧
      (readPair v.rf s.cfg.mouseXAddr, readPair v.rf s.cfg.mouseYAddr) =
        (clampCoord x' (BitVec.ofNat 16 w.toNat), clampCoord y' (BitVec.ofNat 16 h.toNat)) := by
  obtain ⟨hmove, hpairs⟩ := exec_pmove_stores hc hm hp ha x y
  have hresize : exec (.resize w h) (pointerMoved x y s) =
      .next (reallocate w.toNat h.toNat (pointerMoved x y s)) :=
    exec_resize_of_new_size (s := pointerMoved x y s) he hp.1 hcap hw hh hnew
  obtain ⟨hmove', hpairs'⟩ := exec_pmove_stores
    (s := reallocate w.toNat h.toNat (pointerMoved x y s)) hc (pointerMoved_rf_wf hm x y) hp ha
    x' y'
  exact ⟨_, _, _, hmove, hpairs, hresize, hmove', hpairs'⟩

/-- Settles O42: the first PMOVE is clamped to the size at reset, the second to the size the RESIZE
between them leaves. -/
theorem pointerScenario : Obligations.PointerScenario := by
  unfold Obligations.PointerScenario
  intro c hc hbench hbootW hbootH hcellW hcellH
  have hfbW : (State.resetWith c).fbW = 512 := congrArg (BitVec.ofNat 16) hbootW
  have hfbH : (State.resetWith c).fbH = 320 := congrArg (BitVec.ofNat 16) hbootH
  have hcap : ¬overCapacity c 256 160 := by
    obtain ⟨⟨-, -, -, -, -, hmaxW, hmaxH, -⟩, -⟩ := hc
    change ¬(c.maxW < 256 ∨ c.maxH < 160)
    omega
  have hnew : ¬((256 : Word).toNat = (State.resetWith c).fbW.toNat ∧
      (160 : Word).toNat = (State.resetWith c).fbH.toNat) := by
    rw [hfbW, hfbH]
    decide
  have hadmits : hostAdmits (State.resetWith c) := ⟨nofun, nofun⟩
  obtain ⟨t, u, v, hmove, hpairs, hresize, hmove', hpairs'⟩ :=
    exec_pmove_resize_pmove hc (resetWith_rf_wf c) ⟨rfl, rfl⟩ hadmits
      (.inr ⟨rfl, hbench, .inl rfl⟩) hcap hcellW hcellH hnew (-10) 1000 300 50
  have hclamped : (clampCoord (-10) 512, clampCoord 1000 320) = ((0, 320) : Half × Half) := by
    decide
  rw [hfbW, hfbH, hclamped] at hpairs
  exact ⟨t, u, v, hmove, hpairs, hresize, hmove', hpairs'.trans (by decide)⟩

end Sys2Proof.Machine
end

section
/-! PROOFS. The fatal conditions (spec 60_exceptions): BOOT as it runs once it is admitted, a condition
raised on the way into a phase, and the load that failed. -/

namespace Sys2Proof.Machine

variable {s : State}

/-- BOOT is admitted at the top level in BOOT, when its answers agree and the trace holds its nested
descriptors (R98 (3), R99, R200): what it then does begins after the HOST steps that are due. -/
theorem exec_boot_of_admitted (he : s.evaluating = false) (hph : s.ph = .boot)
    {loadFail evalFail : Bool} {n : Word} (hwf : (Instr.boot loadFail evalFail n).wellFormed = true)
    (ht : traceHolds n.toNat s) :
    exec (.boot loadFail evalFail n) s =
      .next (bootSteps loadFail evalFail n.toNat (poll s)) := by
  have hrun : runBoot loadFail evalFail n s = bootSteps loadFail evalFail n.toNat (poll s) := by
    rw [runBoot, if_neg (Bool.eq_false_iff.mp he), if_neg (not_not_intro hph),
      if_neg (not_not_intro hwf), if_neg (not_not_intro ht)]
  exact congrArg Host.Outcome.next hrun

/-- A failed load starts no evaluation (R201). -/
theorem bootSteps_loadFail (evalFail : Bool) (n : Nat) (s : State) :
    bootSteps true evalFail n s = setPhase .fatal (raise .bootLoadFail s) := rfl

/-- Raising a condition and entering a phase writes PH and hands over the two events, in that order
(R38, R230). -/
theorem setPhase_raise (p : Phase) (x : XCond) (s : State) :
    setPhase p (raise x s) = { s with
      ph := p
      log := s.log ++ [.raised x, .phase p] } := by
  have hlog : (setPhase p (raise x s)).log = s.log ++ [.raised x, .phase p] := by
    rw [setPhase_log, raise_log, List.append_assoc, List.singleton_append]
  rw [← hlog]
  rfl

/-- Settles O46: a failed load with nothing nested is admitted, and of HOST's steps and the way into
FATAL only the latter hands events to the observer. -/
theorem bootLoadFailureIsFatal : Obligations.BootLoadFailureIsFatal := by
  unfold Obligations.BootLoadFailureIsFatal
  intro s he hph
  have hwf : (Instr.boot true false 0).wellFormed = true := by decide
  have ht : traceHolds (0 : Word).toNat s := Nat.zero_le _
  rw [exec_boot_of_admitted he hph hwf ht, bootSteps_loadFail, setPhase_raise, poll_log]

end Sys2Proof.Machine
end

section
/-! PROOFS. Descriptors (spec 30_encoding): the decoder accepts exactly the encodings of the
well-formed transactions, and the rows of the opcode table are told apart by their op byte. -/

namespace Sys2Proof

/-! The operand fields of the formats (R92). -/

theorem byteField_toNat (v : Byte) : (byteField v).toNat = v.toNat := by
  have := v.isLt
  rw [byteField, BitVec.toNat_setWidth, Nat.mod_eq_of_lt (by omega)]

theorem extractLsb'_low_byteField (v : Byte) : (byteField v).extractLsb' 0 8 = v := by
  apply BitVec.eq_of_toNat_eq
  have := v.isLt
  rw [BitVec.extractLsb'_toNat, byteField_toNat]
  omega

theorem extractLsb'_high_byteField (v : Byte) : (byteField v).extractLsb' 8 24 = 0 := by
  apply BitVec.eq_of_toNat_eq
  have := v.isLt
  rw [BitVec.extractLsb'_toNat, byteField_toNat, Nat.shiftRight_eq_div_pow]
  change _ = 0
  omega

/-- An operand whose upper 24 bits are zero carries its low byte. -/
theorem byteField_extractLsb' {a : Word} (h : a.extractLsb' 8 24 = 0) :
    byteField (a.extractLsb' 0 8) = a := by
  apply BitVec.eq_of_toNat_eq
  have hn := congrArg BitVec.toNat h
  have := a.isLt
  rw [byteField_toNat]
  simp only [BitVec.extractLsb'_toNat, Nat.shiftRight_eq_div_pow, BitVec.ofNat_eq_ofNat,
    BitVec.toNat_ofNat] at hn ⊢
  omega

theorem getLsbD_zero_answerField (a0 a1 : Bool) : (answerField a0 a1).getLsbD 0 = a0 := by
  revert a0 a1; decide

theorem getLsbD_one_answerField (a0 a1 : Bool) : (answerField a0 a1).getLsbD 1 = a1 := by
  revert a0 a1; decide

theorem extractLsb'_high_answerField (a0 a1 : Bool) :
    (answerField a0 a1).extractLsb' 2 30 = 0 := by
  revert a0 a1; decide

/-- An operand whose upper 30 bits are zero carries its two answer bits. -/
theorem answerField_getLsbD {a : Word} (h : a.extractLsb' 2 30 = 0) :
    answerField (a.getLsbD 0) (a.getLsbD 1) = a := by
  have hn := congrArg BitVec.toNat h
  simp only [BitVec.extractLsb'_toNat, Nat.shiftRight_eq_div_pow, BitVec.ofNat_eq_ofNat,
    BitVec.toNat_ofNat] at hn
  have ha : a = 0 ∨ a = 1 ∨ a = 2 ∨ a = 3 := by bv_omega
  rcases ha with rfl | rfl | rfl | rfl <;> decide

/-! Each format of the decoder: what it accepts. -/

theorem decodeA_eq_ok {mk : Byte → Instr} {a b : Word} {i : Instr} :
    decodeA mk a b = .ok i ↔ ∃ addr, a = byteField addr ∧ b = 0 ∧ i = mk addr := by
  unfold decodeA
  constructor
  · intro h
    split at h
    · rename_i hz
      cases h
      exact ⟨_, (byteField_extractLsb' hz.1).symm, hz.2, rfl⟩
    · cases h
  · rintro ⟨addr, rfl, rfl, rfl⟩
    rw [if_pos ⟨extractLsb'_high_byteField addr, rfl⟩, extractLsb'_low_byteField]

theorem decodeAV_eq_ok {mk : Byte → Byte → Instr} {a b : Word} {i : Instr} :
    decodeAV mk a b = .ok i ↔
      ∃ addr val, a = byteField addr ∧ b = byteField val ∧ i = mk addr val := by
  unfold decodeAV
  constructor
  · intro h
    split at h
    · rename_i hz
      cases h
      exact ⟨_, _, (byteField_extractLsb' hz.1).symm, (byteField_extractLsb' hz.2).symm, rfl⟩
    · cases h
  · rintro ⟨addr, val, rfl, rfl, rfl⟩
    rw [if_pos ⟨extractLsb'_high_byteField addr, extractLsb'_high_byteField val⟩,
      extractLsb'_low_byteField, extractLsb'_low_byteField]

theorem decodeZ_eq_ok {j : Instr} {a b : Word} {i : Instr} :
    decodeZ j a b = .ok i ↔ a = 0 ∧ b = 0 ∧ i = j := by
  unfold decodeZ
  constructor
  · intro h
    split at h
    · rename_i hz
      cases h
      exact ⟨hz.1, hz.2, rfl⟩
    · cases h
  · rintro ⟨rfl, rfl, rfl⟩
    exact if_pos ⟨rfl, rfl⟩

theorem decodeU_eq_ok {mk : Word → Instr} {a b : Word} {i : Instr} :
    decodeU mk a b = .ok i ↔ b = 0 ∧ i = mk a := by
  unfold decodeU
  constructor
  · intro h
    split at h
    · rename_i hz
      cases h
      exact ⟨hz, rfl⟩
    · cases h
  · rintro ⟨rfl, rfl⟩
    exact if_pos rfl

theorem decodeN_eq_ok {mk : Bool → Bool → Word → Instr} {a b : Word} {i : Instr} :
    decodeN mk a b = .ok i ↔
      ∃ a0 a1, a = answerField a0 a1 ∧ i = mk a0 a1 b ∧ i.wellFormed = true := by
  unfold decodeN
  constructor
  · intro h
    split at h
    · rename_i hz
      split at h
      · rename_i hwf
        cases h
        exact ⟨_, _, (answerField_getLsbD hz).symm, rfl, hwf⟩
      · cases h
    · cases h
  · rintro ⟨a0, a1, rfl, rfl, hwf⟩
    rw [if_pos (extractLsb'_high_answerField a0 a1), getLsbD_zero_answerField,
      getLsbD_one_answerField, if_pos hwf]

/-! The decoder and the encoder. -/

/-- A well-formed transaction is what its own descriptor decodes to: each format accepts the operand
fields the encoder makes. -/
theorem decodeDescriptor_encode {i : Instr} (h : i.wellFormed = true) :
    decodeDescriptor (encode i) = .ok i := by
  cases i with
  | pin addr =>
    simpa [decodeDescriptor, encode] using decodeA_eq_ok.mpr ⟨addr, rfl, rfl, rfl⟩
  | peek addr =>
    simpa [decodeDescriptor, encode] using decodeA_eq_ok.mpr ⟨addr, rfl, rfl, rfl⟩
  | pout addr val =>
    simpa [decodeDescriptor, encode] using decodeAV_eq_ok.mpr ⟨addr, val, rfl, rfl, rfl⟩
  | push addr val =>
    simpa [decodeDescriptor, encode] using decodeAV_eq_ok.mpr ⟨addr, val, rfl, rfl, rfl⟩
  | resize w k => simp [decodeDescriptor, encode]
  | fbwr j px => simp [decodeDescriptor, encode]
  | pmove x y => simp [decodeDescriptor, encode]
  | blit => simpa [decodeDescriptor, encode] using decodeZ_eq_ok.mpr ⟨rfl, rfl, rfl⟩
  | rnote => simpa [decodeDescriptor, encode] using decodeZ_eq_ok.mpr ⟨rfl, rfl, rfl⟩
  | geom => simpa [decodeDescriptor, encode] using decodeZ_eq_ok.mpr ⟨rfl, rfl, rfl⟩
  | stop => simpa [decodeDescriptor, encode] using decodeZ_eq_ok.mpr ⟨rfl, rfl, rfl⟩
  | bdown id => simpa [decodeDescriptor, encode] using decodeU_eq_ok.mpr ⟨rfl, rfl⟩
  | bup id => simpa [decodeDescriptor, encode] using decodeU_eq_ok.mpr ⟨rfl, rfl⟩
  | boot l e n =>
    simpa [decodeDescriptor, encode] using decodeN_eq_ok.mpr ⟨l, e, rfl, rfl, h⟩
  | frame e v n =>
    simpa [decodeDescriptor, encode] using decodeN_eq_ok.mpr ⟨e, v, rfl, rfl, h⟩

/-- A descriptor is made of the op byte and the operands it is known to hold. -/
theorem Descriptor.eq_make {td : Descriptor} {op : Byte} {a b : Word}
    (hop : td.op.toNat = op.toNat) (ha : td.a = a) (hb : td.b = b) :
    td = Descriptor.make op a b := by
  rw [← BitVec.eq_of_toNat_eq hop, ← ha, ← hb, Descriptor.make_fields]

/-- A descriptor that is accepted is the encoding of the transaction read. -/
theorem encode_of_decodeDescriptor {td : Descriptor} {i : Instr}
    (h : decodeDescriptor td = .ok i) : td = encode i ∧ i.wellFormed = true := by
  unfold decodeDescriptor at h
  split at h
  case h_1 hop | h_4 hop =>
    obtain ⟨addr, ha, hb, rfl⟩ := decodeA_eq_ok.mp h
    exact ⟨Descriptor.eq_make hop ha hb, rfl⟩
  case h_2 hop | h_3 hop =>
    obtain ⟨addr, val, ha, hb, rfl⟩ := decodeAV_eq_ok.mp h
    exact ⟨Descriptor.eq_make hop ha hb, rfl⟩
  case h_5 hop | h_6 hop | h_10 hop =>
    cases h
    exact ⟨Descriptor.eq_make hop rfl rfl, rfl⟩
  case h_7 hop | h_8 hop | h_9 hop | h_15 hop =>
    obtain ⟨ha, hb, rfl⟩ := decodeZ_eq_ok.mp h
    exact ⟨Descriptor.eq_make hop ha hb, rfl⟩
  case h_11 hop | h_12 hop =>
    obtain ⟨hb, rfl⟩ := decodeU_eq_ok.mp h
    exact ⟨Descriptor.eq_make hop rfl hb, rfl⟩
  case h_13 hop | h_14 hop =>
    obtain ⟨a0, a1, ha, rfl, hwf⟩ := decodeN_eq_ok.mp h
    exact ⟨Descriptor.eq_make hop ha rfl, hwf⟩
  case h_16 => cases h

/-- The decoder accepts exactly the encodings of the well-formed transactions. -/
theorem decodeDescriptor_eq_ok {td : Descriptor} {i : Instr} :
    decodeDescriptor td = .ok i ↔ td = encode i ∧ i.wellFormed = true :=
  ⟨encode_of_decodeDescriptor, fun ⟨htd, hwf⟩ => htd ▸ decodeDescriptor_encode hwf⟩

theorem decode_encodeBytes {i : Instr} (h : i.wellFormed = true) (rest : List Byte) :
    decode (encodeBytes i ++ rest) = .ok i rest := by
  rw [encodeBytes, decode_bytes, decodeDescriptor_encode h]

/-- Settles O1: the decoder reads the nine bytes as the descriptor the encoder made, and that
descriptor as the transaction. -/
theorem decodeInvertsEncode : Obligations.DecodeInvertsEncode := by
  unfold Obligations.DecodeInvertsEncode
  exact fun i rest h => decode_encodeBytes h rest

/-- Settles O2: the first nine bytes are a descriptor that is accepted, and such a descriptor is an
encoding. -/
theorem acceptedBytesAreTheEncoding : Obligations.AcceptedBytesAreTheEncoding := by
  unfold Obligations.AcceptedBytesAreTheEncoding
  intro bytes i rest h
  obtain ⟨td, hbytes, hok⟩ := decode_eq_ok h
  obtain ⟨rfl, hwf⟩ := decodeDescriptor_eq_ok.mp hok
  exact ⟨hbytes, hwf⟩

/-! The opcode table (R95). -/

/-- A row fixes the whole op byte, and its op byte is its own. -/
theorem opcodeTable_fixed_op : ∀ r ∈ opcodeTable, r.fixed.op = 0xFF := by decide

theorem opcodeTable_value_op_injective :
    ∀ r ∈ opcodeTable, ∀ q ∈ opcodeTable, r.value.op = q.value.op → r = q := by decide

theorem op_of_matches {td : Descriptor} {r : OpcodeRow} (hr : r ∈ opcodeTable)
    (h : r.matches td = true) : td.op = r.value.op := by
  have hop : (td &&& r.fixed).op = td.op &&& r.fixed.op := BitVec.extractLsb'_and
  rw [← eq_of_beq h, hop, opcodeTable_fixed_op r hr]
  exact BitVec.and_allOnes.symm

/-- Settles O4: a row that matches has the descriptor's op byte, and no two rows share one. -/
theorem opcodeRowsAreDisjoint : Obligations.OpcodeRowsAreDisjoint := by
  unfold Obligations.OpcodeRowsAreDisjoint
  intro td r q hr hq hmr hmq
  exact opcodeTable_value_op_injective r hr q hq
    ((op_of_matches hr hmr).symm.trans (op_of_matches hq hmq))

/-- The encoding of every transaction matches the row of its mnemonic. -/
theorem encode_matches (i : Instr) : Laws.EncodingRow.Statement i := by
  cases i with
  | pin addr => exact Laws.EncodingRow.pin addr
  | pout addr val => exact Laws.EncodingRow.pout addr val
  | push addr val => exact Laws.EncodingRow.push addr val
  | peek addr => exact Laws.EncodingRow.peek addr
  | resize w k => exact Laws.EncodingRow.resize w k
  | fbwr j px => exact Laws.EncodingRow.fbwr j px
  | blit => exact Laws.EncodingRow.blit
  | rnote => exact Laws.EncodingRow.rnote
  | geom => exact Laws.EncodingRow.geom
  | pmove x y => exact Laws.EncodingRow.pmove x y
  | bdown id => exact Laws.EncodingRow.bdown id
  | bup id => exact Laws.EncodingRow.bup id
  | boot l e n => exact Laws.EncodingRow.boot l e n
  | frame e v n => exact Laws.EncodingRow.frame e v n
  | stop => exact Laws.EncodingRow.stop

theorem extractLsb'_eq_zero_of_and {a m : Word} {start len : Nat} (h : a &&& m = 0)
    (hm : m.extractLsb' start len = BitVec.allOnes len) : a.extractLsb' start len = 0 := by
  rw [← BitVec.and_allOnes (x := a.extractLsb' start len), ← hm, ← BitVec.extractLsb'_and, h]
  simp

/-- The operands of a descriptor that matches a row, as the row's masks fix them. -/
theorem operands_of_matches {td : Descriptor} {r : OpcodeRow} (h : r.matches td = true) :
    td.a &&& r.fixed.a = r.value.a ∧ td.b &&& r.fixed.b = r.value.b := by
  rw [← eq_of_beq h]
  exact ⟨BitVec.extractLsb'_and.symm, BitVec.extractLsb'_and.symm⟩

/-- An operand that a row fixes to zero outside its low byte. -/
theorem eq_byteField_of_and {a : Word} (h : a &&& 0xFFFFFF00 = 0) :
    a = byteField (a.extractLsb' 0 8) :=
  (byteField_extractLsb' (extractLsb'_eq_zero_of_and h (by decide))).symm

/-- An operand that a row fixes to zero outside its two answer bits. -/
theorem eq_answerField_of_and {a : Word} (h : a &&& 0xFFFFFFFC = 0) :
    a = answerField (a.getLsbD 0) (a.getLsbD 1) :=
  (answerField_getLsbD (extractLsb'_eq_zero_of_and h (by decide))).symm

/-- An operand that a row fixes to zero whole. -/
theorem eq_zero_of_and {a : Word} (h : a &&& 0xFFFFFFFF = 0) : a = 0 :=
  BitVec.and_allOnes.symm.trans h

/-- A descriptor that matches a row is an encoding, of a well-formed transaction or of a
contradictory BOOT. -/
theorem encode_of_matches {td : Descriptor} {r : OpcodeRow} (hr : r ∈ opcodeTable)
    (h : r.matches td = true) : ∃ i, td = encode i := by
  have hop : td.op.toNat = r.value.op.toNat := congrArg BitVec.toNat (op_of_matches hr h)
  obtain ⟨ha, hb⟩ := operands_of_matches h
  simp only [opcodeTable, List.mem_cons, List.not_mem_nil, or_false] at hr
  rcases hr with rfl | rfl | rfl | rfl | rfl | rfl | rfl | rfl | rfl | rfl | rfl | rfl | rfl |
    rfl | rfl
  · exact ⟨.pin _, Descriptor.eq_make hop (eq_byteField_of_and ha) (eq_zero_of_and hb)⟩
  · exact ⟨.pout _ _, Descriptor.eq_make hop (eq_byteField_of_and ha) (eq_byteField_of_and hb)⟩
  · exact ⟨.push _ _, Descriptor.eq_make hop (eq_byteField_of_and ha) (eq_byteField_of_and hb)⟩
  · exact ⟨.peek _, Descriptor.eq_make hop (eq_byteField_of_and ha) (eq_zero_of_and hb)⟩
  · exact ⟨.resize _ _, Descriptor.eq_make hop rfl rfl⟩
  · exact ⟨.fbwr _ _, Descriptor.eq_make hop rfl rfl⟩
  · exact ⟨.blit, Descriptor.eq_make hop (eq_zero_of_and ha) (eq_zero_of_and hb)⟩
  · exact ⟨.rnote, Descriptor.eq_make hop (eq_zero_of_and ha) (eq_zero_of_and hb)⟩
  · exact ⟨.geom, Descriptor.eq_make hop (eq_zero_of_and ha) (eq_zero_of_and hb)⟩
  · exact ⟨.pmove _ _, Descriptor.eq_make hop rfl rfl⟩
  · exact ⟨.bdown _, Descriptor.eq_make hop rfl (eq_zero_of_and hb)⟩
  · exact ⟨.bup _, Descriptor.eq_make hop rfl (eq_zero_of_and hb)⟩
  · exact ⟨.boot _ _ _, Descriptor.eq_make hop (eq_answerField_of_and ha) rfl⟩
  · exact ⟨.frame _ _ _, Descriptor.eq_make hop (eq_answerField_of_and ha) rfl⟩
  · exact ⟨.stop, Descriptor.eq_make hop (eq_zero_of_and ha) (eq_zero_of_and hb)⟩

/-- The clause of R98 (3) on BOOT, read off the descriptor: only a BOOT can be ill formed. -/
theorem wellFormed_iff_encode (i : Instr) :
    i.wellFormed = true ↔
      ¬((encode i).op = 0x0C ∧ (encode i).a.getLsbD 0 = true ∧
        ((encode i).a.getLsbD 1 = true ∨ (encode i).b ≠ 0)) := by
  cases i with
  | boot l e n =>
    simp only [encode, Descriptor.make_op, Descriptor.make_a, Descriptor.make_b,
      getLsbD_zero_answerField, getLsbD_one_answerField]
    cases l <;> cases e <;> simp [Instr.wellFormed, bootAnswersAgree, bootCountAgrees]
  | _ => simp [encode, Instr.wellFormed]

/-- Settles O3: a descriptor matches a row exactly when it is an encoding, and of the encodings
those of the ill-formed transactions, all of them BOOTs, are rejected. The row is the
transaction's, because no second row matches. -/
theorem decodeAcceptsTheTableRows : Obligations.DecodeAcceptsTheTableRows := by
  unfold Obligations.DecodeAcceptsTheTableRows
  refine ⟨fun td => ⟨?accepted, ?matched⟩, ?row⟩
  case accepted =>
    rintro ⟨i, hok⟩
    obtain ⟨rfl, hwf⟩ := decodeDescriptor_eq_ok.mp hok
    obtain ⟨r, hr, -, hm⟩ := encode_matches i
    exact ⟨⟨r, hr, hm⟩, (wellFormed_iff_encode i).mp hwf⟩
  case matched =>
    rintro ⟨⟨r, hr, hm⟩, hclash⟩
    obtain ⟨i, rfl⟩ := encode_of_matches hr hm
    exact ⟨i, decodeDescriptor_encode ((wellFormed_iff_encode i).mpr hclash)⟩
  case row =>
    intro td i r hok hr hm
    obtain ⟨rfl, -⟩ := decodeDescriptor_eq_ok.mp hok
    obtain ⟨q, hq, hname, hmq⟩ := encode_matches i
    rw [opcodeRowsAreDisjoint (encode i) r q hr hq hm hmq, hname]

/-- Settles O5: ten words of the spec, each decoded. -/
theorem writtenOutWordsDecode : Obligations.WrittenOutWordsDecode := by
  unfold Obligations.WrittenOutWordsDecode
  decide

end Sys2Proof
end

section
/-! PROOFS. One step (spec 30_encoding R91, R98, R99): the nine bytes it consumes, the transaction
it runs, and the two ways in which none is run. -/

namespace Sys2Proof.Machine

variable {s : State}

theorem rest_of_decode {bytes rest : List Byte} {i : Instr} (h : decode bytes = .ok i rest) :
    rest = bytes.drop 9 := by
  obtain ⟨td, rfl, -⟩ := decode_eq_ok h
  rfl

/-- Fewer than nine bytes are no descriptor. -/
theorem decode_of_length_lt {bytes : List Byte} (h : bytes.length < 9) :
    decode bytes = .reject .truncated := by
  unfold decode
  split
  · simp only [List.length_cons] at h
    omega
  · rfl

/-- A reserved descriptor is fetched as one that is consumed and refused. -/
theorem fetch_of_reject {e : DecodeError} (h : decode s.input = .reject e) (he : e ≠ .truncated) :
    fetch s = .reserved (refuse (.reservedDescriptor e) (advance s)) := by
  rcases fetch_cases s with ⟨i, rest, hok, -⟩ | ⟨r, -, hr, hf⟩ | ⟨ht, -⟩
  · cases h.symm.trans hok
  · cases h.symm.trans hr
    exact hf
  · cases h.symm.trans ht
    exact absurd rfl he

/-- Settles O6: a transaction is read from nine bytes, and those are what is dropped. -/
theorem stepRunsTheDecodedTransaction : Obligations.StepRunsTheDecodedTransaction := by
  unfold Obligations.StepRunsTheDecodedTransaction
  intro s i rest h
  obtain rfl := rest_of_decode h
  exact ⟨rfl, step_of_decode h⟩

/-- Settles O7: the fetch consumes and refuses it, and the step ends there. -/
theorem stepRefusesAReservedDescriptor : Obligations.StepRefusesAReservedDescriptor := by
  unfold Obligations.StepRefusesAReservedDescriptor
  intro s e h he
  unfold step
  rw [fetch_of_reject h he]
  rfl

/-- Settles O8: too few bytes decode as truncated, and the fetch is stuck. -/
theorem noStepWithoutADescriptor : Obligations.NoStepWithoutADescriptor := by
  unfold Obligations.NoStepWithoutADescriptor
  intro s h
  unfold step fetch
  rw [decode_of_length_lt h]

/-- Everything a step can do: run a transaction with its nine bytes consumed, or refuse a reserved
descriptor. -/
theorem step_cases {t : State} (h : step s = .next t) :
    (∃ i rest, decode s.input = .ok i rest ∧ exec i { s with input := rest } = .next t) ∨
    (∃ e, t = refuse (.reservedDescriptor e) (advance s)) := by
  unfold step at h
  rcases fetch_cases s with ⟨i, rest, hok, hf⟩ | ⟨e, -, -, hf⟩ | ⟨-, f, hf⟩ <;> rw [hf] at h
  · exact .inl ⟨i, rest, hok, h⟩
  · cases h
    exact .inr ⟨e, rfl⟩
  · cases h

end Sys2Proof.Machine
end

section
/-! PROOFS. BOOT and FRAME taken apart, each function once (spec 43_frame_sequencer R200 to R212),
and the rule for proving what a transaction leaves alone: `Persistent`, for a property that every
atomic update of the block keeps. -/

namespace Sys2Proof.Machine

variable {s t : State}

/-! BOOT and FRAME. -/

/-- Everything BOOT can do before its first effect. -/
theorem runBoot_cases (loadFail evalFail : Bool) (n : Word) (s : State) :
    (∃ r, runBoot loadFail evalFail n s = refuse r s) ∨
    (s.evaluating = false ∧ s.ph = .boot ∧ traceHolds n.toNat s ∧
      runBoot loadFail evalFail n s = bootSteps loadFail evalFail n.toNat (poll s)) := by
  unfold runBoot
  split
  · exact .inl ⟨_, rfl⟩
  · split
    · exact .inl ⟨_, rfl⟩
    · split
      · exact .inl ⟨_, rfl⟩
      · split
        · exact .inl ⟨_, rfl⟩
        · rename_i he hph _ ht
          exact .inr ⟨Bool.eq_false_iff.mpr he, not_not.mp hph, not_not.mp ht, rfl⟩

/-- Everything BOOT can do once it is admitted. -/
theorem bootSteps_cases (loadFail evalFail : Bool) (n : Nat) (s : State) :
    bootSteps loadFail evalFail n s = setPhase .fatal (raise .bootLoadFail s) ∨
    bootSteps loadFail evalFail n s =
      setPhase .fatal (raise .bootEvalFail (evaluate s.cfg.origin n s)) ∨
    bootSteps loadFail evalFail n s = setPhase .idle (evaluate s.cfg.origin n s) := by
  cases loadFail
  · cases evalFail
    · exact .inr (.inr rfl)
    · exact .inr (.inl rfl)
  · exact .inl rfl

/-- Everything FRAME can do before its loop top. -/
theorem runFrame_cases (evalFail invalid : Bool) (n : Word) (s : State) :
    (∃ r, runFrame evalFail invalid n s = refuse r s) ∨
    (s.evaluating = false ∧ s.ph = .idle ∧
      runFrame evalFail invalid n s = frameSteps evalFail invalid n (poll s)) := by
  unfold runFrame
  split
  · exact .inl ⟨_, rfl⟩
  · split
    · exact .inl ⟨_, rfl⟩
    · split
      · exact .inl ⟨_, rfl⟩
      · rename_i he hph _
        exact .inr ⟨Bool.eq_false_iff.mpr he, not_not.mp hph, rfl⟩

/-- Everything FRAME can do from its loop top on. -/
theorem frameSteps_cases (evalFail invalid : Bool) (n : Word) (s : State) :
    (∃ r, frameSteps evalFail invalid n s = refuse r s) ∨
    (s.sd = true ∧ evalFail = false ∧ invalid = false ∧ n = 0 ∧
      frameSteps evalFail invalid n s = setPhase .stopped s) ∨
    (s.sd = false ∧ frameSteps evalFail invalid n s =
      afterEvaluation evalFail invalid (vectorCall n.toNat s).2 (vectorCall n.toNat s).1) := by
  unfold frameSteps
  split
  · split
    · exact .inl ⟨_, rfl⟩
    · rename_i hsd hok
      simp only [not_or, Bool.not_eq_true, ne_eq, not_not] at hok
      exact .inr (.inl ⟨hsd, hok.1, hok.2.1, hok.2.2, rfl⟩)
  · split
    · exact .inl ⟨_, rfl⟩
    · rename_i hsd _
      exact .inr (.inr ⟨Bool.eq_false_iff.mpr hsd, rfl⟩)

/-- Everything that can follow an evaluation: the frame ends with X3, or it goes on, X3 recorded or
not. -/
theorem afterEvaluation_cases (evalFail invalid : Bool) (vec : Half) (s : State) :
    afterEvaluation evalFail invalid vec s = setPhase .idle (raise (.frameEvalFail vec) s) ∨
    afterEvaluation evalFail invalid vec s =
      presentFrame invalid (raise (.frameEvalFail vec) s) ∨
    afterEvaluation evalFail invalid vec s = presentFrame invalid s := by
  unfold afterEvaluation
  split
  · split
    · exact .inl rfl
    · exact .inr (.inl rfl)
  · exact .inr (.inr rfl)

/-- The state whose framebuffer a frame converts: the geometry derived, the phase UPLOAD (R205). -/
def uploaded (s : State) : State := poll (setPhase .upload (poll (deriveGeometry (poll s))))

/-- The state whose staging image a frame hands out: the framebuffer converted, the phase RENDER
(R206 to R208). -/
def rendered (s : State) : State := setPhase .render (poll (convert (uploaded s)))

/-- What of a frame follows its rendering (R208 to R210). -/
theorem presentFrame_eq (invalid : Bool) (s : State) :
    presentFrame invalid s =
      if invalid then
        setPhase .idle (recreateStaging (raise .swapchainInvalidated
          (poll (setPhase .present (poll (rendered s))))))
      else
        setPhase .idle (emit (.frame (frameOutput (rendered s)))
          (poll (setPhase .present (poll (rendered s))))) := rfl

/-! Properties that every atomic update keeps. -/

/-- A property that every atomic update of the block keeps, those of BOOT and FRAME included. -/
structure Persistent (P : State → Prop) : Prop extends HostClosed P where
  event : ∀ e s, P s → P (emit e s)
  mark : ∀ s, P s → P (setRefused s)
  store : ∀ s a v, P s → P (rfWrite s a v)
  pixel : ∀ s i p, i < fbSize s → P s → P (fbWrite s i p)
  size : ∀ w h s, w ≤ s.cfg.maxW → h ≤ s.cfg.maxH → w % s.cfg.cell = 0 → h % s.cfg.cell = 0 →
    P s → P (reallocate w h s)
  palette : ∀ sys s, P s → P (refreshPalette sys s)
  handler : ∀ slot v s, P s → P (hstateWrite slot v s)
  blit : ∀ s, P s → P (convert s)
  geometry : ∀ s, P s → P (deriveGeometry s)
  staging : ∀ s, P s → P (recreateStaging s)
  phase : ∀ p s, P s → P { s with ph := p }
  nesting : ∀ b s, P s → P { s with evaluating := b }
  input : ∀ s l, P s → P { s with input := l }

variable {P : State → Prop} (c : Persistent P)
include c

theorem Persistent.poll (h : P s) : P (poll s) := c.toHostClosed.poll h

theorem Persistent.closed : Closed P where
  poll := c.poll
  event e s _ := c.event e s
  mark := c.mark
  store := c.store
  pixel := c.pixel
  size := c.size
  palette := c.palette
  handler := c.handler

theorem Persistent.refuse (r : RefuseReason) (h : P s) : P (refuse r s) := c.closed.refuse r h

theorem Persistent.setPhase (p : Phase) (h : P s) : P (setPhase p s) :=
  c.event _ _ (c.phase _ _ h)

theorem Persistent.evaluate (entry : Half) (n : Nat) (h : P s) : P (evaluate entry n s) :=
  c.closed.evaluate c.toHostClosed c.input (c.event _ _ (c.nesting _ _ h)) (c.nesting _)

theorem Persistent.bootSteps (loadFail evalFail : Bool) (n : Nat) (h : P s) :
    P (bootSteps loadFail evalFail n s) := by
  have he := c.evaluate s.cfg.origin n h
  rcases bootSteps_cases loadFail evalFail n s with e | e | e <;> rw [e]
  · exact c.setPhase _ (c.event _ _ h)
  · exact c.setPhase _ (c.event _ _ he)
  · exact c.setPhase _ he

theorem Persistent.vectorCall (n : Nat) (h : P s) : P (vectorCall n s).1 :=
  c.evaluate _ _ (c.setPhase _ (c.poll (c.poll (c.poll h))))

theorem Persistent.rendered (h : P s) : P (rendered s) :=
  c.setPhase _ (c.poll (c.blit _ (c.poll (c.setPhase _ (c.poll (c.geometry _ (c.poll h)))))))

theorem Persistent.presentFrame (invalid : Bool) (h : P s) : P (presentFrame invalid s) := by
  have hp := c.poll (c.setPhase .present (c.poll (c.rendered h)))
  rw [presentFrame_eq]
  split
  · exact c.setPhase _ (c.staging _ (c.event _ _ hp))
  · exact c.setPhase _ (c.event _ _ hp)

theorem Persistent.afterEvaluation (evalFail invalid : Bool) (vec : Half) (h : P s) :
    P (afterEvaluation evalFail invalid vec s) := by
  rcases afterEvaluation_cases evalFail invalid vec s with e | e | e <;> rw [e]
  · exact c.setPhase _ (c.event _ _ h)
  · exact c.presentFrame _ (c.event _ _ h)
  · exact c.presentFrame _ h

theorem Persistent.frameSteps (evalFail invalid : Bool) (n : Word) (h : P s) :
    P (frameSteps evalFail invalid n s) := by
  rcases frameSteps_cases evalFail invalid n s with ⟨r, e⟩ | ⟨-, -, -, -, e⟩ | ⟨-, e⟩ <;> rw [e]
  · exact c.refuse _ h
  · exact c.setPhase _ h
  · exact c.afterEvaluation _ _ _ (c.vectorCall _ h)

/-- A property that every atomic update keeps holds after every transaction. -/
theorem Persistent.exec {i : Instr} (h : P s) (ht : exec i s = .next t) : P t := by
  by_cases hb : ∃ l e n, i = .boot l e n
  · obtain ⟨l, e, n, rfl⟩ := hb
    cases ht
    rcases runBoot_cases l e n s with ⟨r, eq⟩ | ⟨-, -, -, eq⟩ <;> rw [eq]
    · exact c.refuse _ h
    · exact c.bootSteps _ _ _ (c.poll h)
  · by_cases hf : ∃ e v n, i = .frame e v n
    · obtain ⟨e, v, n, rfl⟩ := hf
      cases ht
      rcases runFrame_cases e v n s with ⟨r, eq⟩ | ⟨-, -, eq⟩ <;> rw [eq]
      · exact c.refuse _ h
      · exact c.frameSteps _ _ _ (c.poll h)
    · push Not at hb hf
      exact c.closed.exec_simple c.toHostClosed (fun _ _ h => c.blit _ (c.poll h))
        (fun _ _ h => c.geometry _ (c.poll h)) i hb hf h ht

/-- It holds after every step. -/
theorem Persistent.step (h : P s) (ht : step s = .next t) : P t := by
  rcases step_cases ht with ⟨i, rest, -, hx⟩ | ⟨e, rfl⟩
  · exact c.exec (c.input _ _ h) hx
  · exact c.refuse _ (c.input _ _ h)

end Sys2Proof.Machine
end

section
/-! PROOFS. Invariants of the step (spec 10_state R41, R261): the configuration, the marks and the
log, the state invariant, and that it holds at reset. -/

namespace Sys2Proof.Machine

variable {s t : State}

/-! The configuration, SD, REFUSED and the log. -/

/-- What no event of a run undoes: the configuration stands, SD and REFUSED stay set, the log
grows. -/
structure Monotone (s t : State) : Prop where
  config : t.cfg = s.cfg
  shutdown : s.sd = true → t.sd = true
  refused : s.refused = true → t.refused = true
  log : s.log <+: t.log

theorem monotone_persistent (s : State) : Persistent (Monotone s) where
  host h t m := by
    cases h with
    | requestStop => exact { m with shutdown := fun _ => rfl }
    | _ => exact { m with }
  todo _ _ m := { m with }
  sched _ _ m := { m with }
  event e t m := { m with log := m.log.trans ⟨[e], rfl⟩ }
  mark _ m := { m with refused := fun _ => rfl }
  store _ _ _ m := { m with }
  pixel _ _ _ _ m := { m with }
  size _ _ _ _ _ _ _ m := { m with }
  palette _ _ m := { m with }
  handler _ _ _ m := { m with }
  blit _ m := { m with }
  geometry t m := by
    unfold deriveGeometry
    split
    · exact { m with }
    · exact m
  staging _ m := { m with }
  phase _ _ m := { m with }
  nesting _ _ m := { m with }
  input _ _ m := { m with }

/-- Settles O12: no atomic update writes the configuration, clears a mark or shortens the log. -/
theorem stepKeepsConfigurationAndMarks : Obligations.StepKeepsConfigurationAndMarks := by
  unfold Obligations.StepKeepsConfigurationAndMarks
  intro s t ht
  obtain ⟨hconfig, hshutdown, hrefused, hlog⟩ :=
    (monotone_persistent s).step (s := s) ⟨rfl, id, id, ⟨[], List.append_nil _⟩⟩ ht
  exact ⟨hconfig, hshutdown, hrefused, hlog⟩

/-! The state invariant without the phase. -/

/-- The state invariant but for the phase: what every atomic update keeps, where a FRAME passes
through phases in which no transaction starts. -/
structure DataInv (s : State) : Prop where
  config : configOk s.cfg
  registers : Memory.wf s.rf
  sizes : sizesOk s
  framebuffer : Image.wf (fbSize s) s.fb
  staging : Image.wf (s.cfg.maxW * s.cfg.maxH) s.st
  palette : s.pal.length = s.cfg.ncol
  handlers : Rising s.hstate
  indexPlane : Rising s.idx ∧ ∀ c ∈ s.idx, c.2 < s.cfg.ncol
  pointer : pointerOk s
  geometry : geometryFresh s

theorem stateInv_iff : StateInv s ↔ DataInv s ∧ phaseOk s := by
  constructor
  · rintro ⟨hc, hrf, hsz, hfb, hst, hpal, ⟨hh, hix⟩, hp, hg, hph⟩
    exact ⟨⟨hc, hrf, hsz, hfb, hst, hpal, hh, hix, hp, hg⟩, hph⟩
  · rintro ⟨⟨hc, hrf, hsz, hfb, hst, hpal, hh, hix, hp, hg⟩, hph⟩
    exact ⟨hc, hrf, hsz, hfb, hst, hpal, ⟨hh, hix⟩, hp, hg, hph⟩

theorem paletteOf_length (c : Config) (sys : List Byte) : (paletteOf c sys).length = c.ncol := by
  unfold paletteOf
  split <;> simp

theorem clampCoord_le (v : Word) (side : Half) : (clampCoord v side).toNat ≤ side.toNat := by
  rw [clampCoord_toNat]
  exact clampTo_le _ _

theorem DataInv.write (h : DataInv s) (a v : Byte) : DataInv (rfWrite s a v) :=
  { h with registers := Memory.write_wf h.registers a v }

/-- A pointer coordinate is clamped to a side of the framebuffer, and so to the capacity. -/
theorem DataInv.host (h : DataInv s) (a : HostStep) : DataInv (hostStep a s) := by
  cases a with
  | moveTo x y =>
    obtain ⟨-, -, hw, hh⟩ := h.sizes
    exact { h with pointer := ⟨(clampCoord_le x _).trans hw, (clampCoord_le y _).trans hh⟩ }
  | storeXHigh | storeXLow | storeYHigh | storeYLow | storeButtons => exact h.write _ _
  | press m | release m | requestStop => exact { h with }
  | noteResize => exact { h with geometry := nofun }

theorem toNat_ofNat_of_le_maxSide {n m : Nat} (hn : n ≤ m) (hm : m < 2 ^ 16) :
    (BitVec.ofNat 16 n).toNat = n := by
  rw [BitVec.toNat_ofNat, Nat.mod_eq_of_lt (by omega)]

/-- The sides of a legal configuration fit the size registers. -/
theorem sides_of_configOk {c : Config} (hc : configOk c) : c.maxW < 2 ^ 16 ∧ c.maxH < 2 ^ 16 := by
  obtain ⟨⟨-, -, -, -, -, -, -, hw, hh, -⟩, -⟩ := hc
  exact ⟨hw, hh⟩

theorem sizesOk_reallocate {w k : Nat} (hc : configOk s.cfg) (hw : w ≤ s.cfg.maxW)
    (hk : k ≤ s.cfg.maxH) (hwc : w % s.cfg.cell = 0) (hkc : k % s.cfg.cell = 0) :
    sizesOk (reallocate w k s) := by
  obtain ⟨hmaxW, hmaxH⟩ := sides_of_configOk hc
  simp only [sizesOk, reallocate_fbW, reallocate_fbH, reallocate_cfg,
    toNat_ofNat_of_le_maxSide hw hmaxW, toNat_ofNat_of_le_maxSide hk hmaxH]
  exact ⟨hwc, hkc, hw, hk⟩

/-- A new size within the capacity on the cell grid: the framebuffer is empty, and with RZ set
nothing is asked of the geometry. -/
theorem DataInv.reallocate {w k : Nat} (h : DataInv s) (hw : w ≤ s.cfg.maxW)
    (hk : k ≤ s.cfg.maxH) (hwc : w % s.cfg.cell = 0) (hkc : k % s.cfg.cell = 0) :
    DataInv (reallocate w k s) :=
  { h with
    sizes := sizesOk_reallocate h.config hw hk hwc hkc
    framebuffer := ⟨.nil, nofun⟩
    indexPlane := ⟨.nil, nofun⟩
    geometry := nofun }

theorem DataInv.convert (h : DataInv s) : DataInv (convert s) := by
  obtain ⟨-, -, hw, hh⟩ := h.sizes
  exact { h with staging := convert_st_wf hw hh h.staging }

/-- The geometry registers hold the framebuffer's size and no resize is pending (R160). -/
def withGeometry (s : State) : State :=
  { s with qw := s.fbW, qh := s.fbH, un := s.fbW, vn := s.fbH, rz := false }

theorem deriveGeometry_of_pending (h : s.rz = true) : deriveGeometry s = withGeometry s := by
  unfold deriveGeometry
  rw [if_pos h]
  rfl

theorem deriveGeometry_of_not_pending (h : s.rz = false) : deriveGeometry s = s := by
  unfold deriveGeometry
  rw [h]
  rfl

theorem DataInv.deriveGeometry (h : DataInv s) : DataInv (deriveGeometry s) := by
  by_cases hrz : s.rz = true
  · rw [deriveGeometry_of_pending hrz]
    exact { h with geometry := fun _ => ⟨rfl, rfl, rfl, rfl⟩ }
  · rwa [deriveGeometry_of_not_pending (Bool.eq_false_iff.mpr hrz)]

theorem hstateWrite_rising (h : Rising s.hstate) (slot : Nibble) (v : Nat) :
    Rising (hstateWrite slot v s).hstate := by
  unfold hstateWrite
  dsimp only
  split
  · exact cellErase_rising h _
  · exact cellPut_rising h _ _

theorem dataInv_persistent : Persistent DataInv where
  host a _ h := h.host a
  todo _ _ h := { h with }
  sched _ _ h := { h with }
  event _ _ h := { h with }
  mark _ h := { h with }
  store _ a v h := h.write a v
  pixel _ _ p hi h := { h with framebuffer := Image.put_wf h.framebuffer hi p }
  size _ _ _ hw hk hwc hkc h := h.reallocate hw hk hwc hkc
  palette sys s h := { h with palette := paletteOf_length s.cfg sys }
  handler slot v _ h := { h with handlers := hstateWrite_rising h.handlers slot v }
  blit _ h := h.convert
  geometry _ h := h.deriveGeometry
  staging _ h := { h with staging := ⟨.nil, nofun⟩ }
  phase _ _ h := { h with }
  nesting _ _ h := { h with }
  input _ _ h := { h with }

/-! The phase. -/

/-- The phase and whether an evaluation is in progress are left alone by HOST. -/
theorem phase_hostClosed (p : Phase) (b : Bool) :
    HostClosed fun s => s.ph = p ∧ s.evaluating = b where
  host h s hs := by cases h <;> exact hs
  todo _ _ hs := hs
  sched _ _ hs := hs

/-- They are left alone by every atomic update of a transaction other than BOOT and FRAME. -/
theorem phase_closed (p : Phase) (b : Bool) : Closed fun s => s.ph = p ∧ s.evaluating = b where
  poll hs := (phase_hostClosed p b).poll hs
  event _ _ _ hs := hs
  mark _ hs := hs
  store _ _ _ hs := hs
  pixel _ _ _ _ hs := hs
  size _ _ _ _ _ _ _ hs := hs
  palette _ _ hs := hs
  handler _ _ _ hs := hs

/-- Only BOOT and FRAME change the phase. -/
theorem exec_phase {i : Instr} (hi : simple i) (ht : exec i s = .next t) :
    t.ph = s.ph ∧ t.evaluating = s.evaluating := by
  refine (phase_closed s.ph s.evaluating).exec_simple (phase_hostClosed _ _) ?_ ?_ i hi.1 hi.2
    ⟨rfl, rfl⟩ ht
  · intro u _ hu
    simpa using hu
  · intro u _ hu
    simpa using hu

@[simp] theorem evaluate_evaluating (entry : Half) (n : Nat) (s : State) :
    (evaluate entry n s).evaluating = false := rfl

/-- An evaluation ends in the phase it began in. -/
@[simp] theorem evaluate_ph (entry : Half) (n : Nat) (s : State) :
    (evaluate entry n s).ph = s.ph := by
  have h : (nestedSteps n (callEvaluate entry s)).ph = s.ph :=
    ((phase_closed s.ph true).nestedSteps (phase_hostClosed _ _) (fun _ _ h => h) n
      (s := callEvaluate entry s) rfl ⟨rfl, rfl⟩).1
  rw [evaluate, returnEvaluate_ph, poll_ph, h]

@[simp] theorem presentFrame_ph (invalid : Bool) (s : State) :
    (presentFrame invalid s).ph = .idle := by
  rw [presentFrame_eq]
  split <;> rfl

@[simp] theorem presentFrame_evaluating (invalid : Bool) (s : State) :
    (presentFrame invalid s).evaluating = s.evaluating := by
  rw [presentFrame_eq]
  split <;> simp [rendered, uploaded]

/-- What follows an evaluation ends in IDLE. -/
theorem afterEvaluation_phase (evalFail invalid : Bool) (vec : Half) (s : State) :
    (afterEvaluation evalFail invalid vec s).ph = .idle ∧
      (afterEvaluation evalFail invalid vec s).evaluating = s.evaluating := by
  rcases afterEvaluation_cases evalFail invalid vec s with e | e | e <;> simp [e]

/-- BOOT, refused or not, leaves the phase alone or ends the evaluation in IDLE or FATAL. -/
theorem runBoot_phase (loadFail evalFail : Bool) (n : Word) (s : State) :
    ((runBoot loadFail evalFail n s).ph = s.ph ∧
      (runBoot loadFail evalFail n s).evaluating = s.evaluating) ∨
    (((runBoot loadFail evalFail n s).ph = .idle ∨ (runBoot loadFail evalFail n s).ph = .fatal) ∧
      (runBoot loadFail evalFail n s).evaluating = false) := by
  rcases runBoot_cases loadFail evalFail n s with ⟨r, e⟩ | ⟨he, -, -, e⟩
  · exact .inl (by simp [e])
  · rcases bootSteps_cases loadFail evalFail n.toNat (poll s) with b | b | b <;>
      exact .inr (by simp [e, b, he])

/-- FRAME, refused or not, leaves the phase alone, stops a run whose SD is set at the loop top, or
ends in IDLE. -/
theorem runFrame_phase (evalFail invalid : Bool) (n : Word) (s : State) :
    ((runFrame evalFail invalid n s).ph = s.ph ∧
      (runFrame evalFail invalid n s).evaluating = s.evaluating) ∨
    ((runFrame evalFail invalid n s).ph = .idle ∧
      (runFrame evalFail invalid n s).evaluating = false) ∨
    ((runFrame evalFail invalid n s).ph = .stopped ∧
      (runFrame evalFail invalid n s).evaluating = false ∧ s.evaluating = false ∧ s.ph = .idle ∧
      (poll s).sd = true ∧ evalFail = false ∧ invalid = false ∧ n = 0) := by
  rcases runFrame_cases evalFail invalid n s with ⟨r, e⟩ | ⟨he, hph, e⟩
  · exact .inl (by simp [e])
  · rcases frameSteps_cases evalFail invalid n (poll s) with ⟨r, f⟩ | ⟨hsd, h1, h2, h3, f⟩ | ⟨-, f⟩
    · exact .inl (by simp [e, f])
    · exact .inr (.inr ⟨by simp [e, f], by simp [e, f, he], he, hph, hsd, h1, h2, h3⟩)
    · obtain ⟨hp, hev⟩ := afterEvaluation_phase evalFail invalid (vectorCall n.toNat (poll s)).2
        (vectorCall n.toNat (poll s)).1
      exact .inr (.inl ⟨by rw [e, f, hp], by rw [e, f, hev]; rfl⟩)

theorem phaseOk_of_eq (h : phaseOk s) (hp : t.ph = s.ph ∧ t.evaluating = s.evaluating) :
    phaseOk t := by
  unfold phaseOk
  rwa [hp.1, hp.2]

theorem phaseOk_of_terminal_or_idle (he : t.evaluating = false)
    (hp : t.ph = .idle ∨ t.ph = .stopped ∨ t.ph = .fatal) : phaseOk t :=
  ⟨fun h => (Bool.eq_false_iff.mp he h).elim, fun _ => .inr hp⟩

theorem exec_keeps_phaseOk {i : Instr} (h : phaseOk s) (ht : exec i s = .next t) : phaseOk t := by
  cases i with
  | boot l e n =>
    cases ht
    rcases runBoot_phase l e n s with hp | ⟨hp, he⟩
    · exact phaseOk_of_eq h hp
    · exact phaseOk_of_terminal_or_idle he (hp.imp_right .inr)
  | frame e v n =>
    cases ht
    rcases runFrame_phase e v n s with hp | ⟨hp, he⟩ | ⟨hp, he, -⟩
    · exact phaseOk_of_eq h hp
    · exact phaseOk_of_terminal_or_idle he (.inl hp)
    · exact phaseOk_of_terminal_or_idle he (.inr (.inl hp))
  | _ => exact phaseOk_of_eq h (exec_phase ⟨by simp, by simp⟩ ht)

theorem step_keeps_phaseOk (h : phaseOk s) (ht : step s = .next t) : phaseOk t := by
  rcases step_cases ht with ⟨i, rest, -, hx⟩ | ⟨e, rfl⟩
  · exact exec_keeps_phaseOk (s := { s with input := rest }) h hx
  · exact h

/-- Settles O11: the data part is kept by every atomic update, the phase by every transaction as a
whole. -/
theorem stepKeepsTheInvariant : Obligations.StepKeepsTheInvariant := by
  unfold Obligations.StepKeepsTheInvariant
  intro s t hs ht
  obtain ⟨hdata, hphase⟩ := stateInv_iff.mp hs
  exact stateInv_iff.mpr ⟨dataInv_persistent.step hdata ht, step_keeps_phaseOk hphase ht⟩

/-- Settles O55: of all transactions only a FRAME enters STOPPED, and only at its loop top. -/
theorem onlyALoopTopStopsTheRun : Obligations.OnlyALoopTopStopsTheRun := by
  unfold Obligations.OnlyALoopTopStopsTheRun
  intro s t ht hs hp
  rcases step_cases ht with ⟨i, rest, hd, hx⟩ | ⟨e, rfl⟩
  · cases i with
    | boot l e n =>
      cases hx
      rcases runBoot_phase l e n { s with input := rest } with ⟨h, -⟩ | ⟨h | h, -⟩
      · exact absurd (h.symm.trans hp) hs
      · cases h.symm.trans hp
      · cases h.symm.trans hp
    | frame e v n =>
      cases hx
      rcases runFrame_phase e v n { s with input := rest } with
        ⟨h, -⟩ | ⟨h, -⟩ | ⟨-, -, he, hidle, hsd, rfl, rfl, rfl⟩
      · exact absurd (h.symm.trans hp) hs
      · cases h.symm.trans hp
      · exact ⟨rest, hd, he, hidle, hsd⟩
    | _ => exact absurd ((exec_phase ⟨by simp, by simp⟩ hx).1.symm.trans hp) hs
  · exact absurd hp hs

/-! Reset (R43). -/

theorem resetWith_dataInv {c : Config} (h : configOk c) : DataInv (State.resetWith c) := by
  obtain ⟨⟨-, -, -, hw, hh, hwle, hhle, -, -, -⟩, -⟩ := id h
  obtain ⟨hmaxW, hmaxH⟩ := sides_of_configOk h
  have hsizes : sizesOk (State.resetWith c) := by
    simp only [sizesOk, State.resetWith, toNat_ofNat_of_le_maxSide hwle hmaxW,
      toNat_ofNat_of_le_maxSide hhle hmaxH]
    exact ⟨hw, hh, hwle, hhle⟩
  exact
    { config := h
      registers := resetWith_rf_wf c
      sizes := hsizes
      framebuffer := ⟨.nil, nofun⟩
      staging := ⟨.nil, nofun⟩
      palette := by simp [State.resetWith]
      handlers := .nil
      indexPlane := ⟨.nil, nofun⟩
      pointer := ⟨Nat.zero_le _, Nat.zero_le _⟩
      geometry := nofun }

/-- Settles O10: the stores are empty, RZ is set, and a legal boot size is a legal size. -/
theorem invariantHoldsAtReset : Obligations.InvariantHoldsAtReset := by
  unfold Obligations.InvariantHoldsAtReset
  exact ⟨fun c h => stateInv_iff.mpr ⟨resetWith_dataInv h, nofun, fun _ => .inl rfl⟩, by decide⟩

/-- Settles O9: a store that lists nothing reads as its reset value or as a draw. -/
theorem resetLeavesTheSpecValues : Obligations.ResetLeavesTheSpecValues := by
  unfold Obligations.ResetLeavesTheSpecValues
  intro c h
  obtain ⟨hmaxW, hmaxH⟩ := sides_of_configOk h
  obtain ⟨⟨-, -, -, -, -, hwle, hhle, -⟩, -⟩ := h
  refine ⟨fun a => rfl, toNat_ofNat_of_le_maxSide hwle hmaxW,
    toNat_ofNat_of_le_maxSide hhle hmaxH, rfl, rfl, rfl, rfl, rfl, rfl, rfl, fun i => rfl,
    fun j => rfl, fun k hk => ?_, rfl, rfl, rfl, rfl⟩
  simp [State.resetWith, hk]

end Sys2Proof.Machine
end

section
/-! PROOFS. The presentation loop (spec 43_frame_sequencer): what an evaluation leaves alone, the
frame output as the permuted framebuffer, and the events each transaction hands to the observer. -/

namespace Sys2Proof.Machine

variable {s t u : State}

/-! Events. -/

/-- From the one state to the other the observer was handed events of plain transactions only: no
call, no phase change, no frame output. -/
def AddsEvents (s t : State) : Prop :=
  ∃ mid, t.log = s.log ++ mid ∧ ∀ e ∈ mid, e.ofTransaction = true

theorem AddsEvents.refl (s : State) : AddsEvents s s := ⟨[], by simp, by simp⟩

theorem AddsEvents.emit {e : Event} (he : e.ofTransaction = true) (h : AddsEvents s t) :
    AddsEvents s (emit e t) := by
  obtain ⟨mid, hlog, hmid⟩ := h
  refine ⟨mid ++ [e], by rw [emit_log, hlog, List.append_assoc], fun d hd => ?_⟩
  rcases List.mem_append.mp hd with hd | hd
  · exact hmid d hd
  · rwa [List.mem_singleton.mp hd]

theorem addsEvents_hostClosed (s : State) : HostClosed (AddsEvents s) where
  host h t ht := by cases h <;> exact ht
  todo _ _ ht := ht
  sched _ _ ht := ht

theorem addsEvents_closed (s : State) : Closed (AddsEvents s) where
  poll ht := (addsEvents_hostClosed s).poll ht
  event _ _ he ht := ht.emit he
  mark _ ht := ht
  store _ _ _ ht := ht
  pixel _ _ _ _ ht := ht
  size _ _ _ _ _ _ _ ht := ht
  palette _ _ ht := ht
  handler _ _ _ ht := ht

theorem exec_addsEvents {i : Instr} (hi : simple i) (ht : exec i s = .next t) : AddsEvents s t := by
  have hconvert : ∀ u, AddsEvents s u → AddsEvents s (convert (poll u)) := fun _ h =>
    (addsEvents_closed s).poll h
  have hderive : ∀ u, AddsEvents s u → AddsEvents s (deriveGeometry (poll u)) := by
    rintro u ⟨mid, hlog, hmid⟩
    exact ⟨mid, by simpa using hlog, hmid⟩
  exact (addsEvents_closed s).exec_simple (addsEvents_hostClosed s) (fun u _ => hconvert u)
    (fun u _ => hderive u) i hi.1 hi.2 (.refl s) ht

/-- From the one state to the other no frame output left the block. -/
def NoFrames (s t : State) : Prop := ∃ mid, t.log = s.log ++ mid ∧ ∀ out, .frame out ∉ mid

theorem NoFrames.refl (s : State) : NoFrames s s := ⟨[], by simp, by simp⟩

theorem NoFrames.trans (h : NoFrames s t) (h' : NoFrames t u) : NoFrames s u := by
  obtain ⟨mid, hlog, hmid⟩ := h
  obtain ⟨mid', hlog', hmid'⟩ := h'
  exact ⟨mid ++ mid', by rw [hlog', hlog, List.append_assoc], fun out ho =>
    (List.mem_append.mp ho).elim (hmid out) (hmid' out)⟩

theorem NoFrames.of_log {mid : List Event} (hlog : t.log = s.log ++ mid)
    (hmid : ∀ out, .frame out ∉ mid) : NoFrames s t := ⟨mid, hlog, hmid⟩

theorem AddsEvents.noFrames (h : AddsEvents s t) : NoFrames s t := by
  obtain ⟨mid, hlog, hmid⟩ := h
  exact ⟨mid, hlog, fun out ho => by cases hmid _ ho⟩

theorem NoFrames.not_mem_drop (h : NoFrames s t) (out : FrameOutput) :
    .frame out ∉ t.log.drop s.log.length := by
  obtain ⟨mid, hlog, hmid⟩ := h
  rw [hlog, List.drop_left]
  exact hmid out

/-! The evaluation. -/

/-- What an evaluation leaves alone, whatever is nested in it and however HOST interleaves: the
configuration, the staging image and the geometry (BLIT and GEOM do not nest, R99), and a resize or
a shutdown that is pending. -/
structure EvaluationFrame (s t : State) : Prop where
  config : t.cfg = s.cfg
  st : t.st = s.st
  stGen : t.stGen = s.stGen
  geometry : (t.qw, t.qh, t.un, t.vn) = (s.qw, s.qh, s.un, s.vn)
  pending : s.rz = true → t.rz = true
  shutdown : s.sd = true → t.sd = true

theorem EvaluationFrame.refl (s : State) : EvaluationFrame s s :=
  ⟨rfl, rfl, rfl, rfl, id, id⟩

theorem evaluationFrame_hostClosed (s : State) : HostClosed (EvaluationFrame s) where
  host h t f := by
    cases h with
    | noteResize => exact { f with pending := fun _ => rfl }
    | requestStop => exact { f with shutdown := fun _ => rfl }
    | _ => exact { f with }
  todo _ _ f := { f with }
  sched _ _ f := { f with }

theorem evaluationFrame_closed (s : State) : Closed (EvaluationFrame s) where
  poll f := (evaluationFrame_hostClosed s).poll f
  event _ _ _ f := { f with }
  mark _ f := { f with }
  store _ _ _ f := { f with }
  pixel _ _ _ _ f := { f with }
  size _ _ _ _ _ _ _ f := { f with pending := fun _ => rfl }
  palette _ _ f := { f with }
  handler _ _ _ f := { f with }

theorem EvaluationFrame.poll (f : EvaluationFrame s t) : EvaluationFrame s (poll t) :=
  (evaluationFrame_hostClosed s).poll f

theorem EvaluationFrame.evaluate (entry : Half) (n : Nat) (f : EvaluationFrame s t) :
    EvaluationFrame s (evaluate entry n t) :=
  (evaluationFrame_closed s).evaluate (evaluationFrame_hostClosed s) (fun _ _ f => { f with })
    { f with } fun _ f => { f with }

theorem EvaluationFrame.vectorCall (n : Nat) (f : EvaluationFrame s t) :
    EvaluationFrame s (vectorCall n t).1 :=
  .evaluate _ _ { f.poll.poll.poll with }

/-- The log of an evaluation: the call first, then events of plain transactions. -/
theorem evaluate_log (entry : Half) (n : Nat) (s : State) :
    ∃ mid, (evaluate entry n s).log = s.log ++ [.evaluate entry] ++ mid ∧
      ∀ e ∈ mid, e.ofTransaction = true :=
  (addsEvents_closed _).evaluate (addsEvents_hostClosed _) (fun _ _ h => h) (.refl _) fun _ h => h

theorem evaluate_noFrames (entry : Half) (n : Nat) (s : State) :
    NoFrames s (evaluate entry n s) := by
  obtain ⟨mid, hlog, hmid⟩ := evaluate_log entry n s
  have hcall : NoFrames s (callEvaluate entry s) := .of_log (callEvaluate_log entry s) (by simp)
  exact hcall.trans (AddsEvents.noFrames ⟨mid, hlog, hmid⟩)

/-- The log of the vector call: the phase EXEC, the call at the vector, events of plain transactions
(R203, R204). -/
theorem vectorCall_log (n : Nat) (s : State) :
    ∃ mid, (vectorCall n s).1.log =
        s.log ++ [.phase .exec, .evaluate (vectorCall n s).2] ++ mid ∧
      ∀ e ∈ mid, e.ofTransaction = true := by
  obtain ⟨mid, hlog, hmid⟩ := evaluate_log (vectorCall n s).2 n
    (setPhase .exec (poll (poll (poll s))))
  refine ⟨mid, ?_, hmid⟩
  have hcall : (vectorCall n s).1.log = _ := hlog
  rw [hcall]
  simp

/-! The frame output. -/

/-- The frame output of a framebuffer: its size as quad size and extents, its pixels permuted. -/
def permutedOutput (s : State) : FrameOutput where
  qw := s.fbW
  qh := s.fbH
  un := s.fbW
  vn := s.fbH
  img := (List.range s.fbH.toNat).map fun y =>
    (List.range s.fbW.toNat).map fun x => permute (fbRead s (fbIndex s x y))

theorem deriveGeometry_of_fresh (h : geometryFresh s) : deriveGeometry s = withGeometry s := by
  by_cases hrz : s.rz = true
  · exact deriveGeometry_of_pending hrz
  · have hrz : s.rz = false := Bool.eq_false_iff.mpr hrz
    obtain ⟨hqw, hqh, hun, hvn⟩ := h hrz
    rw [deriveGeometry_of_not_pending hrz]
    cases s
    simp_all [withGeometry]

/-- A pixel read depends on the framebuffer and its allocation only. -/
theorem fbRead_congr (hfb : t.fb = s.fb) (hgen : t.fbGen = s.fbGen) (i : Nat) :
    fbRead t i = fbRead s i := by
  unfold fbRead
  rw [hfb, hgen]

theorem stRead_congr (hst : t.st = s.st) (hgen : t.stGen = s.stGen) (j : Nat) :
    stRead t j = stRead s j := by
  unfold stRead
  rw [hst, hgen]

theorem permutedOutput_congr (hw : t.fbW = s.fbW) (hh : t.fbH = s.fbH) (hfb : t.fb = s.fb)
    (hgen : t.fbGen = s.fbGen) : permutedOutput t = permutedOutput s := by
  unfold permutedOutput fbIndex
  simp only [fbRead_congr hfb hgen, hw, hh]

theorem stRead_rendered (s : State) (j : Nat) :
    stRead (rendered s) j = stRead (convert (uploaded s)) j :=
  stRead_congr (by simp [rendered]) (by simp [rendered]) j

/-- The valid region of the rendered staging image is the permuted framebuffer. -/
theorem stRead_rendered_inside (hw : s.fbW.toNat ≤ s.cfg.maxW) (hst : Rising s.st) {x y : Nat}
    (hx : x < s.fbW.toNat) (hy : y < s.fbH.toNat) :
    stRead (rendered s) (stIndex s.cfg x y) = permute (fbRead s (fbIndex s x y)) := by
  have hread := stRead_convert_inside (s := uploaded s) (by simpa [uploaded] using hw)
    (by simpa [uploaded] using hst) (x := x) (y := y) (by simpa [uploaded] using hx)
    (by simpa [uploaded] using hy)
  have hcfg : (uploaded s).cfg = s.cfg := by simp [uploaded]
  have hindex : fbIndex (uploaded s) x y = fbIndex s x y := by simp [fbIndex, uploaded]
  rw [hcfg, hindex, fbRead_congr (s := s) (by simp [uploaded]) (by simp [uploaded])] at hread
  rw [stRead_rendered, hread]

/-- The rest of the rendered staging image is as it was. -/
theorem stRead_rendered_outside (hw : s.fbW.toNat ≤ s.cfg.maxW) (hst : Rising s.st) {j : Nat}
    (hj : ∀ x y, x < s.fbW.toNat → y < s.fbH.toNat → j ≠ stIndex s.cfg x y) :
    stRead (rendered s) j = stRead s j := by
  have hread := stRead_convert_outside (s := uploaded s) (by simpa [uploaded] using hw)
    (by simpa [uploaded] using hst) (j := j) (by simpa [uploaded] using hj)
  rw [stRead_rendered, hread]
  exact stRead_congr (by simp [uploaded]) (by simp [uploaded]) j

/-- What a frame hands out is the permuted framebuffer, when the geometry it finds is fresh. -/
theorem frameOutput_rendered (hw : s.fbW.toNat ≤ s.cfg.maxW) (hst : Rising s.st)
    (hg : geometryFresh (poll s)) : frameOutput (rendered s) = permutedOutput s := by
  have hun : (rendered s).un = s.fbW := by
    simp [rendered, uploaded, deriveGeometry_of_fresh hg, withGeometry]
  have hvn : (rendered s).vn = s.fbH := by
    simp [rendered, uploaded, deriveGeometry_of_fresh hg, withGeometry]
  have hcfg : (rendered s).cfg = s.cfg := by simp [rendered, uploaded]
  unfold frameOutput permutedOutput
  rw [FrameOutput.mk.injEq]
  refine ⟨?_, ?_, hun, hvn, ?_⟩
  · simp [rendered, uploaded, deriveGeometry_of_fresh hg, withGeometry]
  · simp [rendered, uploaded, deriveGeometry_of_fresh hg, withGeometry]
  · rw [hun, hvn, hcfg]
    refine List.map_congr_left fun y hy => List.map_congr_left fun x hx => ?_
    exact stRead_rendered_inside hw hst (List.mem_range.mp hx) (List.mem_range.mp hy)

@[simp] theorem rendered_log (s : State) :
    (rendered s).log = s.log ++ [.phase .upload, .phase .render] := by
  simp [rendered, uploaded]

/-- The events of a frame after its evaluation (R205 to R210). -/
theorem presentFrame_log (invalid : Bool) (s : State) :
    (presentFrame invalid s).log = s.log ++ [.phase .upload, .phase .render, .phase .present,
      if invalid then .raised .swapchainInvalidated else .frame (frameOutput (rendered s)),
      .phase .idle] := by
  rw [presentFrame_eq]
  cases invalid <;> simp

/-- A frame leaves the framebuffer as its evaluation left it. -/
theorem presentFrame_framebuffer (invalid : Bool) (s : State) :
    (presentFrame invalid s).fbW = s.fbW ∧ (presentFrame invalid s).fbH = s.fbH ∧
      (presentFrame invalid s).fb = s.fb ∧ (presentFrame invalid s).fbGen = s.fbGen := by
  rw [presentFrame_eq]
  split <;> simp [rendered, uploaded]

theorem vectorCall_noFrames (n : Nat) (s : State) : NoFrames s (vectorCall n s).1 := by
  obtain ⟨mid, hlog, hmid⟩ := vectorCall_log n s
  refine ⟨_, hlog.trans (List.append_assoc _ _ _), fun out ho => ?_⟩
  rcases List.mem_append.mp ho with ho | ho
  · simp at ho
  · cases hmid _ ho

theorem runBoot_noFrames (loadFail evalFail : Bool) (n : Word) (s : State) :
    NoFrames s (runBoot loadFail evalFail n s) := by
  have heval := evaluate_noFrames (poll s).cfg.origin n.toNat (poll s)
  have hpoll : NoFrames s (poll s) := .of_log (mid := []) (by simp) (by simp)
  rcases runBoot_cases loadFail evalFail n s with ⟨r, e⟩ | ⟨-, -, -, e⟩
  · exact .of_log (by rw [e, refuse_log]) (by simp)
  · rcases bootSteps_cases loadFail evalFail n.toNat (poll s) with b | b | b <;> rw [e, b]
    · exact .of_log (mid := [.raised .bootLoadFail, .phase .fatal]) (by simp) (by simp)
    · exact (hpoll.trans heval).trans
        (.of_log (mid := [.raised .bootEvalFail, .phase .fatal]) (by simp) (by simp))
    · exact (hpoll.trans heval).trans (.of_log (setPhase_log _ _) (by simp))

/-- A FRAME hands out no frame output, or presents a state that meets the invariant. -/
theorem runFrame_frames (h : DataInv s) (evalFail invalid : Bool) (n : Word) :
    NoFrames s (runFrame evalFail invalid n s) ∨
    ∃ u, DataInv u ∧ NoFrames s u ∧ runFrame evalFail invalid n s = presentFrame false u := by
  have hpoll : NoFrames s (poll s) := .of_log (mid := []) (by simp) (by simp)
  rcases runFrame_cases evalFail invalid n s with ⟨r, e⟩ | ⟨-, -, e⟩
  · exact .inl (.of_log (by rw [e, refuse_log]) (by simp))
  have hcall := hpoll.trans (vectorCall_noFrames n.toNat (poll s))
  have hinv := dataInv_persistent.vectorCall n.toNat (dataInv_persistent.poll h)
  have hpresent : ∀ u, DataInv u → NoFrames s u → NoFrames s (presentFrame invalid u) ∨
      ∃ u', DataInv u' ∧ NoFrames s u' ∧ presentFrame invalid u = presentFrame false u' := by
    intro u hu hs
    cases invalid
    · exact .inr ⟨u, hu, hs, rfl⟩
    · exact .inl (hs.trans (.of_log (presentFrame_log true u) (by simp)))
  rcases frameSteps_cases evalFail invalid n (poll s) with ⟨r, f⟩ | ⟨-, -, -, -, f⟩ | ⟨-, f⟩ <;>
    rw [e, f]
  · exact .inl (hpoll.trans (.of_log (refuse_log _ _) (by simp)))
  · exact .inl (hpoll.trans (.of_log (setPhase_log _ _) (by simp)))
  · have hraise : NoFrames s (raise (.frameEvalFail (vectorCall n.toNat (poll s)).2)
        (vectorCall n.toNat (poll s)).1) :=
      hcall.trans (.of_log (raise_log _ _) (by simp))
    rcases afterEvaluation_cases evalFail invalid (vectorCall n.toNat (poll s)).2
      (vectorCall n.toNat (poll s)).1 with a | a | a <;> rw [a]
    · exact .inl (hraise.trans (.of_log (setPhase_log _ _) (by simp)))
    · exact hpresent _ (dataInv_persistent.event _ _ hinv) hraise
    · exact hpresent _ hinv hcall

/-- Settles O51: only a FRAME that presents hands a frame output out, the state it presents meets
the data part of the invariant, and presenting leaves the framebuffer alone. -/
theorem everyFrameOutputIsThePermutedFramebuffer :
    Obligations.EveryFrameOutputIsThePermutedFramebuffer := by
  unfold Obligations.EveryFrameOutputIsThePermutedFramebuffer
  intro s t out hs ht hout
  have hinv : DataInv s := (stateInv_iff.mp hs).1
  suffices h : out = permutedOutput t by
    rw [h]
    exact ⟨rfl, rfl, rfl, rfl, rfl⟩
  rcases step_cases ht with ⟨i, rest, -, hx⟩ | ⟨e, rfl⟩
  case inr =>
    have hno : NoFrames s (refuse (.reservedDescriptor e) (advance s)) :=
      .of_log (refuse_log _ _) (by simp)
    exact absurd hout (hno.not_mem_drop out)
  let r : State := { s with input := rest }
  have hr : DataInv r := dataInv_persistent.input _ _ hinv
  cases i with
  | boot l e n =>
    cases hx
    exact absurd hout ((runBoot_noFrames l e n r).not_mem_drop out)
  | frame e v n =>
    cases hx
    rcases runFrame_frames hr e v n with hno | ⟨u, hu, ⟨mid, hlog, hmid⟩, he⟩
    · exact absurd hout (hno.not_mem_drop out)
    · have hmem : .frame out ∈ (presentFrame false u).log.drop r.log.length := he ▸ hout
      rw [presentFrame_log, hlog, List.append_assoc, List.drop_left] at hmem
      have heq : out = frameOutput (rendered u) := by
        rcases List.mem_append.mp hmem with hmem | hmem
        · exact absurd hmem (hmid out)
        · simpa using hmem
      obtain ⟨-, -, hw, -⟩ := hu.sizes
      obtain ⟨e1, e2, e3, e4⟩ := presentFrame_framebuffer false u
      rw [he, heq, frameOutput_rendered hw hu.staging.1 (dataInv_persistent.poll hu).geometry,
        permutedOutput_congr e1 e2 e3 e4]
  | _ => exact absurd hout ((exec_addsEvents ⟨by simp, by simp⟩ hx).noFrames.not_mem_drop out)

end Sys2Proof.Machine
end

section
/-! PROOFS. Where a transaction is refused (spec 43_frame_sequencer R200, R202, R215): BOOT and
FRAME out of place, the end of a run, the top level without a test bench, and the nested
descriptors. -/

namespace Sys2Proof.Machine

variable {s t : State}

theorem refuse_eq (r : RefuseReason) (s : State) :
    refuse r s = { s with refused := true, log := s.log ++ [.refusal r] } := rfl

theorem setPhase_eq (p : Phase) (s : State) :
    setPhase p s = { s with ph := p, log := s.log ++ [.phase p] } := rfl

/-! BOOT and FRAME, admitted or not. -/

theorem exec_boot (loadFail evalFail : Bool) (n : Word) (s : State) :
    exec (.boot loadFail evalFail n) s = .next (runBoot loadFail evalFail n s) := rfl

theorem exec_frame (evalFail invalid : Bool) (n : Word) (s : State) :
    exec (.frame evalFail invalid n) s = .next (runFrame evalFail invalid n s) := rfl

/-- FRAME at the top level in IDLE, its answers in agreement: what it then does begins after the
HOST steps that are due (R202). -/
theorem exec_frame_of_admitted (he : s.evaluating = false) (hph : s.ph = .idle)
    {evalFail invalid : Bool} (hok : ¬frameAnswersClash s.cfg evalFail invalid) (n : Word) :
    exec (.frame evalFail invalid n) s = .next (frameSteps evalFail invalid n (poll s)) := by
  rw [exec_frame, runFrame, if_neg (Bool.eq_false_iff.mp he), if_neg (not_not_intro hph),
    if_neg hok]

theorem frameSteps_of_shutdown (h : s.sd = true) :
    frameSteps false false 0 s = setPhase .stopped s := by
  rw [frameSteps, if_pos h, if_neg (by simp)]

theorem frameSteps_of_running (h : s.sd = false) {n : Word} (ht : traceHolds n.toNat s)
    (evalFail invalid : Bool) :
    frameSteps evalFail invalid n s =
      afterEvaluation evalFail invalid (vectorCall n.toNat s).2 (vectorCall n.toNat s).1 := by
  rw [frameSteps, if_neg (Bool.eq_false_iff.mp h), if_neg (not_not_intro ht)]

/-- Settles O48: each check of BOOT and FRAME, in the order in which they are made. -/
theorem sequencerTransactionsOutOfPlaceAreRefused :
    Obligations.SequencerTransactionsOutOfPlaceAreRefused := by
  unfold Obligations.SequencerTransactionsOutOfPlaceAreRefused
  refine ⟨?bootPhase, ?framePhase, ?frameClash, ?frameShutdown, ?bootClash, ?bootShort,
    ?frameShort⟩
  case bootPhase =>
    intro s l e n he hph
    rw [exec_boot, runBoot, if_neg (Bool.eq_false_iff.mp he), if_pos hph, refuse_eq]
  case framePhase =>
    intro s e v n he hph
    rw [exec_frame, runFrame, if_neg (Bool.eq_false_iff.mp he), if_pos hph, refuse_eq]
  case frameClash =>
    intro s n he hph hpolicy
    rw [exec_frame, runFrame, if_neg (Bool.eq_false_iff.mp he), if_neg (not_not_intro hph),
      if_pos ⟨rfl, rfl, hpolicy⟩, refuse_eq]
  case frameShutdown =>
    intro s e v n hq he hph hsd hanswer
    by_cases hclash : frameAnswersClash s.cfg e v
    · rw [exec_frame, runFrame, if_neg (Bool.eq_false_iff.mp he), if_neg (not_not_intro hph),
        if_pos hclash, refuse_eq]
    · rw [exec_frame_of_admitted he hph hclash, poll_quiet hq, frameSteps, if_pos hsd,
        if_pos hanswer, refuse_eq]
  case bootClash =>
    rintro s l e n he hph ⟨rfl, hanswer⟩
    have hwf : ¬(Instr.boot true e n).wellFormed = true := by
      rcases hanswer with rfl | hn
      · simp [Instr.wellFormed, bootAnswersAgree]
      · simpa [Instr.wellFormed, bootCountAgrees] using fun _ => hn
    rw [exec_boot, runBoot, if_neg (Bool.eq_false_iff.mp he), if_neg (not_not_intro hph),
      if_pos hwf, refuse_eq]
  case bootShort =>
    intro s e n he hph ht
    have hwf : (Instr.boot false e n).wellFormed = true := rfl
    rw [exec_boot, runBoot, if_neg (Bool.eq_false_iff.mp he), if_neg (not_not_intro hph),
      if_neg (not_not_intro hwf), if_pos ht, refuse_eq]
  case frameShort =>
    intro s e v n he hph hsd hok ht
    have hshort : ¬traceHolds n.toNat (poll s) := by simpa only [traceHolds, poll_input] using ht
    rw [exec_frame_of_admitted he hph hok, frameSteps, if_neg (Bool.eq_false_iff.mp hsd),
      if_pos hshort, refuse_eq, poll_log]

/-- Settles O49: the loop top looks at SD after the HOST steps that are due and before all else. -/
theorem frameStopsAtTheLoopTop : Obligations.FrameStopsAtTheLoopTop := by
  unfold Obligations.FrameStopsAtTheLoopTop
  intro s he hph hsd
  rw [exec_frame_of_admitted he hph (by simp [frameAnswersClash]), frameSteps_of_shutdown hsd,
    setPhase_eq, poll_log]

/-! Where nothing is admitted. -/

/-- A transaction of SEQ that is refused for its place in the run. -/
theorem exec_seq_of_not_admitted {i : Instr} (hi : simple i) (hseq : issuer i = .seq)
    (he : ¬evaluationAdmits s) (hb : ¬benchAdmits s) :
    exec i s = .next (refuse .notAdmitted s) := by
  have heval : decide (evaluationAdmits s) = false := decide_eq_false he
  have hbench : decide (benchAdmits s) = false := decide_eq_false hb
  cases i with
  | pin | pout | push | peek | resize | fbwr =>
    exact congrArg Host.Outcome.next (admitted_not heval _ s)
  | blit | geom => exact congrArg Host.Outcome.next (admitted_not hbench _ s)
  | boot l e n => exact absurd rfl (hi.1 l e n)
  | frame e v n => exact absurd rfl (hi.2 e v n)
  | rnote | pmove | bdown | bup | stop => cases hseq

/-- Settles O58: at the top level every admission of SEQ's transactions asks for the test bench. -/
theorem topLevelAdmitsNoComponentTransaction :
    Obligations.TopLevelAdmitsNoComponentTransaction := by
  unfold Obligations.TopLevelAdmitsNoComponentTransaction
  intro s i he hbench hi hseq
  rw [exec_seq_of_not_admitted hi hseq (by simp [evaluationAdmits, benchPhase, he, hbench])
    (by simp [benchAdmits, benchPhase, hbench]), refuse_eq]

/-- After the end of a run every transaction is refused (R215, R216). -/
theorem exec_of_terminal (h : terminal s.ph) (i : Instr) :
    ∃ r, exec i s = .next (refuse r s) := by
  have heval : ¬evaluationAdmits s := by
    rcases h with h | h <;> simp [evaluationAdmits, benchPhase, h]
  have hbench : ¬benchAdmits s := by rcases h with h | h <;> simp [benchAdmits, benchPhase, h]
  have hhost : decide (hostAdmits s) = false := by
    rcases h with h | h <;> simp [hostAdmits, h]
  cases i with
  | boot l e n =>
    rcases runBoot_cases l e n s with ⟨r, eq⟩ | ⟨-, hph, -⟩
    · exact ⟨r, congrArg Host.Outcome.next eq⟩
    · simp [terminal, hph] at h
  | frame e v n =>
    rcases runFrame_cases e v n s with ⟨r, eq⟩ | ⟨-, hph, -⟩
    · exact ⟨r, congrArg Host.Outcome.next eq⟩
    · simp [terminal, hph] at h
  | rnote | pmove | bdown | bup | stop =>
    exact ⟨_, congrArg Host.Outcome.next (admitted_not hhost _ s)⟩
  | _ => exact ⟨_, exec_seq_of_not_admitted ⟨by simp, by simp⟩ rfl heval hbench⟩

/-- Settles O56: a step consumes nine bytes and refuses, a reserved descriptor as any other. -/
theorem terminalPhasesAdmitNothing : Obligations.TerminalPhasesAdmitNothing := by
  unfold Obligations.TerminalPhasesAdmitNothing
  intro s t h ht
  rcases step_cases ht with ⟨i, rest, hd, hx⟩ | ⟨e, rfl⟩
  · obtain rfl := rest_of_decode hd
    obtain ⟨r, hr⟩ := exec_of_terminal (s := { s with input := s.input.drop 9 }) h i
    rw [hr] at hx
    cases hx
    rfl
  · rfl

/-! Nested descriptors. -/

/-- While an evaluation is in progress every transaction does at the top of the trace what it does
nested (R99). -/
theorem exec_of_evaluating (h : s.evaluating = true) (i : Instr) :
    exec i s = .next (runNested i s) := by
  cases i with
  | boot l e n => rw [exec_boot, runBoot, if_pos h]; rfl
  | frame e v n => rw [exec_frame, runFrame, if_pos h]; rfl
  | _ => rfl

theorem runBlit_of_not_admitted (h : ¬benchAdmits s) : runBlit s = refuse .notAdmitted s :=
  admitted_not (decide_eq_false h) _ s

theorem runGeom_of_not_admitted (h : ¬benchAdmits s) : runGeom s = refuse .notAdmitted s :=
  admitted_not (decide_eq_false h) _ s

/-- Settles O59: nested, BLIT and GEOM fail their own admission, BOOT and FRAME are refused as
sequencer transactions, and every other transaction is `exec`'s. -/
theorem sequencerTransactionsDoNotNest : Obligations.SequencerTransactionsDoNotNest := by
  unfold Obligations.SequencerTransactionsDoNotNest
  refine ⟨fun s i rest he hd => ?transaction, fun s e hd he => ?reserved⟩
  case reserved =>
    unfold nestedStep
    rw [fetch_of_reject hd he]
    rfl
  case transaction =>
    rw [nestedStep_of_decode hd]
    have hexec := exec_of_evaluating (s := { s with input := rest }) he i
    refine ⟨hexec, ?bench, ?sequencer⟩
    case bench =>
      have hno : ¬benchAdmits { s with input := rest } := not_benchAdmits_of_evaluating he
      rintro (rfl | rfl)
      · exact runBlit_of_not_admitted hno
      · exact runGeom_of_not_admitted hno
    case sequencer =>
      rintro (⟨l, e, n, rfl⟩ | ⟨e, v, n, rfl⟩) <;> rfl

end Sys2Proof.Machine
end

section
/-! PROOFS. Evaluations (spec 43_frame_sequencer R200 to R212, 30_encoding R99): how the nested
descriptors are taken from the trace, and BOOT and FRAME around them. -/

namespace Sys2Proof.Machine

variable {s t : State}

/-! The trace. -/

theorem input_hostClosed (l : List Byte) : HostClosed fun s => s.input = l where
  host h s hs := by cases h <;> exact hs
  todo _ _ hs := hs
  sched _ _ hs := hs

theorem input_closed (l : List Byte) : Closed fun s => s.input = l where
  poll hs := (input_hostClosed l).poll hs
  event _ _ _ hs := hs
  mark _ hs := hs
  store _ _ _ hs := hs
  pixel _ _ _ _ hs := hs
  size _ _ _ _ _ _ _ hs := hs
  palette _ _ hs := hs
  handler _ _ _ hs := hs

theorem runNested_input (i : Instr) (he : s.evaluating = true) :
    (runNested i s).input = s.input :=
  (input_closed s.input).runNested (input_hostClosed _) i he rfl

theorem nestedStep_evaluating (he : s.evaluating = true) : (nestedStep s).evaluating = true :=
  (closed_evaluating true).nestedStep (host_evaluating true) (fun _ _ h => h) he he

/-- Only a trace that ends is truncated: no format rejects a descriptor under that name. -/
theorem decodeDescriptor_ne_truncated (td : Descriptor) :
    decodeDescriptor td ≠ .reject .truncated := by
  unfold decodeDescriptor
  split
  case h_1 | h_4 => unfold decodeA; split <;> simp
  case h_2 | h_3 => unfold decodeAV; split <;> simp
  case h_5 | h_6 | h_10 | h_16 => simp
  case h_7 | h_8 | h_9 | h_15 => unfold decodeZ; split <;> simp
  case h_11 | h_12 => unfold decodeU; split <;> simp
  case h_13 | h_14 =>
    unfold decodeN
    split
    · split <;> simp
    · simp

/-- Nine bytes are a whole descriptor, reserved or not. -/
theorem length_of_decode_truncated {bytes : List Byte} (h : decode bytes = .reject .truncated) :
    bytes.length < 9 := by
  match bytes, h with
  | b0 :: b1 :: b2 :: b3 :: b4 :: b5 :: b6 :: b7 :: b8 :: rest, h =>
    exfalso
    unfold decode at h
    dsimp only at h
    split at h
    · cases h
    · rename_i e he
      cases h
      exact decodeDescriptor_ne_truncated _ he
  | [], _ | [_], _ | [_, _], _ | [_, _, _], _ | [_, _, _, _], _ | [_, _, _, _, _], _
  | [_, _, _, _, _, _], _ | [_, _, _, _, _, _, _], _ | [_, _, _, _, _, _, _, _], _ => simp

/-- A nested descriptor is consumed whole (R99). -/
theorem nestedStep_input (he : s.evaluating = true) (h : 9 ≤ s.input.length) :
    (nestedStep s).input = s.input.drop 9 := by
  unfold nestedStep
  rcases fetch_cases s with ⟨i, rest, hd, hf⟩ | ⟨e, -, -, hf⟩ | ⟨hd, -⟩
  · rw [hf, ← rest_of_decode hd]
    exact runNested_input (s := { s with input := rest }) i he
  · rw [hf]
    rfl
  · exact absurd h (by simpa using length_of_decode_truncated hd)

theorem nestedSteps_input (n : Nat) (he : s.evaluating = true) (h : traceHolds n s) :
    (nestedSteps n s).input = s.input.drop (9 * n) := by
  induction n generalizing s with
  | zero => rfl
  | succ n ih =>
    have hstep := nestedStep_input he (by unfold traceHolds at h; omega)
    rw [nestedSteps_succ, ih (nestedStep_evaluating he) (by
      rw [traceHolds, hstep, List.length_drop]; unfold traceHolds at h; omega), hstep,
      List.drop_drop, show 9 + 9 * n = 9 * (n + 1) by ring]

theorem evaluate_input (entry : Half) {n : Nat} (h : traceHolds n s) :
    (evaluate entry n s).input = s.input.drop (9 * n) := by
  rw [evaluate, returnEvaluate_input, poll_input]
  exact nestedSteps_input (s := callEvaluate entry s) n rfl h

theorem encodeBytes_length (i : Instr) : (encodeBytes i).length = 9 := rfl

theorem flatMap_encodeBytes_length (l : List Instr) :
    (l.flatMap encodeBytes).length = 9 * l.length := by
  induction l with
  | nil => rfl
  | cons i r ih =>
    rw [List.flatMap_cons, List.length_append, encodeBytes_length, ih, List.length_cons]
    ring

theorem wellFormed_of_simple {i : Instr} (h : simple i) : i.wellFormed = true := by
  cases i with
  | boot l e n => exact absurd rfl (h.1 l e n)
  | _ => rfl

/-- A trace that begins with the encodings of plain transactions: the nested descriptors are those
transactions, each run by `exec` in its turn, and the trace after them is left over. -/
theorem execAll_eq_nestedSteps {nested : List Instr} {rest : List Byte}
    (hs : ∀ i ∈ nested, simple i) (he : s.evaluating = true)
    (hin : s.input = nested.flatMap encodeBytes ++ rest) :
    execAll nested s = some (nestedSteps nested.length s) ∧
      (nestedSteps nested.length s).input = rest := by
  induction nested generalizing s with
  | nil => exact ⟨rfl, hin⟩
  | cons i r ih =>
    have hi : simple i := hs i (by simp)
    rw [List.flatMap_cons, List.append_assoc] at hin
    have hd : decode s.input = .ok i (r.flatMap encodeBytes ++ rest) := by
      rw [hin, decode_encodeBytes (wellFormed_of_simple hi)]
    have hrest := rest_of_decode hd
    have hstep := nestedStep_of_decode hd
    have hexec := exec_eq_runNested i hi.1 hi.2 { s with input := s.input.drop 9 }
    rw [← hrest, ← hstep] at hexec
    have hinput : (nestedStep s).input = r.flatMap encodeBytes ++ rest := by
      rw [hstep]
      exact runNested_input (s := { s with input := _ }) i he
    obtain ⟨hall, hlast⟩ := ih (fun j hj => hs j (by simp [hj])) (nestedStep_evaluating he) hinput
    refine ⟨?_, hlast⟩
    rw [execAll, ← hrest, hexec]
    exact hall

/-- The trace holds the descriptors whose encodings it begins with. -/
theorem traceHolds_of_flatMap {nested : List Instr} {rest : List Byte}
    (hin : s.input = nested.flatMap encodeBytes ++ rest) : traceHolds nested.length s := by
  rw [traceHolds, hin, List.length_append, flatMap_encodeBytes_length]
  omega

theorem toNat_ofNat_length {nested : List Instr} (h : nested.length < 2 ^ 32) :
    (BitVec.ofNat 32 nested.length).toNat = nested.length := by
  rw [BitVec.toNat_ofNat, Nat.mod_eq_of_lt h]

/-! BOOT. -/

theorem returnEvaluate_of_not_evaluating (h : s.evaluating = false) : returnEvaluate s = s := by
  rw [returnEvaluate, ← h]

/-- An evaluation with nothing nested and HOST silent is the call alone. -/
theorem evaluate_zero (hq : quiet s) (he : s.evaluating = false) (entry : Half) :
    evaluate entry 0 s = { s with log := s.log ++ [.evaluate entry] } := by
  have hret := returnEvaluate_of_not_evaluating (s := emit (.evaluate entry) s) he
  calc evaluate entry 0 s
      = returnEvaluate (callEvaluate entry s) := by
        rw [evaluate, nestedSteps, poll_quiet (s := callEvaluate entry s) hq]
    _ = returnEvaluate (emit (.evaluate entry) s) := rfl
    _ = emit (.evaluate entry) s := hret

theorem bootSteps_ok (n : Nat) (s : State) :
    bootSteps false false n s = setPhase .idle (evaluate s.cfg.origin n s) := rfl

theorem bootSteps_evalFail (n : Nat) (s : State) :
    bootSteps false true n s =
      setPhase .fatal (raise .bootEvalFail (evaluate s.cfg.origin n s)) := rfl

theorem callEvaluate_origin_poll (s : State) :
    callEvaluate (poll s).cfg.origin (poll s) = { poll s with
      evaluating := true
      log := s.log ++ [.evaluate s.cfg.origin] } := by
  rw [poll_cfg, ← poll_log s]
  rfl

/-- The state in which an evaluation returns, as the state its last nested transaction left. -/
theorem evaluate_eq_of_input {nested : List Instr} {rest : List Byte} (entry : Half)
    (hs : ∀ i ∈ nested, simple i) (hin : s.input = nested.flatMap encodeBytes ++ rest) :
    ∃ u, execAll nested (callEvaluate entry s) = some u ∧
      u = nestedSteps nested.length (callEvaluate entry s) ∧
      evaluate entry nested.length s = { poll u with
        evaluating := false, input := rest, log := u.log } := by
  obtain ⟨hall, hrest⟩ := execAll_eq_nestedSteps (s := callEvaluate entry s) hs rfl hin
  refine ⟨_, hall, rfl, ?_⟩
  rw [evaluate, returnEvaluate]
  conv => rhs; rw [← hrest, ← poll_input, ← poll_log]

/-- Settles O45: BOOT is its evaluation and the way into IDLE, and the evaluation runs the encoded
transactions one by one. -/
theorem bootReachesIdle : Obligations.BootReachesIdle := by
  unfold Obligations.BootReachesIdle
  refine ⟨fun s n he hph ht => ?anyCount, fun s hq he hph => ?nothingNested,
    fun s nested rest he hph hs hlen hin => ?nestedList⟩
  case anyCount =>
    have hrun := exec_boot_of_admitted he hph (loadFail := false) (evalFail := false) rfl ht
    obtain ⟨mid, hlog, -⟩ := evaluate_log (poll s).cfg.origin n.toNat (poll s)
    have f := ((EvaluationFrame.refl s).poll).evaluate (poll s).cfg.origin n.toNat
    have hinput := evaluate_input (s := poll s) (poll s).cfg.origin (n := n.toNat)
      (by simpa only [traceHolds, poll_input] using ht)
    refine ⟨_, hrun, rfl, rfl, ?_, ?_, ?_, f.st, f.stGen, f.geometry⟩
    · rw [bootSteps_ok, setPhase_input, hinput, poll_input]
    · rw [bootSteps_ok, setPhase_log, hlog, poll_log, poll_cfg, List.append_assoc]
      exact ⟨_, rfl⟩
    · rw [bootSteps_ok, setPhase_log, List.getLast?_concat]
  case nothingNested =>
    rw [exec_boot_of_admitted he hph (loadFail := false) (evalFail := false) rfl (Nat.zero_le _),
      poll_quiet hq, bootSteps_ok]
    change Host.Outcome.next (setPhase .idle (evaluate _ 0 s)) = _
    rw [evaluate_zero hq he, setPhase_eq]
    simp
  case nestedList =>
    obtain ⟨u, hall, -, heval⟩ := evaluate_eq_of_input (s := poll s) (poll s).cfg.origin hs
      (by rw [poll_input, hin])
    refine ⟨u, _, ?_, exec_boot_of_admitted he hph rfl ?_, ?_⟩
    · rw [← callEvaluate_origin_poll, hall]
    · rw [toNat_ofNat_length hlen]
      exact traceHolds_of_flatMap hin
    · rw [toNat_ofNat_length hlen, bootSteps_ok, heval]
      rfl

/-- Settles O47: the same evaluation, followed by X2 and the way into FATAL. -/
theorem bootEvaluationFailureIsFatal : Obligations.BootEvaluationFailureIsFatal := by
  unfold Obligations.BootEvaluationFailureIsFatal
  refine ⟨fun s n he hph ht => ?anyCount, fun s nested rest he hph hs hlen hin => ?nestedList⟩
  case anyCount =>
    obtain ⟨mid, hlog, -⟩ := evaluate_log (poll s).cfg.origin n.toNat (poll s)
    refine ⟨_, mid, exec_boot_of_admitted he hph rfl ht, rfl, rfl, ?_⟩
    rw [bootSteps_evalFail, setPhase_log, raise_log, hlog, poll_log, poll_cfg, List.append_assoc]
    rfl
  case nestedList =>
    obtain ⟨u, hall, -, heval⟩ := evaluate_eq_of_input (s := poll s) (poll s).cfg.origin hs
      (by rw [poll_input, hin])
    refine ⟨u, _, ?_, exec_boot_of_admitted he hph rfl ?_, ?_⟩
    · rw [← callEvaluate_origin_poll, hall]
    · rw [toNat_ofNat_length hlen]
      exact traceHolds_of_flatMap hin
    · rw [toNat_ofNat_length hlen, bootSteps_evalFail, heval, setPhase_raise]

end Sys2Proof.Machine
end

section
/-! PROOFS. HOST's transactions (spec 42_input_router, 20_memory R75): what each does when HOST is
prompt, a PMOVE that is torn, and what HOST and SEQ leave alone of one another's state. -/

namespace Sys2Proof.Machine

variable {s t : State}

/-! HOST's transactions as their steps. -/

/-- The atomic steps of a transaction of HOST (R180, R184, R185, R158, R214). -/
def hostSteps (c : Config) : Instr → List HostStep
  | .rnote => [.noteResize]
  | .pmove x y => moveSteps x y
  | .bdown id => pressSteps c id
  | .bup id => releaseSteps c id
  | .stop => [.requestStop]
  | _ => []

theorem exec_host {i : Instr} (hi : issuer i = .host) (s : State) :
    exec i s =
      .next (admitted (decide (hostAdmits s)) (issueHost (hostSteps s.cfg i)) s) := by
  cases i with
  | rnote | pmove | bdown | bup | stop => rfl
  | _ => cases hi

theorem exec_host_of_admitted {i : Instr} (hi : issuer i = .host) (ha : hostAdmits s) :
    exec i s = .next (issueHost (hostSteps s.cfg i) s) := by
  rw [exec_host hi, admitted_of (decide_eq_true ha)]

/-- With nothing pending or held back a HOST transaction runs all its steps, and nothing stays
pending. -/
theorem exec_host_of_prompt {i : Instr} (hi : issuer i = .host) (hp : prompt s)
    (ha : hostAdmits s) (ht : quiet t)
    (hrun : runHost (hostSteps s.cfg i).length { s with hostTodo := hostSteps s.cfg i } =
      { t with hostTodo := [] }) : exec i s = .next t := by
  rw [exec_host_of_admitted hi ha, issueHost_prompt hp.1 hp.2, hrun, hostTodo_nil_of_quiet ht]

/-- Settles O37: its one step sets RZ. -/
theorem rnoteSetsTheResizeFlag : Obligations.RnoteSetsTheResizeFlag := by
  unfold Obligations.RnoteSetsTheResizeFlag
  exact fun s hp ha => exec_host_of_prompt rfl hp ha hp.1 rfl

/-- Settles O57: its one step sets SD. -/
theorem stopSetsTheShutdownFlag : Obligations.StopSetsTheShutdownFlag := by
  unfold Obligations.StopSetsTheShutdownFlag
  exact fun s hp ha => exec_host_of_prompt rfl hp ha hp.1 rfl

/-- PS_BTN written and stored over the button state register (R184, R185). -/
def buttonsStored (btn : Byte) (s : State) : State :=
  { s with rf := s.rf.write s.cfg.mouseStateAddr btn, psBtn := btn }

theorem rfRead_buttonsStored (hm : Memory.wf s.rf) (btn b : Byte) :
    rfRead (buttonsStored btn s) b = if b = s.cfg.mouseStateAddr then btn else rfRead s b :=
  Memory.read_write hm _ _ _

theorem hostSteps_bdown {c : Config} {id : Word} (h : id.toNat < c.nbtn) :
    hostSteps c (.bdown id) = [.press (btnMask c (id.toNat + 1)), .storeButtons] :=
  if_neg (by omega)

theorem hostSteps_bup {c : Config} {id : Word} (h : id.toNat < c.nbtn) :
    hostSteps c (.bup id) = [.release (btnMask c (id.toNat + 1)), .storeButtons] :=
  if_neg (by omega)

/-- Settles O40: two steps, the mask and the store. -/
theorem buttonsAreHeldAndReleased : Obligations.ButtonsAreHeldAndReleased := by
  unfold Obligations.ButtonsAreHeldAndReleased
  constructor <;> intro s id hm hp ha hid
  · refine ⟨buttonsStored (s.psBtn ||| btnMask s.cfg (id.toNat + 1)) s,
      exec_host_of_prompt rfl hp ha hp.1 ?_, rfl, rfRead_buttonsStored hm _⟩
    rw [hostSteps_bdown hid]
    rfl
  · refine ⟨buttonsStored (s.psBtn &&& ~~~(btnMask s.cfg (id.toNat + 1))) s,
      exec_host_of_prompt rfl hp ha hp.1 ?_, rfl, rfRead_buttonsStored hm _⟩
    rw [hostSteps_bup hid]
    rfl

/-- Settles O41: such an id has no steps. -/
theorem otherButtonIdsAreIgnored : Obligations.OtherButtonIdsAreIgnored := by
  unfold Obligations.OtherButtonIdsAreIgnored
  intro s id hp ha hid
  have hpress : hostSteps s.cfg (.bdown id) = [] := if_pos hid
  have hrelease : hostSteps s.cfg (.bup id) = [] := if_pos hid
  constructor
  · exact exec_host_of_prompt rfl hp ha hp.1 (by rw [hpress]; rfl)
  · exact exec_host_of_prompt rfl hp ha hp.1 (by rw [hrelease]; rfl)

/-! A torn PMOVE. -/

theorem exec_peek_of_admitted (he : evaluationAdmits s) (a : Byte) :
    exec (.peek a) s = .next (emit (.result (rfRead (poll s) a)) (poll s)) :=
  congrArg Host.Outcome.next (admitted_of (decide_eq_true he) _ s)

/-- The state after the first two of the five steps of PMOVE, the others held back. -/
def pointerTorn (x y : Word) (later : List Nat) (s : State) : State :=
  { s with
    psX := clampCoord x s.fbW
    psY := clampCoord y s.fbH
    rf := s.rf.write s.cfg.mouseXAddr (highByte (clampCoord x s.fbW))
    hostTodo := [.storeXLow, .storeYHigh, .storeYLow]
    sched := later }

theorem exec_pmove_torn (hq : quiet s) {later : List Nat} (hs : s.sched = 2 :: later)
    (ha : hostAdmits s) (x y : Word) :
    exec (.pmove x y) s = .next (pointerTorn x y later s) := by
  rw [exec_host_of_admitted rfl ha]
  unfold issueHost poll
  rw [hq, hs]
  rfl

/-- A point at which the schedule lets no HOST step take effect. -/
theorem poll_of_held {h : HostStep} {rest : List HostStep} {more : List Nat}
    (ht : s.hostTodo = h :: rest) (hs : s.sched = 0 :: more) :
    poll s = { s with sched := more } := by
  unfold poll
  rw [ht, hs]
  rfl

/-- Settles O39: two steps leave the new high byte of x and the old low byte, and a PEEK before
which no further step takes effect finds each. -/
theorem tornPmoveShowsAMixture : Obligations.TornPmoveShowsAMixture := by
  unfold Obligations.TornPmoveShowsAMixture
  intro s x y later _ hm hq hs ha
  have hhigh : rfRead (pointerTorn x y later s) s.cfg.mouseXAddr =
      highByte (clampCoord x s.fbW) := Memory.read_write_self hm _ _
  have hother : ∀ b, b ≠ s.cfg.mouseXAddr → rfRead (pointerTorn x y later s) b = rfRead s b :=
    fun b hb => Memory.read_write_of_ne s.rf _ hb
  refine ⟨pointerTorn x y later s, exec_pmove_torn hq hs ha x y, rfl, rfl, rfl, rfl, hhigh, hother,
    fun more hlater he => ?_⟩
  have hpoll : poll (pointerTorn x y later s) = { pointerTorn x y later s with sched := more } :=
    poll_of_held rfl hlater
  have hpeek : ∀ a, exec (.peek a) (pointerTorn x y later s) =
      .next { pointerTorn x y later s with
        sched := more
        log := s.log ++ [.result (rfRead (pointerTorn x y later s) a)] } := by
    intro a
    rw [exec_peek_of_admitted (s := pointerTorn x y later s) he, hpoll]
    rfl
  constructor
  · rw [hpeek, hother _ (byte_ne_add_one _).symm]
  · rw [hpeek, hhigh]
    rfl

/-! What HOST leaves alone. -/

/-- What HOST's transactions may write: PS, RZ, SD, the five pointer registers, and the mark of a
refusal (R23, R251). -/
structure HostFrame (s t : State) : Prop where
  rest : t = { s with
    rf := t.rf, psX := t.psX, psY := t.psY, psBtn := t.psBtn, rz := t.rz, sd := t.sd
    refused := t.refused, hostTodo := t.hostTodo, sched := t.sched, log := t.log }
  regs : ∀ b, b ∉ [s.cfg.mouseXAddr, s.cfg.mouseXAddr + 1, s.cfg.mouseYAddr, s.cfg.mouseYAddr + 1,
    s.cfg.mouseStateAddr] → rfRead t b = rfRead s b

theorem HostFrame.refl (s : State) : HostFrame s s := ⟨rfl, fun _ _ => rfl⟩

theorem HostFrame.store {a : Byte} (ha : a ∈ [s.cfg.mouseXAddr, s.cfg.mouseXAddr + 1,
    s.cfg.mouseYAddr, s.cfg.mouseYAddr + 1, s.cfg.mouseStateAddr]) (v : Byte)
    (f : HostFrame s t) : HostFrame s (rfWrite t a v) := by
  refine ⟨by unfold rfWrite; rw [f.rest], fun b hb => ?_⟩
  rw [rfRead_rfWrite_of_ne _ _ (by rintro rfl; exact hb ha), f.regs b hb]

theorem hostFrame_hostClosed (s : State) : HostClosed (HostFrame s) where
  host h t f := by
    have hcfg : t.cfg = s.cfg := by rw [f.rest]
    cases h with
    | storeXHigh | storeXLow | storeYHigh | storeYLow | storeButtons =>
      exact f.store (by simp [hcfg]) _
    | noteResize => exact ⟨by unfold hostStep setResizePending; rw [f.rest], f.regs⟩
    | requestStop => exact ⟨by unfold hostStep setShutdown; rw [f.rest], f.regs⟩
    | _ => exact ⟨by unfold hostStep; rw [f.rest], f.regs⟩
  todo t l f := ⟨by rw [f.rest], f.regs⟩
  sched t l f := ⟨by rw [f.rest], f.regs⟩

/-- Settles O43: a HOST transaction is admitted and issues steps, each of which keeps to what HOST
may write, or it is refused. -/
theorem hostTransactionsLeaveSequencerStateAlone :
    Obligations.HostTransactionsLeaveSequencerStateAlone := by
  unfold Obligations.HostTransactionsLeaveSequencerStateAlone
  intro s t i _ hi ht
  suffices f : HostFrame s t from ⟨f.rest, f.regs⟩
  rw [exec_host hi] at ht
  cases ht
  rcases admitted_cases (decide (hostAdmits s)) (issueHost (hostSteps s.cfg i)) s with e | e <;>
    rw [e]
  · exact (hostFrame_hostClosed s).issueHost _ (.refl s)
  · exact ⟨rfl, fun _ _ => rfl⟩

/-! What SEQ leaves alone. -/

/-- What SEQ's transactions other than BOOT and FRAME leave alone with HOST silent (R23, R251). -/
structure SequencerFrame (s t : State) : Prop where
  psX : t.psX = s.psX
  psY : t.psY = s.psY
  psBtn : t.psBtn = s.psBtn
  shutdown : t.sd = s.sd
  phase : t.ph = s.ph
  nesting : t.evaluating = s.evaluating
  trace : t.input = s.input
  silent : t.hostTodo = []
  schedule : t.sched = s.sched

theorem sequencerFrame_closed (s : State) : Closed (SequencerFrame s) where
  poll f := by rwa [poll_quiet f.silent]
  event _ _ _ f := { f with }
  mark _ f := { f with }
  store _ _ _ f := { f with }
  pixel _ _ _ _ f := { f with }
  size _ _ _ _ _ _ _ f := { f with }
  palette _ _ f := { f with }
  handler _ _ _ f := { f with }

theorem SequencerFrame.deriveGeometry (f : SequencerFrame s t) :
    SequencerFrame s (deriveGeometry t) := by
  by_cases hrz : t.rz = true
  · rw [deriveGeometry_of_pending hrz]
    exact { f with }
  · rwa [deriveGeometry_of_not_pending (Bool.eq_false_iff.mpr hrz)]

/-- A resize that is pending stays pending, with HOST silent. -/
theorem pending_closed : Closed fun s => quiet s ∧ s.rz = true where
  poll h := by rwa [poll_quiet h.1]
  event _ _ _ h := h
  mark _ h := h
  store _ _ _ h := h
  pixel _ _ _ _ h := h
  size _ _ _ _ _ _ _ h := ⟨h.1, rfl⟩
  palette _ _ h := h
  handler _ _ _ h := h

/-- Of SEQ's transactions only GEOM clears RZ. -/
theorem exec_seq_pending {i : Instr} (hi : simple i) (hseq : issuer i = .seq) (hgeom : i ≠ .geom)
    (h : quiet s ∧ s.rz = true) (ht : exec i s = .next t) : t.rz = true := by
  cases i with
  | pin a => cases ht; exact (pending_closed.runPin a h).2
  | pout a v => cases ht; exact (pending_closed.runPout a v h).2
  | push a v => cases ht; exact (pending_closed.runPush a v h).2
  | peek a => cases ht; exact (pending_closed.runPeek a h).2
  | resize w k => cases ht; exact (pending_closed.runResize w k h).2
  | fbwr j px => cases ht; exact (pending_closed.runFbwr j px h).2
  | blit => cases ht; exact (pending_closed.runBlit (fun _ _ h => pending_closed.poll h) h).2
  | geom => exact absurd rfl hgeom
  | boot l e n => exact absurd rfl (hi.1 l e n)
  | frame e v n => exact absurd rfl (hi.2 e v n)
  | rnote | pmove | bdown | bup | stop => cases hseq

/-- Settles O44: no atomic update of SEQ writes any of it, and GEOM alone clears RZ. -/
theorem sequencerTransactionsLeavePointerStateAlone :
    Obligations.SequencerTransactionsLeavePointerStateAlone := by
  unfold Obligations.SequencerTransactionsLeavePointerStateAlone
  intro s t i hq hi hseq ht
  have f : SequencerFrame s t :=
    (sequencerFrame_closed s).exec_seq
      (fun _ _ f => { (sequencerFrame_closed s).poll f with })
      (fun _ _ f => ((sequencerFrame_closed s).poll f).deriveGeometry) i hseq hi.1 hi.2
      ⟨rfl, rfl, rfl, rfl, rfl, rfl, rfl, hq, rfl⟩ ht
  exact ⟨f.psX, f.psY, f.psBtn, f.shutdown, f.phase, f.nesting, f.trace, f.silent, f.schedule,
    fun hrz hgeom => exec_seq_pending hi hseq hgeom ⟨hq, hrz⟩ ht⟩

end Sys2Proof.Machine
end

section
/-! PROOFS. Frames (spec 43_frame_sequencer R202 to R212): FRAME around its evaluation, what it
presents with HOST silent, and the frames that are skipped, ignored, dropped or asked to stop. -/

namespace Sys2Proof.Machine

variable {s t u : State}

/-! FRAME around its evaluation. -/

/-- The screen vector as it stands, high byte first (R203). -/
def screenVector (s : State) : Half :=
  pairOf (rfRead s s.cfg.scrVecAddr) (rfRead s (s.cfg.scrVecAddr + 1))

/-- A FRAME that is admitted and runs: the vector call after the HOST steps that are due, then what
follows an evaluation. -/
theorem exec_frame_of_running (he : s.evaluating = false) (hph : s.ph = .idle)
    (hsd : (poll s).sd = false) {evalFail invalid : Bool}
    (hok : ¬frameAnswersClash s.cfg evalFail invalid) {n : Word} (ht : traceHolds n.toNat s) :
    exec (.frame evalFail invalid n) s =
      .next (afterEvaluation evalFail invalid (vectorCall n.toNat (poll s)).2
        (vectorCall n.toNat (poll s)).1) := by
  rw [exec_frame_of_admitted he hph hok, frameSteps_of_running hsd]
  simpa only [traceHolds, poll_input] using ht

/-- The call of a FRAME's evaluation, in the phase EXEC. -/
theorem callEvaluate_exec (vec : Half) (s : State) :
    callEvaluate vec (setPhase .exec s) = { s with
      ph := .exec
      evaluating := true
      log := s.log ++ [.phase .exec, .evaluate vec] } := by
  rw [List.append_cons s.log]
  rfl

/-- A FRAME with HOST silent and nothing nested. -/
theorem exec_frame_zero (hq : quiet s) (he : s.evaluating = false) (hph : s.ph = .idle)
    (hsd : s.sd = false) {evalFail invalid : Bool}
    (hok : ¬frameAnswersClash s.cfg evalFail invalid) :
    exec (.frame evalFail invalid 0) s =
      .next (afterEvaluation evalFail invalid (screenVector s) { s with
        ph := .exec
        log := s.log ++ [.phase .exec, .evaluate (screenVector s)] }) := by
  have hlog := List.append_cons s.log (.phase .exec) [.evaluate (screenVector s)]
  rw [exec_frame_of_running he hph (by rwa [poll_quiet hq]) hok (Nat.zero_le _), poll_quiet hq,
    vectorCall_quiet hq]
  change Host.Outcome.next (afterEvaluation evalFail invalid (screenVector s)
    (evaluate (screenVector s) 0 (setPhase .exec s))) = _
  rw [evaluate_zero (s := setPhase .exec s) hq he, hlog]
  rfl

/-- A FRAME with HOST silent before it and encoded transactions nested: they run one by one between
the call and what follows the evaluation. -/
theorem exec_frame_nested {nested : List Instr} {rest : List Byte} (hq : quiet s)
    (he : s.evaluating = false) (hph : s.ph = .idle) (hsd : s.sd = false)
    (hs : ∀ i ∈ nested, simple i) (hlen : nested.length < 2 ^ 32)
    (hin : s.input = nested.flatMap encodeBytes ++ rest) {evalFail invalid : Bool}
    (hok : ¬frameAnswersClash s.cfg evalFail invalid) :
    ∃ u, execAll nested { s with
          ph := .exec
          evaluating := true
          log := s.log ++ [.phase .exec, .evaluate (screenVector s)] } = some u ∧
      u = nestedSteps nested.length (callEvaluate (screenVector s) (setPhase .exec s)) ∧
      exec (.frame evalFail invalid (BitVec.ofNat 32 nested.length)) s =
        .next (afterEvaluation evalFail invalid (screenVector s)
          { poll u with evaluating := false, input := rest, log := u.log }) := by
  obtain ⟨u, hall, hu, heval⟩ :=
    evaluate_eq_of_input (s := setPhase .exec s) (screenVector s) hs hin
  refine ⟨u, by rw [← callEvaluate_exec, hall], hu, ?_⟩
  rw [exec_frame_of_running he hph (by rwa [poll_quiet hq]) hok
    (by rw [toNat_ofNat_length hlen]; exact traceHolds_of_flatMap hin), poll_quiet hq,
    vectorCall_quiet hq, toNat_ofNat_length hlen]
  change Host.Outcome.next (afterEvaluation evalFail invalid (screenVector s)
    (evaluate (screenVector s) nested.length (setPhase .exec s))) = _
  rw [heval]

theorem afterEvaluation_ok (invalid : Bool) (vec : Half) (s : State) :
    afterEvaluation false invalid vec s = presentFrame invalid s := rfl

theorem afterEvaluation_skip (h : s.cfg.evalFailPolicy = .skip) (invalid : Bool) (vec : Half) :
    afterEvaluation true invalid vec s = setPhase .idle (raise (.frameEvalFail vec) s) := by
  unfold afterEvaluation
  rw [if_pos rfl, h]

theorem afterEvaluation_ignore (h : s.cfg.evalFailPolicy = .ignore) (invalid : Bool)
    (vec : Half) :
    afterEvaluation true invalid vec s = presentFrame invalid (raise (.frameEvalFail vec) s) := by
  unfold afterEvaluation
  rw [if_pos rfl, h]

theorem not_frameAnswersClash_of_ok (c : Config) (invalid : Bool) :
    ¬frameAnswersClash c false invalid := by simp [frameAnswersClash]

/-! Skipped frames. -/

theorem nestedSteps_frame (n : Nat) (vec : Half) (s : State) :
    EvaluationFrame s (nestedSteps n (callEvaluate vec (setPhase .exec s))) :=
  (evaluationFrame_closed s).nestedSteps (evaluationFrame_hostClosed s) (fun _ _ f => { f with }) n
    (s := callEvaluate vec (setPhase .exec s)) rfl { EvaluationFrame.refl s with }

/-- Settles O52: under `skip` only X3 and the way back into IDLE follow the evaluation, and an
evaluation touches neither the staging image nor the geometry. -/
theorem failedEvaluationSkipsTheFrame : Obligations.FailedEvaluationSkipsTheFrame := by
  unfold Obligations.FailedEvaluationSkipsTheFrame
  refine ⟨fun s n he hph hsd hskip ht => ?anyCount,
    fun s nested rest vec hq he hph hsd hskip hs hlen hin hvec => ?nestedList⟩
  case anyCount =>
    have f := (EvaluationFrame.refl s).poll.vectorCall n.toNat
    obtain ⟨mid, hlog, hmid⟩ := vectorCall_log n.toNat (poll s)
    have hrun := exec_frame_of_running he hph hsd (evalFail := true) (invalid := false)
      (by simp [frameAnswersClash]) ht
    rw [afterEvaluation_skip (by rw [f.config, hskip])] at hrun
    refine ⟨_, (vectorCall n.toNat (poll s)).2, mid, hrun, rfl, rfl, ?_,
      fun out ho => (by cases hmid _ ho), f.pending, f.st, f.stGen, f.geometry⟩
    rw [setPhase_log, raise_log, hlog, poll_log, List.append_assoc _ [_] [_]]
    rfl
  case nestedList =>
    obtain ⟨u, hall, hu, hrun⟩ := exec_frame_nested hq he hph hsd hs hlen hin
      (evalFail := true) (invalid := false) (by simp [frameAnswersClash])
    have hcfg : u.cfg = s.cfg := by
      rw [hu]
      exact (nestedSteps_frame _ _ s).config
    rw [afterEvaluation_skip (by rw [← hskip, ← hcfg, ← poll_cfg u])] at hrun
    subst hvec
    exact ⟨u, _, hall, hrun, setPhase_raise _ _ _⟩

/-! Two states that differ in their logs only. -/

/-- The same state but for what the observer was handed. -/
def SameButLog (s t : State) : Prop := ∃ log, t = { s with log := log }

theorem hostStep_log_irrelevant (h : HostStep) (s : State) (log : List Event) :
    hostStep h { s with log := log } = { hostStep h s with log := log } := by
  cases h <;> rfl

theorem runHost_log_irrelevant (k : Nat) (s : State) (log : List Event) :
    runHost k { s with log := log } = { runHost k s with log := log } := by
  induction k generalizing s with
  | zero => rfl
  | succ k ih =>
    unfold runHost
    dsimp only
    split
    · rfl
    · rw [← ih, ← hostStep_log_irrelevant]

theorem SameButLog.poll (h : SameButLog s t) : SameButLog (poll s) (poll t) := by
  obtain ⟨log, rfl⟩ := h
  refine ⟨log, ?_⟩
  unfold Machine.poll
  dsimp only
  split
  · rfl
  · split
    · exact runHost_log_irrelevant _ _ _
    · rename_i k ks _
      exact runHost_log_irrelevant k { s with sched := ks } log

theorem SameButLog.emit (d e : Event) (h : SameButLog s t) : SameButLog (emit d s) (emit e t) := by
  obtain ⟨log, rfl⟩ := h
  exact ⟨_, rfl⟩

theorem SameButLog.setPhase (p : Phase) (h : SameButLog s t) :
    SameButLog (setPhase p s) (setPhase p t) := by
  obtain ⟨log, rfl⟩ := h
  exact ⟨_, rfl⟩

theorem SameButLog.recreateStaging (h : SameButLog s t) :
    SameButLog (recreateStaging s) (recreateStaging t) := by
  obtain ⟨log, rfl⟩ := h
  exact ⟨log, rfl⟩

theorem SameButLog.convert (h : SameButLog s t) : SameButLog (convert s) (convert t) := by
  obtain ⟨log, rfl⟩ := h
  exact ⟨log, rfl⟩

theorem SameButLog.deriveGeometry (h : SameButLog s t) :
    SameButLog (deriveGeometry s) (deriveGeometry t) := by
  obtain ⟨log, rfl⟩ := h
  refine ⟨log, ?_⟩
  by_cases hrz : s.rz = true
  · rw [deriveGeometry_of_pending hrz, deriveGeometry_of_pending (s := { s with log := log }) hrz]
    rfl
  · have hrz : s.rz = false := Bool.eq_false_iff.mpr hrz
    rw [deriveGeometry_of_not_pending hrz,
      deriveGeometry_of_not_pending (s := { s with log := log }) hrz]

theorem SameButLog.rendered (h : SameButLog s t) : SameButLog (rendered s) (rendered t) :=
  (h.poll.deriveGeometry.poll.setPhase .upload).poll.convert.poll.setPhase .render

theorem SameButLog.frameOutput (h : SameButLog s t) : frameOutput t = frameOutput s := by
  obtain ⟨log, rfl⟩ := h
  rfl

theorem SameButLog.presentFrame (invalid : Bool) (h : SameButLog s t) :
    SameButLog (presentFrame invalid s) (presentFrame invalid t) := by
  have hp := (h.rendered.poll.setPhase .present).poll
  rw [presentFrame_eq, presentFrame_eq]
  split
  · exact (hp.emit _ _).recreateStaging.setPhase _
  · exact (hp.emit _ _).setPhase _

/-- Settles O53: the two frames present states that differ in the record of X3 only, and presenting
reads no log. -/
theorem failedEvaluationIgnored : Obligations.FailedEvaluationIgnored := by
  unfold Obligations.FailedEvaluationIgnored
  intro s v n he hph hsd hignore ht
  have f := (EvaluationFrame.refl s).poll.vectorCall n.toNat
  obtain ⟨mid, hlog, -⟩ := vectorCall_log n.toNat (poll s)
  have hfail := exec_frame_of_running he hph hsd (evalFail := true) (invalid := v)
    (by simp [frameAnswersClash, hignore]) ht
  have hok := exec_frame_of_running he hph hsd (not_frameAnswersClash_of_ok s.cfg v) ht
  rw [afterEvaluation_ignore (by rw [f.config, hignore])] at hfail
  rw [afterEvaluation_ok] at hok
  have hraise : SameButLog (vectorCall n.toNat (poll s)).1
      (raise (.frameEvalFail (vectorCall n.toNat (poll s)).2) (vectorCall n.toNat (poll s)).1) :=
    ⟨_, rfl⟩
  obtain ⟨log, hsame⟩ := hraise.presentFrame v
  have hout := hraise.rendered.frameOutput
  refine ⟨_, _, (vectorCall n.toNat (poll s)).2, mid,
    frameOutput (rendered (vectorCall n.toNat (poll s)).1), hfail, hok, ?state, ?okLog, ?failLog⟩
  case state => rw [hsame]
  case okLog => rw [presentFrame_log, hlog, poll_log]
  case failLog => rw [presentFrame_log, raise_log, hlog, poll_log, hout]

/-! What a frame presents with HOST silent. -/

theorem rendered_of_quiet (hq : quiet s) (hg : geometryFresh s) :
    rendered s = setPhase .render (convert (setPhase .upload (withGeometry s))) := by
  rw [rendered, uploaded, poll_quiet hq, deriveGeometry_of_fresh hg,
    poll_quiet (s := withGeometry s) hq,
    poll_quiet (s := setPhase .upload (withGeometry s)) hq,
    poll_quiet (s := convert (setPhase .upload (withGeometry s))) hq]

/-- Rendering with HOST silent writes the geometry, RZ, the staging image and the phase. -/
theorem rendered_state (hq : quiet s) (hg : geometryFresh s) :
    rendered s = { withGeometry s with
      st := (rendered s).st, ph := .render, log := (rendered s).log } := by
  rw [rendered_of_quiet hq hg]
  rfl

theorem presentFrame_of_quiet (hq : quiet s) (hg : geometryFresh s) (invalid : Bool) :
    presentFrame invalid s =
      if invalid then
        setPhase .idle (recreateStaging (raise .swapchainInvalidated
          (setPhase .present (rendered s))))
      else
        setPhase .idle (emit (.frame (frameOutput (rendered s)))
          (setPhase .present (rendered s))) := by
  have hr : quiet (rendered s) := by
    rw [rendered_state hq hg]
    exact hq
  rw [presentFrame_eq, poll_quiet hr, poll_quiet (s := setPhase .present (rendered s)) hr]

/-- The output handed out is that of the state the frame ends in. -/
theorem frameOutput_presentFrame (hq : quiet s) (hg : geometryFresh s) :
    frameOutput (presentFrame false s) = frameOutput (rendered s) := by
  rw [presentFrame_of_quiet hq hg]
  generalize rendered s = r
  rfl

/-- With HOST silent a frame that is presented writes the staging image, the geometry, RZ and the
phase. -/
theorem presentFrame_ok (hq : quiet s) (hg : geometryFresh s) :
    presentFrame false s = { withGeometry s with
      st := (presentFrame false s).st, ph := .idle
      log := s.log ++ [.phase .upload, .phase .render, .phase .present,
        .frame (frameOutput (presentFrame false s)), .phase .idle] } := by
  have hlog := presentFrame_log false s
  rw [if_neg Bool.false_ne_true, ← frameOutput_presentFrame hq hg] at hlog
  have hr := rendered_state hq hg
  rw [← hlog, presentFrame_of_quiet hq hg]
  generalize rendered s = r at hr ⊢
  rw [hr]
  rfl

/-- With HOST silent a frame that is invalidated writes the same and draws the staging image
anew. -/
theorem presentFrame_invalid (hq : quiet s) (hg : geometryFresh s) :
    presentFrame true s = { withGeometry s with
      st := [], stGen := s.stGen + 1, ph := .idle
      log := s.log ++ [.phase .upload, .phase .render, .phase .present,
        .raised .swapchainInvalidated, .phase .idle] } := by
  have hlog := presentFrame_log true s
  rw [if_pos rfl] at hlog
  have hr := rendered_state hq hg
  rw [← hlog, presentFrame_of_quiet hq hg]
  generalize rendered s = r at hr ⊢
  rw [hr]
  rfl

/-- The staging image of a frame that is presented, inside the valid region and outside it. -/
theorem stRead_presentFrame (hw : s.fbW.toNat ≤ s.cfg.maxW) (hst : Rising s.st) :
    (∀ x y, x < s.fbW.toNat → y < s.fbH.toNat →
      stRead (presentFrame false s) (stIndex s.cfg x y) = permute (fbRead s (fbIndex s x y))) ∧
    ∀ j, (∀ x y, x < s.fbW.toNat → y < s.fbH.toNat → j ≠ stIndex s.cfg x y) →
      stRead (presentFrame false s) j = stRead s j := by
  have hread : ∀ j, stRead (presentFrame false s) j = stRead (rendered s) j := by
    intro j
    rw [presentFrame_eq]
    exact stRead_congr (by simp) (by simp) j
  constructor
  · intro x y hx hy
    rw [hread, stRead_rendered_inside hw hst hx hy]
  · intro j hj
    rw [hread, stRead_rendered_outside hw hst hj]

/-! What nested transactions keep. -/

theorem geometryFresh_hostClosed : HostClosed geometryFresh where
  host h s hs := by
    cases h with
    | noteResize => exact nofun
    | _ => exact hs
  todo _ _ hs := hs
  sched _ _ hs := hs

theorem geometryFresh_closed : Closed geometryFresh where
  poll hs := geometryFresh_hostClosed.poll hs
  event _ _ _ hs := hs
  mark _ hs := hs
  store _ _ _ hs := hs
  pixel _ _ _ _ hs := hs
  size _ _ _ _ _ _ _ _ := nofun
  palette _ _ hs := hs
  handler _ _ _ hs := hs

theorem prompt_closed : Closed prompt where
  poll hs := by rwa [poll_quiet hs.1]
  event _ _ _ hs := hs
  mark _ hs := hs
  store _ _ _ hs := hs
  pixel _ _ _ _ hs := hs
  size _ _ _ _ _ _ _ hs := hs
  palette _ _ hs := hs
  handler _ _ _ hs := hs

theorem issueHost_keeps_prompt (h : prompt s) (steps : List HostStep) :
    prompt (issueHost steps s) := by
  rw [issueHost_prompt h.1 h.2]
  refine ⟨?_, ?_⟩
  · rw [runHost_hostTodo]
    exact List.drop_length
  · rw [runHost_sched]
    exact h.2

/-- With nothing held back a nested transaction of HOST takes effect whole, and SEQ's issue nothing:
nothing is pending after it. -/
theorem runNested_keeps_prompt (i : Instr) (h : prompt s) : prompt (runNested i s) := by
  by_cases hi : simple i
  · have hexec := exec_eq_runNested i hi.1 hi.2 s
    cases hissuer : issuer i with
    | host =>
      rw [exec_host hissuer] at hexec
      rw [← Host.Outcome.next.inj hexec]
      rcases admitted_cases (decide (hostAdmits s)) (issueHost (hostSteps s.cfg i)) s with e | e <;>
        rw [e]
      · exact issueHost_keeps_prompt h _
      · exact h
    | seq =>
      exact prompt_closed.exec_seq (fun _ _ h => prompt_closed.poll h)
        (fun _ _ h => by simpa [prompt] using prompt_closed.poll h) i hissuer hi.1 hi.2 h hexec
    | _ => cases i <;> cases hissuer
  · cases i with
    | boot l e n => exact h
    | frame e v n => exact h
    | _ => exact absurd ⟨by simp, by simp⟩ hi

theorem nestedSteps_keeps_prompt (n : Nat) (h : prompt s) : prompt (nestedSteps n s) := by
  induction n generalizing s with
  | zero => exact h
  | succ n ih =>
    rw [nestedSteps_succ]
    apply ih
    unfold nestedStep
    rcases fetch_cases s with ⟨i, rest, -, e⟩ | ⟨r, -, -, e⟩ | ⟨-, f, e⟩ <;> rw [e]
    · exact runNested_keeps_prompt (s := { s with input := rest }) i h
    · exact h
    · exact h

/-! Frames that run whole. -/

/-- Settles O50: with nothing nested the state presented is the one FRAME finds, with nested
transactions it is the one they leave. -/
theorem framePresentsThePermutedFramebuffer :
    Obligations.FramePresentsThePermutedFramebuffer := by
  unfold Obligations.FramePresentsThePermutedFramebuffer
  refine ⟨fun s hq he hph hsd hw hst hg => ?nothingNested,
    fun s nested rest hinv hp he hph hsd hs hlen hin => ?nestedList⟩
  case nothingNested =>
    let w : State := { s with
      ph := .exec
      log := s.log ++ [.phase .exec, .evaluate (screenVector s)] }
    have hrun := exec_frame_zero hq he hph hsd (not_frameAnswersClash_of_ok s.cfg false)
    refine ⟨presentFrame false w, hrun, ?_, stRead_presentFrame (s := w) hw hst⟩
    have hstate := presentFrame_ok (s := w) hq hg
    rw [List.append_assoc] at hstate
    rw [hph]
    exact hstate
  case nestedList =>
    obtain ⟨u, hall, hu, hrun⟩ := exec_frame_nested hp.1 he hph hsd hs hlen hin
      (not_frameAnswersClash_of_ok s.cfg false)
    have hup : prompt u := hu ▸ nestedSteps_keeps_prompt _ hp
    have hui : DataInv u := hu ▸ dataInv_persistent.closed.nestedSteps
      dataInv_persistent.toHostClosed dataInv_persistent.input _ (s := callEvaluate _ _) rfl
        { (stateInv_iff.mp hinv).1 with }
    obtain ⟨-, -, hw, -⟩ := hui.sizes
    rw [poll_quiet hup.1] at hrun
    exact ⟨u, _, hall, hrun,
      presentFrame_ok (s := { u with evaluating := false, input := rest }) hup.1 hui.geometry,
      stRead_presentFrame (s := { u with evaluating := false, input := rest }) hw hui.staging.1⟩

/-- Settles O54: the same frame up to its presentation, then a staging image that lists nothing. -/
theorem invalidationDropsTheFrame : Obligations.InvalidationDropsTheFrame := by
  unfold Obligations.InvalidationDropsTheFrame
  refine ⟨fun s hq he hph hsd hg => ?nothingNested,
    fun s nested rest hp he hph hsd hg hs hlen hin => ?nestedList⟩
  case nothingNested =>
    let w : State := { s with
      ph := .exec
      log := s.log ++ [.phase .exec, .evaluate (screenVector s)] }
    have hrun := exec_frame_zero hq he hph hsd (not_frameAnswersClash_of_ok s.cfg true)
    have hstate := presentFrame_invalid (s := w) hq hg
    refine ⟨presentFrame true w, hrun, ?_, fun j => by rw [hstate]; rfl⟩
    rw [List.append_assoc] at hstate
    rw [hph, hstate]
    rfl
  case nestedList =>
    obtain ⟨u, hall, hu, hrun⟩ := exec_frame_nested hp.1 he hph hsd hs hlen hin
      (not_frameAnswersClash_of_ok s.cfg true)
    have hup : prompt u := hu ▸ nestedSteps_keeps_prompt _ hp
    have hug : geometryFresh u := hu ▸ geometryFresh_closed.nestedSteps geometryFresh_hostClosed
      (fun _ _ h => h) _ (s := callEvaluate _ _) rfl hg
    have hgen : u.stGen = s.stGen := by
      rw [hu]
      exact (nestedSteps_frame _ _ s).stGen
    let w : State := { u with evaluating := false, input := rest }
    have hstate := presentFrame_invalid (s := w) hup.1 hug
    rw [poll_quiet hup.1] at hrun
    refine ⟨u, presentFrame true w, hall, hrun, ?_, fun j => ?_⟩
    · rw [hstate]
      rfl
    · rw [hstate, ← hgen]
      rfl

/-- A STOP alone, with HOST prompt. -/
theorem execAll_stop (hp : prompt s) (ha : hostAdmits s) :
    execAll [.stop] s = some { s with input := s.input.drop 9, sd := true } := by
  rw [execAll, exec_host_of_prompt (s := { s with input := s.input.drop 9 })
    (t := { s with input := s.input.drop 9, sd := true }) rfl hp ha hp.1 rfl]
  rfl

@[simp] theorem presentFrame_input (invalid : Bool) (s : State) :
    (presentFrame invalid s).input = s.input := by
  rw [presentFrame_eq]
  split <;> simp [rendered, uploaded]

/-- A frame that is presented keeps SD. -/
theorem presentFrame_shutdown (invalid : Bool) (h : s.sd = true) :
    (presentFrame invalid s).sd = true :=
  ((monotone_persistent s).presentFrame invalid ⟨rfl, id, id, ⟨[], List.append_nil _⟩⟩).shutdown h

/-- A frame that is presented hands its output out after everything that was handed out before. -/
theorem frame_mem_presentFrame_log (h : s.log <+: t.log) :
    .frame (frameOutput (rendered t)) ∈ (presentFrame false t).log.drop s.log.length := by
  obtain ⟨l, hl⟩ := h
  rw [presentFrame_log, ← hl]
  simp

/-- Settles O60: the nested STOP leaves SD set and the phase as it was, and nothing after the loop
top looks at SD. -/
theorem stopInsideAFrameDoesNotShortenIt : Obligations.StopInsideAFrameDoesNotShortenIt := by
  unfold Obligations.StopInsideAFrameDoesNotShortenIt
  intro s rest hp he hph hsd hin
  obtain ⟨u, hall, -, hrun⟩ := exec_frame_nested (nested := [.stop]) (rest := rest) hp.1 he hph hsd
    (by simp [simple]) (by decide) (by simpa using hin) (not_frameAnswersClash_of_ok s.cfg false)
  rw [← callEvaluate_exec, execAll_stop (s := callEvaluate (screenVector s) (setPhase .exec s)) hp
    ⟨by simp, by simp⟩] at hall
  cases hall
  rw [poll_quiet (by exact hp.1), afterEvaluation_ok] at hrun
  refine ⟨_, _, hrun, ?phase, ?shutdown, ?trace,
    frame_mem_presentFrame_log ?grows⟩
  case phase => rw [presentFrame_ph]
  case shutdown => exact presentFrame_shutdown false rfl
  case trace => rw [presentFrame_input]
  case grows => exact ⟨[.phase .exec, .evaluate (screenVector s)], by simp⟩

end Sys2Proof.Machine
end

section
/-! PROOFS. The screen bridge (spec 41_screen_bridge): RESIZE with its capacity and its grid, FBWR,
BLIT, GEOM, and the samples of the presenter. -/

namespace Sys2Proof.Machine

variable {s t : State}

theorem exec_fbwr_of_admitted (he : evaluationAdmits s) (i px : Word) :
    exec (.fbwr i px) s = .next (writePixel i px (poll s)) :=
  congrArg Host.Outcome.next (admitted_of (decide_eq_true he) _ s)

theorem exec_blit_of_admitted (he : benchAdmits s) :
    exec .blit s = .next (convert (poll s)) :=
  congrArg Host.Outcome.next (admitted_of (decide_eq_true he) _ s)

theorem exec_geom_of_admitted (he : benchAdmits s) :
    exec .geom s = .next (deriveGeometry (poll s)) :=
  congrArg Host.Outcome.next (admitted_of (decide_eq_true he) _ s)

/-! RESIZE. -/

/-- Above the capacity and under `clamp`: X4, then the truncated size (R151). -/
theorem resizeFb_of_clamp {w h : Word} (hcap : overCapacity s.cfg w h)
    (hpolicy : s.cfg.resizePolicy = .clamp) :
    resizeFb w h s = resizeTo (min w.toNat s.cfg.maxW) (min h.toNat s.cfg.maxH)
      (raise (.resizeOverCapacity w h) s) := by
  unfold resizeFb
  rw [hpolicy]
  dsimp only
  rw [if_pos hcap]

/-- Above the capacity and under `reject`: X4 and nothing else (R151). -/
theorem resizeFb_of_reject {w h : Word} (hcap : overCapacity s.cfg w h)
    (hpolicy : s.cfg.resizePolicy = .reject) :
    resizeFb w h s = raise (.resizeOverCapacity w h) s := by
  unfold resizeFb
  rw [hpolicy]
  dsimp only
  rw [if_pos hcap]

theorem resizeTo_of_off_grid {w h : Nat} (hgrid : ¬(w % s.cfg.cell = 0 ∧ h % s.cfg.cell = 0)) :
    resizeTo w h s = refuse .resizeNotCellMultiple s := by
  unfold resizeTo
  rw [if_pos (by omega)]

theorem resizeTo_of_current {w h : Nat} (hw : w % s.cfg.cell = 0) (hh : h % s.cfg.cell = 0)
    (hcur : w = s.fbW.toNat ∧ h = s.fbH.toNat) : resizeTo w h s = s := by
  unfold resizeTo
  rw [if_neg (by omega), if_pos hcur]

/-- Settles O28: RESIZE to a new size is `reallocate`, and an allocation that lists nothing reads as
draws. -/
theorem resizeReallocatesTheFramebuffer : Obligations.ResizeReallocatesTheFramebuffer := by
  unfold Obligations.ResizeReallocatesTheFramebuffer
  intro s w h hc he hcap hw hh hnew
  have hle : w.toNat ≤ s.cfg.maxW ∧ h.toNat ≤ s.cfg.maxH := by
    simpa only [overCapacity, not_or, not_lt] using hcap
  obtain ⟨hmaxW, hmaxH⟩ := sides_of_configOk hc
  have hrun : exec (.resize w h) s = .next (reallocate w.toNat h.toNat (poll s)) := by
    rw [exec_resize_of_admitted he, resizeFb_of_not_overCapacity (by rwa [poll_cfg]),
      resizeTo_of_new_size (by rwa [poll_cfg]) (by rwa [poll_cfg]) (by rwa [poll_fbW, poll_fbH])]
  refine ⟨_, hrun, rfl, toNat_ofNat_of_le_maxSide hle.1 hmaxW,
    toNat_ofNat_of_le_maxSide hle.2 hmaxH,
    ?_, fun i => ?_, fun i => rfl⟩
  · rw [reallocate_fbGen, poll_fbGen]
  · rw [← poll_fbGen s]
    rfl

/-- Settles O29: under `clamp` the truncated size is the current one or a new one, and X4 stands
before either; under `reject` there is X4 alone. -/
theorem resizeOverCapacity : Obligations.ResizeOverCapacity := by
  unfold Obligations.ResizeOverCapacity
  refine ⟨fun s w h hc he hcap hpolicy hw hh => ?clamped,
    fun s w h he hcap hpolicy => ?rejected⟩
  case rejected =>
    rw [exec_resize_of_admitted he, resizeFb_of_reject (by rwa [poll_cfg]) (by rwa [poll_cfg]),
      ← poll_log s]
    rfl
  case clamped =>
    obtain ⟨hmaxW, hmaxH⟩ := sides_of_configOk hc
    let r := raise (.resizeOverCapacity w h) (poll s)
    have hcfg : r.cfg = s.cfg := by simp [r]
    have hfbW : r.fbW = s.fbW := by simp [r]
    have hfbH : r.fbH = s.fbH := by simp [r]
    have hrun : exec (.resize w h) s =
        .next (resizeTo (min w.toNat s.cfg.maxW) (min h.toNat s.cfg.maxH) r) := by
      rw [exec_resize_of_admitted he, resizeFb_of_clamp (by rwa [poll_cfg]) (by rwa [poll_cfg]),
        poll_cfg]
    have hlog : r.log = s.log ++ [.raised (.resizeOverCapacity w h)] := by simp [r]
    by_cases hcur : min w.toNat s.cfg.maxW = s.fbW.toNat ∧ min h.toNat s.cfg.maxH = s.fbH.toNat
    · rw [resizeTo_of_current (by rwa [hcfg]) (by rwa [hcfg]) (by rwa [hfbW, hfbH])] at hrun
      refine ⟨r, hrun, by rw [hfbW, hcur.1], by rw [hfbH, hcur.2], by rw [← hlog]; rfl, ?_⟩
      rw [if_pos hcur]
      exact ⟨rfl, poll_idx s, fbRead_congr (poll_fb s) (poll_fbGen s)⟩
    · rw [resizeTo_of_new_size (by rwa [hcfg]) (by rwa [hcfg]) (by rwa [hfbW, hfbH])] at hrun
      refine ⟨_, hrun, toNat_ofNat_of_le_maxSide (Nat.min_le_right _ _) hmaxW,
        toNat_ofNat_of_le_maxSide (Nat.min_le_right _ _) hmaxH, by rw [← hlog]; rfl, ?_⟩
      rw [if_neg hcur, ← poll_fbGen s]
      exact ⟨rfl, fun i => rfl⟩

/-- Settles O30: the current size is within the capacity and on the grid. -/
theorem resizeToTheCurrentSizeChangesNothing :
    Obligations.ResizeToTheCurrentSizeChangesNothing := by
  unfold Obligations.ResizeToTheCurrentSizeChangesNothing
  rintro s w h ⟨hwc, hhc, hwle, hhle⟩ he hw hh
  have hcap : ¬overCapacity (poll s).cfg w h := by
    rw [poll_cfg, overCapacity]
    omega
  rw [exec_resize_of_admitted he, resizeFb_of_not_overCapacity hcap, resizeTo_of_current]
  · rwa [poll_cfg, hw]
  · rwa [poll_cfg, hh]
  · rw [poll_fbW, poll_fbH]
    exact ⟨hw, hh⟩

/-- Settles O31: the grid is checked after the capacity step. -/
theorem resizeOffTheCellGridIsRefused : Obligations.ResizeOffTheCellGridIsRefused := by
  unfold Obligations.ResizeOffTheCellGridIsRefused
  refine ⟨fun s w h he hcap hgrid => ?within, fun s w h he hcap hpolicy hgrid => ?above⟩
  case within =>
    rw [exec_resize_of_admitted he, resizeFb_of_not_overCapacity (by rwa [poll_cfg]),
      resizeTo_of_off_grid (by rwa [poll_cfg]), refuse_eq, poll_log]
  case above =>
    rw [exec_resize_of_admitted he, resizeFb_of_clamp (by rwa [poll_cfg]) (by rwa [poll_cfg]),
      resizeTo_of_off_grid (by rwa [raise_cfg, poll_cfg]), refuse_eq, raise_log, poll_log,
      List.append_assoc]
    rfl

/-! The capacity. -/

/-- Sizes within the capacity and on the grid are kept, whatever HOST does. -/
theorem sizesOk_hostClosed : HostClosed fun s => configOk s.cfg ∧ sizesOk s where
  host h s hs := by cases h <;> exact hs
  todo _ _ hs := hs
  sched _ _ hs := hs

theorem sizesOk_closed : Closed fun s => configOk s.cfg ∧ sizesOk s where
  poll hs := sizesOk_hostClosed.poll hs
  event _ _ _ hs := hs
  mark _ hs := hs
  store _ _ _ hs := hs
  pixel _ _ _ _ hs := hs
  size _ _ _ hw hk hwc hkc hs := ⟨hs.1, sizesOk_reallocate hs.1 hw hk hwc hkc⟩
  palette _ _ hs := hs
  handler _ _ _ hs := hs

/-- A pixel of the framebuffer has its place in the staging image. -/
theorem stIndex_lt_capacity {c : Config} {x y : Nat} (hx : x < c.maxW) (hy : y < c.maxH) :
    stIndex c x y < c.maxW * c.maxH := by
  calc stIndex c x y < stIndex c 0 (y + 1) := stIndex_lt hx (.inl (Nat.lt_succ_self y))
    _ = c.maxW * (y + 1) := by simp [stIndex, Nat.mul_comm]
    _ ≤ c.maxW * c.maxH := Nat.mul_le_mul_left _ hy

/-- Settles O32: RESIZE reallocates to a size within the capacity on the grid or not at all. -/
theorem noResizeExceedsTheCapacity : Obligations.NoResizeExceedsTheCapacity := by
  unfold Obligations.NoResizeExceedsTheCapacity
  intro s t w h hc hs ht
  cases ht
  obtain ⟨-, hsizes⟩ := sizesOk_closed.runResize w h ⟨hc, hs⟩
  obtain ⟨-, -, hw, hh⟩ := id hsizes
  exact ⟨hsizes, fun x y hx hy =>
    stIndex_lt_capacity (Nat.lt_of_lt_of_le hx hw) (Nat.lt_of_lt_of_le hy hh)⟩

/-! FBWR, BLIT and GEOM. -/

/-- Settles O33: the pixel is carried in the operand, and the index is checked against the size. -/
theorem fbwrWritesOnePixel : Obligations.FbwrWritesOnePixel := by
  unfold Obligations.FbwrWritesOnePixel
  have hsize : ∀ s, fbSize (poll s) = fbSize s := fun s => by simp [fbSize]
  refine ⟨fun s i px he hi => ?inside, fun s i px he hi => ?outside⟩
  case inside =>
    have hrun : exec (.fbwr i px) s = .next (fbWrite (poll s) i.toNat (pixelOfWord px)) := by
      rw [exec_fbwr_of_admitted he, writePixel, if_neg (by rw [hsize]; omega)]
    have hself : fbRead (fbWrite (poll s) i.toNat (pixelOfWord px)) i.toNat = pixelOfWord px := by
      rw [fbRead_fbWrite, if_pos rfl]
    refine ⟨_, hrun, rfl, by rw [hself]; rfl, by rw [hself]; rfl, by rw [hself]; rfl,
      by rw [hself]; rfl, fun j hj => ?_⟩
    rw [fbRead_fbWrite, if_neg hj, fbRead_congr (poll_fb s) (poll_fbGen s)]
  case outside =>
    rw [exec_fbwr_of_admitted he, writePixel, if_pos (by rwa [hsize]), refuse_eq, poll_log]

/-- Settles O34: HOST's steps touch neither image, so what BLIT converts is the framebuffer as it
stands. -/
theorem blitPermutesTheValidRegion : Obligations.BlitPermutesTheValidRegion := by
  unfold Obligations.BlitPermutesTheValidRegion
  intro s he hw hst
  have hfb : ∀ i, fbRead (poll s) i = fbRead s i := fbRead_congr (poll_fb s) (poll_fbGen s)
  refine ⟨_, exec_blit_of_admitted he, rfl, fun x y hx hy => ?inside, fun j hj => ?outside⟩
  case inside =>
    have hread := stRead_convert_inside (s := poll s) (x := x) (y := y) (by simpa using hw)
      (by simpa using hst) (by simpa using hx) (by simpa using hy)
    simp only [stIndex, fbIndex, poll_cfg, poll_fbW, hfb] at hread
    rw [hread]
    exact ⟨rfl, rfl, rfl, rfl⟩
  case outside =>
    rw [stRead_convert_outside (s := poll s) (by simpa using hw) (by simpa using hst)
      (by simpa [stIndex] using hj)]
    exact stRead_congr (poll_st s) (poll_stGen s) j

/-- Settles O35: GEOM's two cases, after the HOST steps that are due. -/
theorem geomConsumesThePendingResize : Obligations.GeomConsumesThePendingResize := by
  unfold Obligations.GeomConsumesThePendingResize
  intro s he
  rw [exec_geom_of_admitted he]
  by_cases hrz : (poll s).rz = true
  · rw [if_pos hrz, deriveGeometry_of_pending hrz, ← poll_fbW s, ← poll_fbH s]
    rfl
  · rw [if_neg hrz, deriveGeometry_of_not_pending (Bool.eq_false_iff.mpr hrz)]

/-! The presenter's samples (R161). -/

/-- A coordinate below an extent of `n` out of `m` falls on one of the first `n` pixels. -/
theorem floor_mul_lt {n m : Nat} {u : ℚ} (hu : 0 ≤ u) (h : u < (n : ℚ) / (m : ℚ)) :
    (u * (m : ℚ)).floor.toNat < n := by
  have hm : (0 : ℚ) < m := by
    rcases Nat.eq_zero_or_pos m with rfl | hm
    · simp at h
      linarith
    · exact_mod_cast hm
  have hlt : u * m < n := (lt_div_iff₀ hm).mp h
  have hfloor : ⌊u * (m : ℚ)⌋ < (n : Int) := Int.floor_lt.mpr (by exact_mod_cast hlt)
  have hnonneg : 0 ≤ ⌊u * (m : ℚ)⌋ := Int.floor_nonneg.mpr (by positivity)
  change ⌊u * (m : ℚ)⌋.toNat < n
  omega

/-- Settles O36: each coordinate of the sample is below its extent. -/
theorem samplesLieInTheValidRegion : Obligations.SamplesLieInTheValidRegion := by
  unfold Obligations.SamplesLieInTheValidRegion
  intro s u v hu hlu hv hlv
  exact ⟨_, _, floor_mul_lt hu hlu, floor_mul_lt hv hlv, rfl⟩

end Sys2Proof.Machine
end

section
/-! PROOFS. The port transactions where no handler writes anything (spec 40_port_dispatch R122 to
R129): the raw transactions, the slots without a device, and the two handlers that read back. -/

namespace Sys2Proof.Machine

variable {s t : State}

/-! The raw transactions. -/

theorem exec_push_of_admitted (he : evaluationAdmits s) (a v : Byte) :
    exec (.push a v) s = .next (rfWrite (poll s) a v) :=
  congrArg Host.Outcome.next (admitted_of (decide_eq_true he) _ s)

theorem registers_hostClosed : HostClosed fun s => Memory.wf s.rf where
  host h s hs := by
    cases h with
    | storeXHigh | storeXLow | storeYHigh | storeYLow | storeButtons =>
      exact Memory.write_wf hs _ _
    | _ => exact hs
  todo _ _ hs := hs
  sched _ _ hs := hs

/-- Settles O25: PUSH is the store, after the HOST steps that are due. -/
theorem pushStoresOneByteAndNothingElse : Obligations.PushStoresOneByteAndNothingElse := by
  unfold Obligations.PushStoresOneByteAndNothingElse
  intro s a v hm he
  exact ⟨_, exec_push_of_admitted he a v, rfl, rfRead_rfWrite (registers_hostClosed.poll hm) a v⟩

/-- Settles O26: PEEK is the raw read, after the HOST steps that are due. -/
theorem peekAnswersTheStoredByte : Obligations.PeekAnswersTheStoredByte := by
  unfold Obligations.PeekAnswersTheStoredByte
  intro s a he
  rw [exec_peek_of_admitted he, ← poll_log s]
  rfl

/-! Slots without a device. -/

theorem trace_eq (r : TraceRec) (s : State) :
    trace r s = { s with log := s.log ++ (if s.cfg.traceEn then [.trace r] else []) } := by
  unfold trace
  split
  · rfl
  · rw [List.append_nil]

theorem portIn_of_slotKind_stub {a : Byte} (h : slotKind s.cfg (slotOf a) = .stub) :
    portIn a s = emit (.result 0x00) (trace (.read a) s) := by
  unfold portIn
  rw [h]

/-- Settles O13: the two kinds of slot that have no handler to call. -/
theorem pinOfASlotWithoutADevice : Obligations.PinOfASlotWithoutADevice := by
  unfold Obligations.PinOfASlotWithoutADevice
  constructor <;> intro s a he hk
  · rw [exec_pin_of_admitted he, portIn_of_slotKind_none (by rwa [poll_cfg]), ← poll_log s]
    rfl
  · rw [exec_pin_of_admitted he, portIn_of_slotKind_stub (by rwa [poll_cfg]), trace_eq,
      ← poll_log s, ← poll_cfg s]
    rfl

/-- The system slot of a legal configuration has a handler, so a slot without a device holds no
palette sub-register. -/
theorem isPaletteAddr_of_no_device {c : Config} (hc : configOk c) {a : Byte}
    (h : slotKind c (slotOf a) = .none ∨ slotKind c (slotOf a) = .stub) :
    isPaletteAddr c a = false := by
  obtain ⟨-, ⟨-, hnone, hstub⟩, -⟩ := hc
  have hne : slotOf a ≠ c.sysSlot := by
    rintro e
    rw [e] at h
    exact h.elim hnone hstub
  simp [isPaletteAddr, hne]

theorem dispatchWrite_of_no_device {a : Byte} (v : Byte)
    (h : slotKind s.cfg (slotOf a) = .none ∨ slotKind s.cfg (slotOf a) = .stub) :
    dispatchWrite a v s = trace (.write a v) s := by
  unfold dispatchWrite
  rcases h with h | h <;> rw [h]

/-- POUT outside the palette range with HOST silent: the store and the dispatch (R125). -/
theorem exec_pout_of_not_palette (hq : quiet s) (he : evaluationAdmits s) {a : Byte}
    (hp : isPaletteAddr s.cfg a = false) (v : Byte) :
    exec (.pout a v) s = .next (dispatchWrite a v (rfWrite s a v)) := by
  have hcfg : (dispatchWrite a v (rfWrite s a v)).cfg = s.cfg :=
    ((monotone_persistent s).closed.dispatchWrite a v (s := rfWrite s a v)
      ⟨rfl, id, id, ⟨[], List.append_nil _⟩⟩).config
  rw [exec_pout_of_admitted he, portOut_quiet hq, hcfg, hp]
  rfl

theorem exec_pout_of_no_device (hc : configOk s.cfg) (hq : quiet s) (he : evaluationAdmits s)
    {a : Byte} (h : slotKind s.cfg (slotOf a) = .none ∨ slotKind s.cfg (slotOf a) = .stub)
    (v : Byte) : exec (.pout a v) s = .next (trace (.write a v) (rfWrite s a v)) := by
  rw [exec_pout_of_not_palette hq he (isPaletteAddr_of_no_device hc h),
    dispatchWrite_of_no_device (s := rfWrite s a v) v h]

/-- Settles O17: the dispatch leaves a trace record, and no palette sub-register stands in such a
slot. -/
theorem poutToASlotWithoutADevice : Obligations.PoutToASlotWithoutADevice := by
  unfold Obligations.PoutToASlotWithoutADevice
  intro s a v hc hm hq he h
  refine ⟨_, exec_pout_of_no_device hc hq he h v, by rw [trace_eq]; rfl, fun b => ?_⟩
  rw [rfRead_trace, rfRead_rfWrite hm]

/-- Settles O24: the POUT stores the byte, PIN of a STUB slot does not look at it, PEEK does. -/
theorem stubSlotForgetsOnRead : Obligations.StubSlotForgetsOnRead := by
  unfold Obligations.StubSlotForgetsOnRead
  intro s a v hc hm hq he hk
  let r := trace (.write a v) (rfWrite s a v)
  have hadmits : evaluationAdmits r := by simpa [evaluationAdmits, benchPhase, r] using he
  have hquiet : quiet r := by simpa [quiet, r] using hq
  have hread : rfRead r a = v := by rw [rfRead_trace, rfRead_rfWrite hm, if_pos rfl]
  refine ⟨r, _, _, exec_pout_of_no_device hc hq he (.inr hk) v, exec_pin_of_admitted hadmits a,
    exec_peek_of_admitted hadmits a, ?pin, ?peek⟩
  case pin =>
    rw [poll_quiet hquiet, portIn_of_slotKind_stub (by simpa [r] using hk), emit_log,
      List.getLast?_concat]
  case peek => rw [emit_log, List.getLast?_concat, poll_quiet hquiet, hread]

/-! The two handlers that read back. -/

/-- The test handler and the reference screen handler answer a read with the stored byte and do
nothing else. -/
theorem callHandler_read_of_readBack {h : Handler} (hne : h ≠ .external) (k : Nibble) (a : Byte)
    (s : State) :
    callHandler h k (.read a) s = (emit (.handler k (.read a)) s, rfRead s a) := by
  cases h with
  | raw => rfl
  | refScreen => rfl
  | external => exact absurd rfl hne

/-- On a write they do nothing. -/
theorem dispatchWrite_of_readBack {a : Byte} {h : Handler}
    (hk : slotKind s.cfg (slotOf a) = .device h) (hne : h ≠ .external) (v : Byte) :
    dispatchWrite a v s = emit (.handler (slotOf a) (.write (subOf a) v)) s := by
  unfold dispatchWrite
  rw [hk]
  cases h with
  | raw => rfl
  | refScreen => rfl
  | external => exact absurd rfl hne

/-- Settles O14: their answer to a read is the stored byte, and it pushes nothing. -/
theorem pinOfADeviceThatReadsBack : Obligations.PinOfADeviceThatReadsBack := by
  unfold Obligations.PinOfADeviceThatReadsBack
  intro s a h he hk hne
  rw [exec_pin_of_admitted he, portIn, poll_cfg, hk]
  dsimp only
  rw [callHandler_read_of_readBack hne, List.append_cons s.log, ← poll_log s]
  rfl

/-- Settles O18: their answer to a write is empty. -/
theorem poutToADeviceThatReadsBack : Obligations.PoutToADeviceThatReadsBack := by
  unfold Obligations.PoutToADeviceThatReadsBack
  intro s a v h hm hq he hk hne hp
  have hrun := exec_pout_of_not_palette hq he hp v
  rw [dispatchWrite_of_readBack (s := rfWrite s a v) hk hne] at hrun
  exact ⟨_, hrun, rfl, rfRead_rfWrite hm a v⟩

/-! Who changes PAL (R126). -/

@[simp] theorem writePixel_pal (i px : Word) (s : State) : (writePixel i px s).pal = s.pal := by
  rcases writePixel_cases i px s with ⟨-, e⟩ | ⟨-, e⟩ <;> simp [e]

@[simp] theorem resizeTo_pal (w h : Nat) (s : State) : (resizeTo w h s).pal = s.pal := by
  rcases resizeTo_cases w h s with ⟨-, e⟩ | ⟨-, -, e⟩ | ⟨-, -, e⟩ <;> simp [e]

@[simp] theorem resizeFb_pal (w h : Word) (s : State) : (resizeFb w h s).pal = s.pal := by
  by_cases hcap : overCapacity s.cfg w h
  · cases hpolicy : s.cfg.resizePolicy with
    | clamp => simp [resizeFb_of_clamp hcap hpolicy]
    | reject => simp [resizeFb_of_reject hcap hpolicy]
  · simp [resizeFb_of_not_overCapacity hcap]

@[simp] theorem handlerFbOp_pal (k : Nibble) (op : FbOp) (s : State) :
    (handlerFbOp k op s).pal = s.pal := by
  unfold handlerFbOp
  split
  · cases op <;> simp
  · simp

@[simp] theorem callHandler_pal (h : Handler) (k : Nibble) (call : HandlerCall) (s : State) :
    (callHandler h k call s).1.pal = s.pal := by
  refine applyFbOps_induction (P := fun t => t.pal = s.pal) (fun t ht => by simpa using ht)
    (fun op t ht => by simpa using ht) _
    (applyPushes_induction (P := fun t => t.pal = s.pal) (fun t ht => by simpa using ht)
      (fun t _ _ ht => ht) _ ?_)
  cases h <;> rfl

@[simp] theorem portIn_pal (a : Byte) (s : State) : (portIn a s).pal = s.pal := by
  unfold portIn
  split <;> simp

@[simp] theorem dispatchWrite_pal (a v : Byte) (s : State) :
    (dispatchWrite a v s).pal = s.pal := by
  unfold dispatchWrite
  split <;> simp

theorem portOut_pal {a : Byte} (h : isPaletteAddr s.cfg a = false) (v : Byte) :
    (portOut a v s).pal = s.pal := by
  have hcfg : (dispatchWrite a v (poll (rfWrite (poll s) a v))).cfg = s.cfg :=
    ((monotone_persistent s).closed.dispatchWrite a v ((monotone_persistent s).poll
      ((monotone_persistent s).store _ a v ((monotone_persistent s).poll
        ⟨rfl, id, id, ⟨[], List.append_nil _⟩⟩)))).config
  unfold portOut
  dsimp only
  rw [hcfg, h]
  simp

theorem admitted_pal {run : State → State} (h : (run s).pal = s.pal) (ok : Bool) :
    (admitted ok run s).pal = s.pal := by
  rcases admitted_cases ok run s with e | e
  · rw [e, h]
  · rw [e, refuse_pal]

theorem issueHost_pal (steps : List HostStep) (s : State) : (issueHost steps s).pal = s.pal := by
  simp [issueHost]

/-- Settles O27: of the operations behind the transactions the palette recompute alone writes PAL,
and POUT alone reaches it. -/
theorem onlyAPalettePoutChangesPal : Obligations.OnlyAPalettePoutChangesPal := by
  unfold Obligations.OnlyAPalettePoutChangesPal
  intro s t i hi ht hne
  cases i with
  | pout a v =>
    refine ⟨a, v, rfl, ?_⟩
    by_contra hp
    cases ht
    exact hne (admitted_pal (portOut_pal (Bool.eq_false_iff.mpr hp) v) _)
  | boot l e n => exact absurd rfl (hi.1 l e n)
  | frame e v n => exact absurd rfl (hi.2 e v n)
  | rnote | pmove | bdown | bup | stop =>
    cases ht
    exact absurd (admitted_pal (issueHost_pal _ s) _) hne
  | _ =>
    cases ht
    exact absurd (admitted_pal (by simp) _) hne

end Sys2Proof.Machine
end

section
/-! PROOFS. The port transactions that call handlers, with HOST silent (spec 40_port_dispatch R121
to R126, 41_screen_bridge R157): what an external handler's answer does, the palette refresh, and
the reference screen handler's rendering. -/

namespace Sys2Proof.Machine

variable {s t : State}

/-! One call of a handler. -/

/-- What a call of the handler of slot `k` may change, the observer's log apart: the registers of
its slot and its own state, and the framebuffer with what goes with it. -/
structure SlotFrame (k : Nibble) (s t : State) : Prop where
  rest : t = { s with
    rf := t.rf, fbW := t.fbW, fbH := t.fbH, fb := t.fb, fbGen := t.fbGen, rz := t.rz
    refused := t.refused, hstate := t.hstate, idx := t.idx, log := t.log }
  regs : ∀ b, slotOf b ≠ k → rfRead t b = rfRead s b
  states : ∀ slot, slot ≠ k → hstateRead t slot = hstateRead s slot

theorem SlotFrame.quiet {k : Nibble} (f : SlotFrame k s t) (hq : quiet s) : quiet t := by
  unfold Machine.quiet
  rw [f.rest]
  exact hq

theorem SlotFrame.config {k : Nibble} (f : SlotFrame k s t) : t.cfg = s.cfg := by
  rw [f.rest]

theorem SlotFrame.pal {k : Nibble} (f : SlotFrame k s t) : t.pal = s.pal := by
  rw [f.rest]

theorem callHandler_frame (hq : quiet s) (h : Handler) (k : Nibble) (call : HandlerCall) :
    SlotFrame k s (callHandler h k call s).1 := by
  have f := handlerFrame_callHandler hq h k call
  exact ⟨f.rest, f.regs, f.states⟩

/-- Everything POUT's dispatch can do. -/
theorem dispatchWrite_cases (a v : Byte) (s : State) :
    (∃ h, slotKind s.cfg (slotOf a) = .device h ∧
      dispatchWrite a v s = (callHandler h (slotOf a) (.write (subOf a) v) s).1) ∨
    dispatchWrite a v s = trace (.write a v) s := by
  unfold dispatchWrite
  split
  · rename_i h hk
    exact .inl ⟨h, hk, rfl⟩
  · exact .inr rfl
  · exact .inr rfl

theorem dispatchWrite_frame (hq : quiet s) (a v : Byte) :
    SlotFrame (slotOf a) s (dispatchWrite a v s) := by
  rcases dispatchWrite_cases a v s with ⟨h, -, e⟩ | e <;> rw [e]
  · exact callHandler_frame hq _ _ _
  · rw [trace_eq]
    exact ⟨rfl, fun _ _ => rfl, fun _ _ => rfl⟩

theorem tellScreen_of_device {h : Handler} (hk : slotKind s.cfg (screenSlot s.cfg) = .device h)
    (pal : List Pixel) :
    tellScreen pal s = (callHandler h (screenSlot s.cfg) (.palette pal) s).1 := by
  unfold tellScreen
  rw [hk]

theorem tellScreen_frame (hq : quiet s) (pal : List Pixel) :
    SlotFrame (screenSlot s.cfg) s (tellScreen pal s) := by
  unfold tellScreen
  split
  · exact callHandler_frame hq _ _ _
  · exact ⟨rfl, fun _ _ => rfl, fun _ _ => rfl⟩
  · exact ⟨rfl, fun _ _ => rfl, fun _ _ => rfl⟩

/-- A screen handler that keeps to the spec's two writes no register when it is told of a
palette. -/
theorem tellScreen_rf_of_readBack (hq : quiet s) {h : Handler}
    (hk : slotKind s.cfg (screenSlot s.cfg) = .device h) (hne : h ≠ .external) (pal : List Pixel) :
    (tellScreen pal s).rf = s.rf := by
  rw [tellScreen_of_device hk]
  exact (rf_applyAnswer_readBack (s := emit _ s) hq hne _ _ s).1

theorem slotBytes_congr {k : Nibble} (h : ∀ b, slotOf b = k → rfRead t b = rfRead s b) :
    slotBytes t k = slotBytes s k := by
  refine List.map_congr_left fun b hb => h b ?_
  obtain ⟨sub, -, rfl⟩ := List.mem_map.mp hb
  exact slotOf_portAddr _ _

/-! An external handler's answer. -/

/-- A handler other than the screen handler changes nothing by its framebuffer operations but the
mark of a refusal (R121 (3), U17). -/
theorem applyFbOps_of_not_screen {k : Nibble} (hq : quiet s) (hk : k ≠ screenSlot s.cfg)
    (ops : List FbOp) : ∃ refused log,
      applyFbOps k ops s = { s with refused := refused, log := log } := by
  induction ops generalizing s with
  | nil => exact ⟨s.refused, s.log, rfl⟩
  | cons op r ih =>
    obtain ⟨refused, log, e⟩ := ih (s := refuse .handlerOutsideContract s) hq hk
    have hop : handlerFbOp k op s = refuse .handlerOutsideContract s := if_neg hk
    refine ⟨refused, log, ?_⟩
    rw [applyFbOps, poll_quiet hq, hop, e]
    rfl

/-- What the answer `ans` of the external handler of slot `k` makes of a state that differs from `u`
in its registers `rf` and its log only. -/
structure ExternalAnswer (u : State) (rf : Memory) (log : List Event) (k : Nibble)
    (ans : HandlerAnswer) (t : State) (mid : List Event) : Prop where
  log : t.log = log ++ mid
  calls : ∀ slot call, .handler slot call ∉ mid
  rest : t = { u with
    rf := t.rf, fbW := t.fbW, fbH := t.fbH, fb := t.fb, fbGen := t.fbGen, rz := t.rz
    refused := t.refused, hstate := t.hstate, idx := t.idx, log := t.log }
  own : ∀ b, slotOf b = k → rfRead t b = afterPushes ans.pushes (subOf b) (rf.read b)
  others : ∀ b, slotOf b ≠ k → rfRead t b = rf.read b
  states : ∀ slot, hstateRead t slot = if slot = k then ans.hstate else hstateRead u slot
  silent : ans.fbOps = [] → mid = [] ∧ t.refused = u.refused
  screen : k ≠ screenSlot u.cfg ∨ ans.fbOps = [] → t.fbW = u.fbW ∧ t.fbH = u.fbH ∧
    t.fb = u.fb ∧ t.fbGen = u.fbGen ∧ t.rz = u.rz ∧ t.idx = u.idx
  operations : t = { applyFbOps k ans.fbOps u with
    rf := t.rf, hstate := t.hstate, log := t.log }

/-- An external handler's answer is its framebuffer operations on the state before it, with the
registers its pushes leave and its new state; with none of them nothing is handed to the
observer. -/
theorem applyAnswer_external_operations {u : State} (hq : quiet u) (rf : Memory) (log : List Event)
    (k : Nibble) (ans : HandlerAnswer) :
    ∃ rf' hs log', applyAnswer .external k ans { u with rf := rf, log := log } =
      { applyFbOps k ans.fbOps u with rf := rf', hstate := hs, log := log' } ∧
      (ans.fbOps = [] → log' = log) := by
  let w := hstateWrite k ans.hstate { u with rf := rf, log := log }
  have hpushes : applyPushes k ans.pushes w =
      { u with rf := (applyPushes k ans.pushes w).rf, hstate := w.hstate, log := log } :=
    applyPushes_quiet (s := w) hq k ans.pushes
  obtain ⟨log', e⟩ := applyFbOps_rest hq k ans.fbOps (applyPushes k ans.pushes w).rf w.hstate log
  have hanswer : applyAnswer .external k ans { u with rf := rf, log := log } =
      applyFbOps k ans.fbOps (applyPushes k ans.pushes w) := rfl
  rw [hanswer, hpushes, e]
  refine ⟨_, _, log', rfl, fun hnil => ?_⟩
  rw [hnil] at e
  exact (congrArg State.log e).symm

theorem applyAnswer_external {u : State} (hq : quiet u) (hr : Rising u.hstate) {rf : Memory}
    (hm : Memory.wf rf) (log : List Event) (k : Nibble) (ans : HandlerAnswer) :
    ∃ mid, ExternalAnswer u rf log k ans
      (applyAnswer .external k ans { u with rf := rf, log := log }) mid := by
  let s : State := { u with rf := rf, log := log }
  have f := handlerFrame_applyAnswer (s := s) hq .external k ans
  obtain ⟨mid, hlog, hcalls⟩ := f.events
  obtain ⟨rf', hs, log', he, hsilent⟩ := applyAnswer_external_operations hq rf log k ans
  have hregs := rfRead_applyAnswer_external (s := s) hq hm k ans
  have hstates := hstateRead_applyAnswer_external (s := s) hq hr k ans
  refine ⟨mid, hlog, hcalls, f.rest, fun b hb => ?own, fun b hb => ?others, hstates,
    fun hnil => ⟨?mid, ?refused⟩, fun h => ?screen, ?operations⟩
  case own => rw [hregs, if_pos hb]; rfl
  case others => rw [hregs, if_neg hb]; rfl
  case mid =>
    have hsame : log ++ mid = log' := hlog.symm.trans (congrArg State.log he)
    rw [hsilent hnil] at hsame
    exact List.append_cancel_left (hsame.trans (List.append_nil log).symm)
  case refused => rw [he, hnil]; rfl
  case operations => rw [he]
  case screen =>
    rw [he]
    rcases h with hk | hnil
    · obtain ⟨refused, log'', e⟩ := applyFbOps_of_not_screen hq hk ans.fbOps
      rw [e]
      exact ⟨rfl, rfl, rfl, rfl, rfl, rfl⟩
    · rw [hnil]
      exact ⟨rfl, rfl, rfl, rfl, rfl, rfl⟩

theorem callHandler_external (k : Nibble) (call : HandlerCall) (s : State) :
    callHandler .external k call s =
      (applyAnswer .external k
        (Config.externalHandler k (hstateRead s k) (slotBytes s k) call)
        (emit (.handler k call) s),
      (Config.externalHandler k (hstateRead s k) (slotBytes s k) call).result) := rfl

/-- Settles O15: the handler answers in the state that has the call on record, and its result
follows. -/
theorem pinOfAnExternalDevice : Obligations.PinOfAnExternalDevice := by
  unfold Obligations.PinOfAnExternalDevice
  intro s a ans hm hr hq he hk hans
  obtain ⟨mid, f⟩ := applyAnswer_external hq hr hm
    (s.log ++ [.handler (slotOf a) (.read a)]) (slotOf a) ans
  have hrun : exec (.pin a) s = .next (emit (.result ans.result)
      (applyAnswer .external (slotOf a) ans { s with
        log := s.log ++ [.handler (slotOf a) (.read a)] })) := by
    rw [exec_pin_of_admitted he, poll_quiet hq, portIn, hk]
    dsimp only
    rw [callHandler_external, ← hans]
    rfl
  refine ⟨_, mid, hrun, by rw [emit_log, f.log], f.calls, ?rest, f.own, f.others, f.states,
    f.silent, f.screen, ?operations⟩
  case rest =>
    have hrest := f.rest
    generalize applyAnswer _ _ _ _ = t at hrest ⊢
    rw [hrest]
    rfl
  case operations =>
    have hops := f.operations
    generalize applyAnswer _ _ _ _ = t at hops ⊢
    rw [hops]
    rfl

/-- POUT's dispatch to an external handler. -/
theorem dispatchWrite_external {a : Byte} (hk : slotKind s.cfg (slotOf a) = .device .external)
    (v : Byte) :
    dispatchWrite a v s = applyAnswer .external (slotOf a)
      (Config.externalHandler (slotOf a) (hstateRead s (slotOf a)) (slotBytes s (slotOf a))
        (.write (subOf a) v))
      (emit (.handler (slotOf a) (.write (subOf a) v)) s) := by
  unfold dispatchWrite
  rw [hk]
  rfl

/-- Settles O19: the handler answers in the state that has the byte stored and the call on
record. -/
theorem poutToAnExternalDevice : Obligations.PoutToAnExternalDevice := by
  unfold Obligations.PoutToAnExternalDevice
  intro s a v ans hm hr hq he hk hp hans
  obtain ⟨mid, f⟩ := applyAnswer_external hq hr (Memory.write_wf hm a v)
    (s.log ++ [.handler (slotOf a) (.write (subOf a) v)]) (slotOf a) ans
  have hrun : exec (.pout a v) s = .next (applyAnswer .external (slotOf a) ans { s with
      rf := s.rf.write a v
      log := s.log ++ [.handler (slotOf a) (.write (subOf a) v)] }) := by
    rw [exec_pout_of_not_palette hq he hp,
      dispatchWrite_external (s := rfWrite s a v) hk, hans]
    rfl
  refine ⟨_, mid, hrun, f.log, f.calls, f.rest, fun b hb => ?own, fun b hb => ?others, f.states,
    f.silent, f.screen, f.operations⟩
  case own =>
    rw [f.own b hb, Memory.read_write hm]
    rfl
  case others =>
    rw [f.others b hb]
    exact Memory.read_write_of_ne s.rf v (by rintro rfl; exact hb rfl)

/-! The palette refresh. -/

/-- The state after the store and the dispatch of a POUT. -/
def dispatched (a v : Byte) (s : State) : State := dispatchWrite a v (rfWrite s a v)

/-- The palette a POUT to a palette sub-register computes (R126). -/
def newPalette (a v : Byte) (s : State) : List Pixel :=
  paletteOf s.cfg (slotBytes (dispatched a v s) s.cfg.sysSlot)

/-- The state in which the screen handler is told of it. -/
def repainted (a v : Byte) (s : State) : State :=
  { dispatched a v s with pal := newPalette a v s }

/-- The state a POUT to a palette sub-register ends in. -/
def refreshed (a v : Byte) (s : State) : State := tellScreen (newPalette a v s) (repainted a v s)

theorem slotOf_of_isPaletteAddr {c : Config} {a : Byte} (h : isPaletteAddr c a = true) :
    slotOf a = c.sysSlot := by
  simp only [isPaletteAddr, Bool.and_eq_true, beq_iff_eq] at h
  exact h.1.1

theorem dispatched_frame (hq : quiet s) (a v : Byte) :
    SlotFrame (slotOf a) (rfWrite s a v) (dispatched a v s) :=
  dispatchWrite_frame (s := rfWrite s a v) hq a v

theorem dispatched_cfg (hq : quiet s) (a v : Byte) : (dispatched a v s).cfg = s.cfg :=
  (dispatched_frame hq a v).config

theorem repainted_frame (hq : quiet s) (a v : Byte) :
    SlotFrame (screenSlot s.cfg) (repainted a v s)
      (refreshed a v s) := by
  have f := tellScreen_frame (s := repainted a v s) ((dispatched_frame hq a v).quiet hq)
    (newPalette a v s)
  rwa [show (repainted a v s).cfg = s.cfg from dispatched_cfg hq a v] at f

/-- POUT to a palette sub-register with HOST silent: the store, the dispatch, the palette, the
screen handler (R125, R126). -/
theorem exec_pout_of_palette (hq : quiet s) (he : evaluationAdmits s) {a : Byte}
    (hp : isPaletteAddr s.cfg a = true) (v : Byte) :
    exec (.pout a v) s = .next (refreshed a v s) := by
  have hcfg := dispatched_cfg hq a v
  have hquiet : quiet (dispatched a v s) := (dispatched_frame hq a v).quiet hq
  have hpal : paletteOf (dispatched a v s).cfg
      (slotBytes (dispatched a v s) (dispatched a v s).cfg.sysSlot) = newPalette a v s := by
    rw [hcfg]
    rfl
  have hrefresh : refreshPalette (slotBytes (dispatched a v s) (dispatched a v s).cfg.sysSlot)
      (dispatched a v s) = repainted a v s := by
    rw [refreshPalette, hpal]
    rfl
  rw [exec_pout_of_admitted he, portOut_quiet hq]
  change Host.Outcome.next (if isPaletteAddr (dispatched a v s).cfg a = true then
    paletteRecompute (poll (dispatched a v s)) else dispatched a v s) = _
  rw [if_pos (by rwa [hcfg]), poll_quiet hquiet, paletteRecompute_quiet hquiet, hpal, hrefresh,
    refreshed]

/-- Settles O16: the store, the dispatch and the screen handler each stay in their slot; a POUT that
is not admitted does nothing. -/
theorem poutConfinesHandlersToTheirSlots : Obligations.PoutConfinesHandlersToTheirSlots := by
  unfold Obligations.PoutConfinesHandlersToTheirSlots
  intro s t a v b hq ht hne hslot hscreen
  have hdispatch : rfRead (dispatched a v s) b = rfRead s b := by
    rw [(dispatched_frame hq a v).regs b hslot, rfRead_rfWrite_of_ne _ _ hne]
  by_cases he : evaluationAdmits s
  · cases hp : isPaletteAddr s.cfg a with
    | true =>
      rw [exec_pout_of_palette hq he hp] at ht
      cases ht
      exact ((repainted_frame hq a v).regs b (hscreen hp)).trans hdispatch
    | false =>
      rw [exec_pout_of_not_palette hq he hp] at ht
      cases ht
      exact hdispatch
  · have hrefused : exec (.pout a v) s = .next (refuse .notAdmitted s) :=
      congrArg Host.Outcome.next (admitted_not (decide_eq_false he) _ s)
    rw [hrefused] at ht
    cases ht
    rfl

/-- The handlers' stores keep their form. -/
theorem stores_closed : Closed fun s => Memory.wf s.rf ∧ Rising s.hstate where
  poll h := ⟨registers_hostClosed.poll h.1, by rw [poll_hstate]; exact h.2⟩
  event _ _ _ h := h
  mark _ h := h
  store _ a v h := ⟨Memory.write_wf h.1 a v, h.2⟩
  pixel _ _ _ _ h := h
  size _ _ _ _ _ _ _ h := h
  palette _ _ h := h
  handler k v _ h := ⟨h.1, hstateWrite_rising h.2 k v⟩

/-- The registers of the system slot after the store and the dispatch to an external handler. -/
theorem dispatched_external (hm : Memory.wf s.rf) (hr : Rising s.hstate) (hq : quiet s) {a v : Byte}
    {ans : HandlerAnswer} (hk : slotKind s.cfg (slotOf a) = .device .external)
    (hans : ans = Config.externalHandler (slotOf a) (hstateRead s (slotOf a))
      (slotBytes (rfWrite s a v) (slotOf a)) (.write (subOf a) v)) :
    hstateRead (dispatched a v s) (slotOf a) = ans.hstate ∧
      ∀ b, slotOf b = slotOf a → rfRead (dispatched a v s) b =
        afterPushes ans.pushes (subOf b) (if b = a then v else rfRead s b) := by
  have hrun : dispatched a v s = applyAnswer .external (slotOf a) ans
      (emit (.handler (slotOf a) (.write (subOf a) v)) (rfWrite s a v)) := by
    rw [dispatched, dispatchWrite_external (s := rfWrite s a v) hk, hans]
    rfl
  let r := emit (.handler (slotOf a) (.write (subOf a) v)) (rfWrite s a v)
  rw [hrun]
  constructor
  · rw [hstateRead_applyAnswer_external (s := r) hq hr, if_pos rfl]
  · intro b hb
    rw [rfRead_applyAnswer_external (s := r) hq (Memory.write_wf hm a v), if_pos hb]
    exact congrArg _ (rfRead_rfWrite hm a v b)

theorem tellScreen_external (hk : slotKind s.cfg (screenSlot s.cfg) = .device .external)
    (pal : List Pixel) :
    tellScreen pal s = applyAnswer .external (screenSlot s.cfg)
      (Config.externalHandler (screenSlot s.cfg) (hstateRead s (screenSlot s.cfg))
        (slotBytes s (screenSlot s.cfg)) (.palette pal))
      (emit (.handler (screenSlot s.cfg) (.palette pal)) s) := by
  rw [tellScreen_of_device hk]
  rfl

/-- What an external screen handler leaves in its slot when it is told of the new palette. -/
theorem tellScreen_repainted_external (hm : Memory.wf s.rf) (hr : Rising s.hstate) (hq : quiet s)
    (a v : Byte) {scr : HandlerAnswer}
    (hk : slotKind s.cfg (screenSlot s.cfg) = .device .external)
    (hscr : scr = Config.externalHandler (screenSlot s.cfg)
      (hstateRead (dispatched a v s) (screenSlot s.cfg))
      (slotBytes (dispatched a v s) (screenSlot s.cfg)) (.palette (newPalette a v s))) :
    hstateRead (refreshed a v s) (screenSlot s.cfg) = scr.hstate ∧
      ∀ b, slotOf b = screenSlot s.cfg →
        rfRead (refreshed a v s) b =
          afterPushes scr.pushes (subOf b) (rfRead (dispatched a v s) b) := by
  have hcfg : (repainted a v s).cfg = s.cfg := dispatched_cfg hq a v
  have hquiet : quiet (dispatched a v s) := (dispatched_frame hq a v).quiet hq
  obtain ⟨hrf, hhs⟩ := stores_closed.dispatchWrite a v (s := rfWrite s a v)
    ⟨Memory.write_wf hm a v, hr⟩
  have htell := tellScreen_external (s := repainted a v s) (by rwa [hcfg]) (newPalette a v s)
  rw [hcfg] at htell
  have hscr' : Config.externalHandler (screenSlot s.cfg)
      (hstateRead (repainted a v s) (screenSlot s.cfg))
      (slotBytes (repainted a v s) (screenSlot s.cfg)) (.palette (newPalette a v s)) = scr :=
    hscr.symm
  rw [refreshed, htell, hscr']
  let r := emit (.handler (screenSlot s.cfg) (.palette (newPalette a v s))) (repainted a v s)
  constructor
  · rw [hstateRead_applyAnswer_external (s := r) hquiet hhs, if_pos rfl]
  · intro b hb
    rw [rfRead_applyAnswer_external (s := r) hquiet hrf, if_pos hb]
    rfl

/-- A palette refresh changes what the dispatch and the screen handler may change, and PAL. -/
theorem pout_palette_rest (hq : quiet s) (a v : Byte) :
    refreshed a v s = { s with
      rf := (refreshed a v s).rf
      fbW := (refreshed a v s).fbW
      fbH := (refreshed a v s).fbH
      fb := (refreshed a v s).fb
      fbGen := (refreshed a v s).fbGen
      pal := (refreshed a v s).pal
      rz := (refreshed a v s).rz
      refused := (refreshed a v s).refused
      hstate := (refreshed a v s).hstate
      idx := (refreshed a v s).idx
      log := (refreshed a v s).log } := by
  have hd := (dispatched_frame hq a v).rest
  have ht := (repainted_frame hq a v).rest
  rw [refreshed, repainted] at ht ⊢
  generalize newPalette a v s = pal at ht ⊢
  generalize dispatched a v s = d at hd ht ⊢
  generalize tellScreen pal _ = t at ht ⊢
  rw [ht, hd]
  rfl

theorem pout_palette_pal (hq : quiet s) (a v : Byte) :
    (refreshed a v s).pal = newPalette a v s :=
  (repainted_frame hq a v).pal

/-- The palette is that of the system slot's bytes in any state that holds those of the dispatch. -/
theorem newPalette_eq {a v : Byte}
    (h : ∀ b, slotOf b = s.cfg.sysSlot → rfRead t b = rfRead (dispatched a v s) b) :
    newPalette a v s = paletteOf s.cfg (slotBytes t s.cfg.sysSlot) := by
  rw [newPalette, slotBytes_congr h]

/-- With a handler in the system slot that reads back, the slot holds the byte stored and nothing
else that is new. -/
theorem pout_palette_readBack (hm : Memory.wf s.rf) (hq : quiet s) {a : Byte} {h : Handler}
    (hp : isPaletteAddr s.cfg a = true) (hk : slotKind s.cfg s.cfg.sysSlot = .device h)
    (hne : h ≠ .external) (v : Byte) {b : Byte} (hb : slotOf b = s.cfg.sysSlot) :
    rfRead (dispatched a v s) b = (if b = a then v else rfRead s b) ∧
      rfRead (refreshed a v s) b =
        rfRead (dispatched a v s) b := by
  have hcfg : (repainted a v s).cfg = s.cfg := dispatched_cfg hq a v
  have hquiet : quiet (repainted a v s) := (dispatched_frame hq a v).quiet hq
  have hslot := slotOf_of_isPaletteAddr hp
  constructor
  · rw [dispatched, dispatchWrite_of_readBack (s := rfWrite s a v) (by rw [hslot]; exact hk) hne,
      ← rfRead_rfWrite hm]
    rfl
  · by_cases hscreen : s.cfg.sysSlot = screenSlot s.cfg
    · have hrf := tellScreen_rf_of_readBack hquiet (h := h) (by rw [hcfg, ← hscreen, hk]) hne
        (newPalette a v s)
      rw [rfRead, refreshed, hrf]
      rfl
    · exact (repainted_frame hq a v).regs b (by rw [hb]; exact hscreen)

/-- Settles O20: each clause is what the dispatch leaves in the system slot, followed by what the
screen handler, told of the palette, leaves in its own. -/
theorem poutToAPaletteRegisterRefreshesPal :
    Obligations.PoutToAPaletteRegisterRefreshesPal := by
  unfold Obligations.PoutToAPaletteRegisterRefreshesPal
  refine ⟨fun s a v hq he hp => ?everyHandler, fun s a v h hm hq he hp hk hne => ?readBack,
    fun s a v ans hm hr hq he hp hk hscreen hans => ?external,
    fun s a v ans scr bytes hm hr hq he hp hk hscreen hans hbytes hscr => ?oneSlot,
    fun s a v hm hr hq he hp hk hscreen => ?screenHandler⟩
  case everyHandler =>
    refine ⟨_, exec_pout_of_palette hq he hp v, pout_palette_rest hq a v, pout_palette_pal hq a v,
      fun h hk => ?_⟩
    have hcfg : (repainted a v s).cfg = s.cfg := dispatched_cfg hq a v
    have hquiet : quiet (repainted a v s) := (dispatched_frame hq a v).quiet hq
    rw [pout_palette_pal hq, refreshed, tellScreen_of_device (h := h) (by rwa [hcfg]), hcfg]
    obtain ⟨mid, hlog, -⟩ := (handlerFrame_callHandler hquiet h (screenSlot s.cfg)
      (.palette (newPalette a v s))).events
    rw [hlog]
    simp
  case readBack =>
    have hregs := fun b hb => pout_palette_readBack hm hq hp hk hne v (b := b) hb
    refine ⟨_, exec_pout_of_palette hq he hp v,
      (pout_palette_pal hq a v).trans (newPalette_eq fun b hb => (hregs b hb).2), fun b hb => ?_⟩
    rw [(hregs b hb).2, (hregs b hb).1]
  case external =>
    have hslot := slotOf_of_isPaletteAddr hp
    rw [← hslot] at hk hscreen hans
    obtain ⟨hstate, hregs⟩ := dispatched_external hm hr hq hk hans
    have f := repainted_frame hq a v
    rw [hslot] at hscreen hstate hregs
    have hsame : ∀ b, slotOf b = s.cfg.sysSlot →
        rfRead (refreshed a v s) b = rfRead (dispatched a v s) b :=
      fun b hb => f.regs b (by rw [hb]; exact hscreen.symm)
    refine ⟨_, exec_pout_of_palette hq he hp v,
      (pout_palette_pal hq a v).trans (newPalette_eq hsame),
      (f.states _ hscreen.symm).trans hstate, fun b hb => ?_⟩
    rw [hsame b hb, hregs b hb]
  case oneSlot =>
    have hslot : slotOf a = screenSlot s.cfg := (slotOf_of_isPaletteAddr hp).trans hscreen.symm
    rw [← hscreen] at hk hans hbytes hscr ⊢
    obtain ⟨hstate, hregs⟩ := dispatched_external hm hr hq (hslot ▸ hk) (hslot ▸ hans)
    rw [hslot] at hstate hregs
    have hslotBytes : slotBytes (dispatched a v s) (screenSlot s.cfg) = bytes := by
      rw [hbytes]
      refine List.map_congr_left fun b hb => hregs b ?_
      obtain ⟨sub, -, rfl⟩ := List.mem_map.mp hb
      exact slotOf_portAddr _ _
    have hpal : newPalette a v s = paletteOf s.cfg bytes := by
      rw [newPalette, ← hscreen, hslotBytes]
    obtain ⟨hown, hpushed⟩ := tellScreen_repainted_external hm hr hq a v (scr := scr) hk
      (by rw [hstate, hslotBytes, hpal, hscr])
    refine ⟨_, exec_pout_of_palette hq he hp v, (pout_palette_pal hq a v).trans hpal, hown,
      fun b hb => ?_⟩
    rw [hpushed b hb, hregs b hb]
  case screenHandler =>
    have hne : screenSlot s.cfg ≠ slotOf a := by
      rw [slotOf_of_isPaletteAddr hp]
      exact hscreen
    have f := dispatched_frame hq a v
    have hregs : ∀ b, slotOf b = screenSlot s.cfg → rfRead (dispatched a v s) b = rfRead s b := by
      intro b hb
      rw [f.regs b (by rw [hb]; exact hne),
        rfRead_rfWrite_of_ne _ _ (by rintro rfl; exact hne hb.symm)]
    obtain ⟨hown, hpushed⟩ := tellScreen_repainted_external hm hr hq a v hk rfl
    refine ⟨_, _, exec_pout_of_palette hq he hp v, ?_, hown, fun b hb => ?_⟩
    · rw [pout_palette_pal hq, slotBytes_congr hregs, f.states _ hne]
      rfl
    · rw [hpushed b hb, hregs b hb]

/-- Settles O21: the test handler leaves nothing but its call on record, in either slot. -/
theorem paletteFollowsThePaletteWrite : Obligations.PaletteFollowsThePaletteWrite := by
  unfold Obligations.PaletteFollowsThePaletteWrite
  intro s a v hm hq he hp hsys hscreen
  have hregs := fun b hb =>
    pout_palette_readBack hm hq hp hsys (by simp) v (b := b) hb
  have hslot := slotOf_of_isPaletteAddr hp
  have hd : dispatched a v s =
      emit (.handler s.cfg.sysSlot (.write (subOf a) v)) (rfWrite s a v) := by
    rw [dispatched, dispatchWrite_of_readBack (s := rfWrite s a v) (h := .raw)
      (by rw [hslot]; exact hsys) (by simp), hslot]
  have ht : refreshed a v s = emit (.handler (screenSlot s.cfg) (.palette (newPalette a v s)))
      (repainted a v s) := by
    have hcfg : (repainted a v s).cfg = s.cfg := dispatched_cfg hq a v
    rw [refreshed, tellScreen_of_device (h := .raw) (by rwa [hcfg]), hcfg]
    rfl
  have hpal : newPalette a v s = paletteOf s.cfg (slotBytes (refreshed a v s) s.cfg.sysSlot) :=
    newPalette_eq fun b hb => (hregs b hb).2
  refine ⟨_, exec_pout_of_palette hq he hp v, ?state, fun b => ?registers⟩
  case state =>
    rw [pout_palette_pal hq, ← hpal, ht, repainted, hd, List.append_cons s.log]
    rfl
  case registers =>
    rw [← rfRead_rfWrite hm, ht, repainted, hd]
    rfl

/-! The reference screen handler (R157). -/

/-- The framebuffer after FBWR of `f i` at every index `i` of a list: HOST silent, in the screen
handler's slot, all indices inside the framebuffer. -/
theorem applyFbOps_fbwr (hq : quiet s) (f : Nat → Pixel) {l : List Nat}
    (hl : ∀ i ∈ l, i < fbSize s) (hsize : fbSize s ≤ 2 ^ 32) :
    ∃ fb, applyFbOps (screenSlot s.cfg)
        (l.map fun i => .fbwr (BitVec.ofNat 32 i) (wordOfPixel (f i))) s = { s with fb := fb } ∧
      ∀ i, fbRead { s with fb := fb } i = if i ∈ l then f i else fbRead s i := by
  induction l generalizing s with
  | nil => exact ⟨s.fb, rfl, fun i => by simp⟩
  | cons i r ih =>
    have hi : i < fbSize s := hl i (by simp)
    have hn : (BitVec.ofNat 32 i).toNat = i := by
      rw [BitVec.toNat_ofNat, Nat.mod_eq_of_lt (by omega)]
    have hop : handlerFbOp (screenSlot s.cfg) (.fbwr (BitVec.ofNat 32 i) (wordOfPixel (f i))) s =
        fbWrite s i (f i) := by
      rw [handlerFbOp, if_pos rfl, writePixel, hn, if_neg (by omega), pixelOfWord_wordOfPixel]
    obtain ⟨fb, he, hfb⟩ := ih (s := fbWrite s i (f i)) hq
      (fun j hj => hl j (by simp [hj])) hsize
    refine ⟨fb, ?_, fun j => ?_⟩
    · rw [List.map_cons, applyFbOps, poll_quiet hq, hop]
      exact he
    · have hj := hfb j
      rw [fbRead_fbWrite] at hj
      refine hj.trans ?_
      by_cases hr : j ∈ r
      · simp [hr]
      · by_cases hji : j = i
        · simp [hji]
        · simp [hr, hji]

theorem fbSize_le (s : State) : fbSize s ≤ 2 ^ 32 := by
  have hw := s.fbW.isLt
  have hh := s.fbH.isLt
  calc fbSize s ≤ 2 ^ 16 * 2 ^ 16 := Nat.mul_le_mul hw.le hh.le
    _ = 2 ^ 32 := by norm_num

/-- An index plane entry names a palette entry (R157). -/
theorem DataInv.idxRead_lt (h : DataInv s) (i : Nat) : idxRead s i < s.cfg.ncol := by
  obtain ⟨-, -, -, ⟨hncol, -⟩, -⟩ := h.config
  unfold idxRead
  cases hget : cellGet s.idx i with
  | none => exact hncol
  | some v => exact h.indexPlane.2 _ (mem_of_cellGet hget)

/-- The reference screen handler, told of a palette with HOST silent: every pixel shows the entry
its index names, and nothing else changes but the call that is recorded. -/
theorem tellScreen_refScreen (hq : quiet s)
    (hk : slotKind s.cfg (screenSlot s.cfg) = .device .refScreen) (pal : List Pixel) :
    ∃ fb, tellScreen pal s = { s with
        fb := fb, log := s.log ++ [.handler (screenSlot s.cfg) (.palette pal)] } ∧
      ∀ i, i < fbSize s →
        fbRead { s with fb := fb } i = pal.getD (idxRead s i) default := by
  obtain ⟨fb, he, hfb⟩ :=
    applyFbOps_fbwr (s := emit (.handler (screenSlot s.cfg) (.palette pal)) s) hq
      (fun i => pal.getD (idxRead s i) default) (l := List.range (fbSize s))
      (fun i hi => List.mem_range.mp hi) (fbSize_le s)
  refine ⟨fb, by rw [tellScreen_of_device hk]; exact he, fun i hi => ?_⟩
  exact (hfb i).trans (if_pos (List.mem_range.mpr hi))

/-- Settles O22: the handler writes the entry of each index once, and every index names an entry. -/
theorem referenceScreenRendersTheNewPalette :
    Obligations.ReferenceScreenRendersTheNewPalette := by
  unfold Obligations.ReferenceScreenRendersTheNewPalette
  intro s a v hinv hq he hp hsys hscreen
  have hdata := (stateInv_iff.mp hinv).1
  have hd : repainted a v s = { emit (.handler (slotOf a) (.write (subOf a) v)) (rfWrite s a v) with
      pal := newPalette a v s } := by
    rw [repainted, dispatched, dispatchWrite_of_readBack (s := rfWrite s a v) (h := .raw)
      (by rw [slotOf_of_isPaletteAddr hp]; exact hsys) (by simp)]
  have hcfg : (repainted a v s).cfg = s.cfg := dispatched_cfg hq a v
  obtain ⟨fb, ht, hfb⟩ := tellScreen_refScreen (s := repainted a v s)
    ((dispatched_frame hq a v).quiet hq) (by rwa [hcfg]) (newPalette a v s)
  have hrefreshed : refreshed a v s = _ := ht
  rw [hd] at hrefreshed hfb
  refine ⟨_, exec_pout_of_palette hq he hp v, by rw [hrefreshed]; rfl, by rw [hrefreshed]; rfl,
    by rw [hrefreshed]; rfl, fun i hi => ?_⟩
  have hlt : idxRead s i < (newPalette a v s).length := by
    rw [newPalette, paletteOf_length]
    exact hdata.idxRead_lt i
  have hpixel : fbRead (refreshed a v s) i = (newPalette a v s).getD (idxRead s i) default := by
    rw [hrefreshed]
    exact hfb i hi
  rw [pout_palette_pal hq, hpixel, List.getElem?_eq_getElem hlt, List.getD_eq_getElem _ _ hlt]

end Sys2Proof.Machine
end
